-- ==== Sys2Proof/Word.lean ====
section
/-! DEFINITION. The word types of the block (00_scope.md R5, R6, R7). -/

namespace Sys2Proof

/-- A 32-bit word: a register, table entry, command word, argument or response datum (R5). A u32 is one of these,
and so is a binary32 value, which is the same datum as its word (R7). -/
abbrev Word := BitVec 32

/-- The 64-bit datum of a binary64 value (R7): a coefficient, a history word or a value inside TICK (R5). -/
abbrev F64 := BitVec 64

end Sys2Proof
end

