-- ==== Sys2Proof/Config.lean ====
section
/-! DEFINITION. What an instance fixes (00_scope.md R4) and the values the spec leaves open. -/

namespace Sys2Proof

/-- The three tables (20_memory.md R60, R62). -/
inductive TableId where
  | sine
  | wave
  | noise
  deriving DecidableEq, Repr

/-- The four parameters of an instance (00_scope.md R4), reported in register PARAMS (10_state.md R24). -/
structure Config where
  /-- MAX_BANDS, the number of band slots. -/
  maxBands : Nat
  /-- SINE_LOG2, log2 of the depth of table SINE. -/
  sineLog2 : Nat
  /-- WAVE_LOG2, log2 of the depth of table WAVE. -/
  waveLog2 : Nat
  /-- NOISE_LOG2, log2 of the depth of table NOISE. -/
  noiseLog2 : Nat
  deriving DecidableEq, Repr

/-- The legal ranges of the parameters (00_scope.md R4). -/
abbrev Config.Legal (c : Config) : Prop :=
  (1 ≤ c.maxBands ∧ c.maxBands ≤ 255) ∧ (1 ≤ c.sineLog2 ∧ c.sineLog2 ≤ 24) ∧
    (1 ≤ c.waveLog2 ∧ c.waveLog2 ≤ 24) ∧ (1 ≤ c.noiseLog2 ∧ c.noiseLog2 ≤ 24)

/-- The default instance (00_scope.md R4). -/
def Config.standard : Config := ⟨32, 12, 12, 17⟩

/-- The small instance of 95_test_vectors.md (00_scope.md R4). -/
def Config.small : Config := ⟨2, 2, 2, 2⟩

/-- FREE VALUE (70_reset_and_hazards.md R251; log entry 2): the word that entry `i` of table `t` holds from a reset
until a WRTAB writes it. The first argument numbers the resets, so that each reset leaves words of its own. -/
opaque Config.unwrittenEntry : Nat → TableId → Nat → Word

/-- FREE VALUE (log entry 19): the phase increment a host writes where the frequency ratio of 43_host_driver.md R210
or R211 is a NaN or an infinity, for which the spec states no integer. -/
opaque Config.hostIncrementOfNonFinite : F64 → Word

end Sys2Proof
end

