-- ==== Sys2Proof/Syntax.lean ====
section
/-! DEFINITION. The command words and the eight commands (30_encoding.md R80-R87; opcode_table.json). -/

namespace Sys2Proof

/-- What the host hands over in one handshake: the triple (cmd, arg0, arg1) (30_encoding.md R80). -/
structure Command where
  cmd : Word
  arg0 : Word
  arg1 : Word
  deriving DecidableEq, Repr

/-- The commands, one constructor per row of opcode_table.json. The operands are those of 30_encoding.md R85:
indexes are numbers (their width is a check of WellFormed.lean), value operands are whole words. -/
inductive Instr where
  /-- NOP (41_commands.md R121). -/
  | nop
  /-- RDREG addr (R122). -/
  | rdreg (addr : Nat)
  /-- WRREG addr, w (R124). -/
  | wrreg (addr : Nat) (w : Word)
  /-- RDTAB tab, idx (R129). -/
  | rdtab (tab idx : Nat)
  /-- WRTAB tab, idx, w (R130). -/
  | wrtab (tab idx : Nat) (w : Word)
  /-- START (R131). -/
  | start
  /-- STOP (R132). -/
  | stop
  /-- TICK m, c (42_tick.md R150): modulator sample and sampled-carrier sample. -/
  | tick (m c : Word)
  deriving DecidableEq, Repr

/-- The mnemonic of a command, as opcode_table.json spells it. -/
def Instr.mnemonic : Instr → String
  | .nop => "NOP"
  | .rdreg _ => "RDREG"
  | .wrreg _ _ => "WRREG"
  | .rdtab _ _ => "RDTAB"
  | .wrtab _ _ _ => "WRTAB"
  | .start => "START"
  | .stop => "STOP"
  | .tick _ _ => "TICK"

end Sys2Proof
end

