-- ==== Sys2Proof/WellFormed.lean ====
section
/-! DEFINITION. Which commands can be encoded: every index fits its field (30_encoding.md R82, R83). -/

namespace Sys2Proof

/-- Every operand fits the field that carries it: ADDR is 16 bits (R82), TAB 4 bits and IDX 24 bits (R83). Values that
name no register, no table or no entry are well formed: the block answers them with ERR_ADDR (R90, R95). -/
def Instr.wellFormed : Instr → Bool
  | .nop => true
  | .rdreg addr => addr < 2 ^ 16
  | .wrreg addr _ => addr < 2 ^ 16
  | .rdtab tab idx => tab < 2 ^ 4 && idx < 2 ^ 24
  | .wrtab tab idx _ => tab < 2 ^ 4 && idx < 2 ^ 24
  | .start => true
  | .stop => true
  | .tick _ _ => true

end Sys2Proof
end

