-- ==== Sys2Proof/Decode.lean ====
section
/-! DEFINITION. Decoding and encoding of commands (30_encoding.md R80-R91). -/

namespace Sys2Proof

/-- Why a command word is illegal; the block ends either with ERR_OPC. -/
inductive DecodeError where
  /-- OP is 8..15 (30_encoding.md R88). -/
  | reservedOpcode
  /-- OP is 0..7 and the ZERO field is not zero (30_encoding.md R89). -/
  | nonzeroZeroField
  deriving DecidableEq, Repr

/-- `v[lo+len-1:lo]` as a number (00_scope.md R6). -/
def wordField (v : Word) (lo len : Nat) : Nat := (v.extractLsb' lo len).toNat

/-- A word whose ZERO field (the `len` bits from `lo` on) must be zero (30_encoding.md R89). -/
def requireZero (v : Word) (lo len : Nat) (i : Instr) : Except DecodeError Instr :=
  if wordField v lo len = 0 then .ok i else .error .nonzeroZeroField

/-- The command a triple of words stands for (30_encoding.md R81-R91; the case of 41_commands.md R120). OP = cmd[31:28]
alone selects the format (R91); ADDR, TAB and IDX are unsigned (R86); an argument that R85 does not list is ignored. -/
def decode (c : Command) : Except DecodeError Instr :=
  match wordField c.cmd 28 4 with
  | 0 => requireZero c.cmd 0 28 .nop
  | 1 => requireZero c.cmd 16 12 (.rdreg (wordField c.cmd 0 16))
  | 2 => requireZero c.cmd 16 12 (.wrreg (wordField c.cmd 0 16) c.arg0)
  | 3 => .ok (.rdtab (wordField c.cmd 24 4) (wordField c.cmd 0 24))
  | 4 => .ok (.wrtab (wordField c.cmd 24 4) (wordField c.cmd 0 24) c.arg0)
  | 5 => requireZero c.cmd 0 28 .start
  | 6 => requireZero c.cmd 0 28 .stop
  | 7 => requireZero c.cmd 0 28 (.tick c.arg0 c.arg1)
  | _ => .error .reservedOpcode

/-- Format Z (30_encoding.md R81): OP and a zero field. -/
def formatZ (op : BitVec 4) : Word := op ++ 0#28

/-- Format R (30_encoding.md R82): OP, a zero field, ADDR. -/
def formatR (op : BitVec 4) (addr : Nat) : Word := (op ++ 0#12) ++ BitVec.ofNat 16 addr

/-- Format T (30_encoding.md R83): OP, TAB, IDX. -/
def formatT (op : BitVec 4) (tab idx : Nat) : Word := (op ++ BitVec.ofNat 4 tab) ++ BitVec.ofNat 24 idx

/-- The words of a command (30_encoding.md R87, R92). An argument not written is 0 (R92). -/
def encode : Instr → Command
  | .nop => ⟨formatZ 0, 0, 0⟩
  | .rdreg addr => ⟨formatR 1 addr, 0, 0⟩
  | .wrreg addr w => ⟨formatR 2 addr, w, 0⟩
  | .rdtab tab idx => ⟨formatT 3 tab idx, 0, 0⟩
  | .wrtab tab idx w => ⟨formatT 4 tab idx, w, 0⟩
  | .start => ⟨formatZ 5, 0, 0⟩
  | .stop => ⟨formatZ 6, 0, 0⟩
  | .tick m c => ⟨formatZ 7, m, c⟩

/-- One row of the opcode map (30_encoding.md R87). -/
structure OpcodeRow where
  mnemonic : String
  pattern : Word
  mask : Word
  deriving DecidableEq, Repr

/-- A word selects a row when (w AND mask) = match (30_encoding.md R87). -/
def OpcodeRow.selects (r : OpcodeRow) (w : Word) : Bool := w &&& r.mask == r.pattern

/-- The opcode map (30_encoding.md R87; opcode_table.json). -/
def opcodeRows : List OpcodeRow :=
  [⟨"NOP", 0x00000000, 0xFFFFFFFF⟩, ⟨"RDREG", 0x10000000, 0xFFFF0000⟩, ⟨"WRREG", 0x20000000, 0xFFFF0000⟩,
   ⟨"RDTAB", 0x30000000, 0xF0000000⟩, ⟨"WRTAB", 0x40000000, 0xF0000000⟩, ⟨"START", 0x50000000, 0xFFFFFFFF⟩,
   ⟨"STOP", 0x60000000, 0xFFFFFFFF⟩, ⟨"TICK", 0x70000000, 0xFFFFFFFF⟩]

/-- The triple of words whose bits, numbered with cmd first, then arg0, then arg1, are the low `nbits` bits of `w`;
every bit above them is 0. -/
def commandOfBits (nbits w : Nat) : Command :=
  let v := w % 2 ^ nbits
  ⟨BitVec.ofNat 32 v, BitVec.ofNat 32 (v >>> 32), BitVec.ofNat 32 (v >>> 64)⟩

/-- The instruction the decoder reads from bits numbered as opcode_table.json numbers them. -/
def decodeTableWord (nbits w : Nat) : Option Instr :=
  match decode (commandOfBits nbits w) with
  | .ok i => some i
  | .error _ => none

end Sys2Proof
end

