-- ==== Sys2Proof/Machine/State.lean ====
section
/-! DEFINITION. The state of the block (10_state.md, 20_memory.md R62, 30_encoding.md R80), as plain data, and the
state right after reset (10_state.md R46, 70_reset_and_hazards.md R250). -/

namespace Sys2Proof.Machine

/-- The ways the machine can stop with a fault: none. No error stops the block, resets it or makes it stuck
(60_exceptions.md R232); every command ends with exactly one response (30_encoding.md R80). Safe (log entry 12). -/
inductive Fault where
  deriving DecidableEq, Repr

/-- The ways a step can be refused. -/
inductive Refusal where
  /-- An instruction the model gives no meaning: raised by an arm of `exec` only, and no arm raises it. Safe. -/
  | notModelled (mnemonic : String)
  deriving DecidableEq, Repr

/-- The error codes 1..5 (30_encoding.md R94; 60_exceptions.md R231). -/
inductive ErrCode where
  | opc
  | addr
  | ro
  | busy
  | cfg
  deriving DecidableEq, Repr

/-- The response status (30_encoding.md R94): OK, or one error code. Codes 6 and 7 are never produced. -/
inductive RspStatus where
  | ok
  | err (e : ErrCode)
  deriving DecidableEq, Repr

/-- A response: the datum and the status (30_encoding.md R80). -/
structure Response where
  data : Word
  status : RspStatus
  deriving DecidableEq, Repr

/-- STATUS (10_state.md R26): the run state and the seven sticky bits. Bits 31:8 do not exist: they read as 0 and
writes to them are ignored. -/
structure Status where
  run : Bool
  eOpc : Bool
  eAddr : Bool
  eRo : Bool
  eBusy : Bool
  eCfg : Bool
  nanOut : Bool
  clipOut : Bool
  deriving DecidableEq, Repr

/-- The gain registers (10_state.md R34), each a binary32 word. -/
structure Gains where
  ana : Word
  het : Word
  env : Word
  syn : Word
  noise : Word
  osc : Word
  boost : Word
  sample : Word
  air : Word
  out : Word
  deriving DecidableEq, Repr

/-- A binary64 coefficient as its two registers (10_state.md R35). -/
structure Pair where
  lo : Word
  hi : Word
  deriving DecidableEq, Repr

/-- A coefficient set: five pairs, ten registers (10_state.md R35). -/
structure CoefSet where
  b0 : Pair
  b1 : Pair
  b2 : Pair
  a1 : Pair
  a2 : Pair
  deriving DecidableEq, Repr

/-- The history of one biquad section (10_state.md R42): two inputs and two outputs, binary64, most recent first. -/
structure History where
  x1 : F64
  x2 : F64
  y1 : F64
  y2 : F64
  deriving DecidableEq, Repr

/-- A band slot: its registers (10_state.md R37-R40) and its hidden histories (R42). -/
structure Band where
  bp : CoefSet
  hetPinc : Word
  hetPhase : Word
  env : Word
  ha1 : History
  ha2 : History
  hs1 : History
  hs2 : History
  he : History
  deriving DecidableEq, Repr

/-- The entries of a table that WRTAB has written since the last reset, as (index, word) cells in strictly rising order
of index. An unlisted entry holds an unspecified word (70_reset_and_hazards.md R251; log entries 2 and 22). -/
abbrev Table := List (Nat × Word)

/-- The state of the block and of its channel. -/
structure State where
  /-- The instance parameters, PARAMS (10_state.md R24). -/
  cfg : Config
  /-- CTRL.OSC_SEL (10_state.md R25). -/
  oscSel : Bool
  /-- STATUS (10_state.md R26). -/
  status : Status
  /-- NUM_BANDS (10_state.md R28). -/
  numBands : Word
  /-- NOISE_LEN (10_state.md R29). -/
  noiseLen : Word
  /-- SAMPLE_CNT (10_state.md R30). -/
  sampleCnt : Word
  /-- OSC_PINC (10_state.md R31). -/
  oscPinc : Word
  /-- OSC_PHASE (10_state.md R32). -/
  oscPhase : Word
  /-- NOISE_IDX (10_state.md R33). -/
  noiseIdx : Word
  /-- The gain registers (10_state.md R34). -/
  gains : Gains
  /-- ENVLP_* (10_state.md R35). -/
  envlp : CoefSet
  /-- AIR_* (10_state.md R36). -/
  air : CoefSet
  /-- The band slots, slot 0 first (10_state.md R37-R40, R42). -/
  bands : List Band
  /-- HAIR (10_state.md R42). -/
  hair : History
  /-- Table SINE (20_memory.md R62). -/
  sine : Table
  /-- Table WAVE (20_memory.md R62). -/
  wave : Table
  /-- Table NOISE (20_memory.md R62). -/
  noise : Table
  /-- The model's own field: which arbitrary fill the unwritten table entries hold (log entry 2). -/
  tableFill : Nat
  /-- The commands the host offers, oldest first: the pins cmd_valid, cmd, arg0, arg1 (30_encoding.md R80). -/
  offered : List Command
  /-- The pin rsp_ready (30_encoding.md R80). -/
  rspReady : Bool
  /-- The pin rst (30_encoding.md R80). -/
  rst : Bool
  /-- The response offered: rsp_valid, rsp_data, rsp_status (30_encoding.md R80). -/
  rsp : Option Response
  deriving DecidableEq, Repr

/-- STATUS at reset: 0 (10_state.md R46). -/
def Status.reset : Status := ⟨false, false, false, false, false, false, false, false⟩

/-- The gains at reset (10_state.md R34, R46). -/
def Gains.reset : Gains where
  ana := 0x41000000
  het := 0x40000000
  env := 0x3F800000
  syn := 0x3F800000
  noise := 0x3DCCCCCD
  osc := 0x3F800000
  boost := 0x3F800000
  sample := 0x00000000
  air := 0x00000000
  out := 0x3F800000

/-- A coefficient set at reset: every register 0 (10_state.md R46). -/
def CoefSet.reset : CoefSet := ⟨⟨0, 0⟩, ⟨0, 0⟩, ⟨0, 0⟩, ⟨0, 0⟩, ⟨0, 0⟩⟩

/-- A history of four +0.0 (10_state.md R42, R46). -/
def History.zero : History := ⟨0, 0, 0, 0⟩

/-- A band slot at reset (10_state.md R46). -/
def Band.reset : Band where
  bp := CoefSet.reset
  hetPinc := 0
  hetPhase := 0
  env := 0
  ha1 := History.zero
  ha2 := History.zero
  hs1 := History.zero
  hs2 := History.zero
  he := History.zero

/-- The state of an instance right after reset (10_state.md R46, 70_reset_and_hazards.md R250): every register and
history at its reset value, no response offered, no table entry specified. The host's pins stand as log entry 6 says. -/
def State.resetOf (cfg : Config) : State where
  cfg := cfg
  oscSel := false
  status := Status.reset
  numBands := 0
  noiseLen := BitVec.ofNat 32 (2 ^ cfg.noiseLog2)
  sampleCnt := 0
  oscPinc := 0
  oscPhase := 0
  noiseIdx := 0
  gains := Gains.reset
  envlp := CoefSet.reset
  air := CoefSet.reset
  bands := List.replicate cfg.maxBands Band.reset
  hair := History.zero
  sine := []
  wave := []
  noise := []
  tableFill := 0
  offered := []
  rspReady := true
  rst := false
  rsp := none

/-- The default instance right after reset (00_scope.md R4; log entry 7). -/
def State.reset : State := State.resetOf Config.standard

end Sys2Proof.Machine
end

