-- ==== Sys2Proof/Machine/Flags.lean ====
section
/-! DEFINITION. Every computation on the flags of STATUS (10_state.md R26). -/

namespace Sys2Proof.Machine

/-- The number of an error code (30_encoding.md R94). -/
def ErrCode.number : ErrCode → Nat
  | .opc => 1
  | .addr => 2
  | .ro => 3
  | .busy => 4
  | .cfg => 5

/-- The three bits rsp_status (30_encoding.md R94). -/
def RspStatus.bits : RspStatus → BitVec 3
  | .ok => 0
  | .err e => BitVec.ofNat 3 e.number

/-- STATUS as RDREG reads it (10_state.md R26; 41_commands.md R122): RUN in bit 0, the sticky bits in 7:1, 0 above. -/
def Status.word (s : Status) : Word :=
  BitVec.ofNat 32 (s.run.toNat + s.eOpc.toNat * 2 + s.eAddr.toNat * 4 + s.eRo.toNat * 8 + s.eBusy.toNat * 16 +
    s.eCfg.toNat * 32 + s.nanOut.toNat * 64 + s.clipOut.toNat * 128)

/-- `reg[STATUS][k] <- 1` for error code k (60_exceptions.md R232). -/
def Status.setError (s : Status) : ErrCode → Status
  | .opc => { s with eOpc := true }
  | .addr => { s with eAddr := true }
  | .ro => { s with eRo := true }
  | .busy => { s with eBusy := true }
  | .cfg => { s with eCfg := true }

/-- WRREG to STATUS (41_commands.md R125): each sticky bit written as 1 is cleared. Bit 0 (RUN) and bits 31:8 are not
written. -/
def Status.writeOneToClear (s : Status) (w : Word) : Status where
  run := s.run
  eOpc := s.eOpc && !w.getLsbD 1
  eAddr := s.eAddr && !w.getLsbD 2
  eRo := s.eRo && !w.getLsbD 3
  eBusy := s.eBusy && !w.getLsbD 4
  eCfg := s.eCfg && !w.getLsbD 5
  nanOut := s.nanOut && !w.getLsbD 6
  clipOut := s.clipOut && !w.getLsbD 7

/-- The flags the output guard sets (42_tick.md R173): each is sticky. -/
def Status.setGuard (s : Status) (nan clip : Bool) : Status :=
  { s with nanOut := s.nanOut || nan, clipOut := s.clipOut || clip }

/-- `reg[STATUS].RUN <- v` (41_commands.md R131, R132). -/
def Status.setRun (s : Status) (v : Bool) : Status := { s with run := v }

end Sys2Proof.Machine
end

