-- ==== Sys2Proof/Machine/Operands.lean ====
section
/-! DEFINITION. Every operand form: register addresses, coefficient halves, access classes, table ids and depths
(10_state.md section 3, 20_memory.md R60-R62, 30_encoding.md R84, R95). -/

namespace Sys2Proof.Machine

/-- The gain registers (10_state.md R34). -/
inductive GainReg where
  | ana
  | het
  | env
  | syn
  | noise
  | osc
  | boost
  | sample
  | air
  | out
  deriving DecidableEq, Repr

/-- The coefficients of a set (10_state.md R35). -/
inductive Coef where
  | b0
  | b1
  | b2
  | a1
  | a2
  deriving DecidableEq, Repr

/-- One register of a coefficient set: NAME_LO or NAME_HI (10_state.md R35). -/
structure CoefHalf where
  coef : Coef
  hi : Bool
  deriving DecidableEq, Repr

/-- The registers of a band slot (10_state.md section 3.2). -/
inductive BandReg where
  | bp (h : CoefHalf)
  | hetPinc
  | hetPhase
  | env
  deriving DecidableEq, Repr

/-- Every register of the block (10_state.md section 3). -/
inductive Reg where
  | id
  | params
  | ctrl
  | status
  | numBands
  | noiseLen
  | sampleCnt
  | oscPinc
  | oscPhase
  | noiseIdx
  | gain (g : GainReg)
  | envlp (h : CoefHalf)
  | air (h : CoefHalf)
  | band (b : Nat) (r : BandReg)
  deriving DecidableEq, Repr

/-- The access classes (10_state.md R44). -/
inductive Access where
  | ro
  | rw
  | rwLocked
  | writeOneToClear
  deriving DecidableEq, Repr

/-- The gain register at offset `k` from 0x0010 (10_state.md R34). -/
def gainOfOffset : Nat → Option GainReg
  | 0 => some .ana
  | 1 => some .het
  | 2 => some .env
  | 3 => some .syn
  | 4 => some .noise
  | 5 => some .osc
  | 6 => some .boost
  | 7 => some .sample
  | 8 => some .air
  | 9 => some .out
  | _ => none

/-- The coefficient register at offset `k` of a set (10_state.md R35): B0, B1, B2, A1, A2, the LO half of each first. -/
def coefOfOffset : Nat → Option CoefHalf
  | 0 => some ⟨.b0, false⟩
  | 1 => some ⟨.b0, true⟩
  | 2 => some ⟨.b1, false⟩
  | 3 => some ⟨.b1, true⟩
  | 4 => some ⟨.b2, false⟩
  | 5 => some ⟨.b2, true⟩
  | 6 => some ⟨.a1, false⟩
  | 7 => some ⟨.a1, true⟩
  | 8 => some ⟨.a2, false⟩
  | 9 => some ⟨.a2, true⟩
  | _ => none

/-- The register at offset `k` of a band slot (10_state.md section 3.2); offsets 13..15 are reserved (R41). -/
def bandRegOfOffset (k : Nat) : Option BandReg :=
  if k = 10 then some .hetPinc
  else if k = 11 then some .hetPhase
  else if k = 12 then some .env
  else (coefOfOffset k).map .bp

/-- The global register at an address below 0x0100 (10_state.md section 3.1), none at a reserved one (R41). -/
def selectGlobal (addr : Nat) : Option Reg :=
  if addr < 0x10 then
    match addr with
    | 0 => some .id
    | 1 => some .params
    | 2 => some .ctrl
    | 3 => some .status
    | 4 => some .numBands
    | 5 => some .noiseLen
    | 6 => some .sampleCnt
    | 7 => some .oscPinc
    | 8 => some .oscPhase
    | 9 => some .noiseIdx
    | _ => none
  else if addr < 0x20 then (gainOfOffset (addr - 0x10)).map .gain
  else if addr < 0x30 then (coefOfOffset (addr - 0x20)).map .envlp
  else if addr < 0x40 then (coefOfOffset (addr - 0x30)).map .air
  else none

/-- The register an address selects (30_encoding.md R84), none if the address is reserved (10_state.md R41). -/
def selectReg (cfg : Config) (addr : Nat) : Option Reg :=
  if addr < 0x100 then selectGlobal addr
  else
    let b := (addr - 0x100) / 16
    if b < cfg.maxBands then (bandRegOfOffset (addr % 16)).map (.band b) else none

/-- The offset of a coefficient register in its set (10_state.md R35). -/
def CoefHalf.offset (h : CoefHalf) : Nat :=
  2 * (match h.coef with | .b0 => 0 | .b1 => 1 | .b2 => 2 | .a1 => 3 | .a2 => 4) + h.hi.toNat

/-- The address of a gain register (10_state.md R34). -/
def GainReg.address : GainReg → Nat
  | .ana => 0x10
  | .het => 0x11
  | .env => 0x12
  | .syn => 0x13
  | .noise => 0x14
  | .osc => 0x15
  | .boost => 0x16
  | .sample => 0x17
  | .air => 0x18
  | .out => 0x19

/-- The offset of a register in its band slot (10_state.md section 3.2). -/
def BandReg.offset : BandReg → Nat
  | .bp h => h.offset
  | .hetPinc => 10
  | .hetPhase => 11
  | .env => 12

/-- The address that a register's name stands for (30_encoding.md R92; 20_memory.md R61). -/
def Reg.address : Reg → Nat
  | .id => 0x0
  | .params => 0x1
  | .ctrl => 0x2
  | .status => 0x3
  | .numBands => 0x4
  | .noiseLen => 0x5
  | .sampleCnt => 0x6
  | .oscPinc => 0x7
  | .oscPhase => 0x8
  | .noiseIdx => 0x9
  | .gain g => g.address
  | .envlp h => 0x20 + h.offset
  | .air h => 0x30 + h.offset
  | .band b r => 0x100 + 16 * b + r.offset

/-- The access class of a register (10_state.md R44 and the tables of section 3). -/
def Reg.access : Reg → Access
  | .id => .ro
  | .params => .ro
  | .ctrl => .rw
  | .status => .writeOneToClear
  | .numBands => .rwLocked
  | .noiseLen => .rwLocked
  | .sampleCnt => .ro
  | .oscPinc => .rw
  | .oscPhase => .ro
  | .noiseIdx => .ro
  | .gain _ => .rw
  | .envlp _ => .rwLocked
  | .air _ => .rwLocked
  | .band _ (.bp _) => .rwLocked
  | .band _ .hetPinc => .rwLocked
  | .band _ .hetPhase => .ro
  | .band _ .env => .ro

/-- The word of register ID, "VOC1" (10_state.md R23). -/
def idWord : Word := 0x564F4331

/-- The word of register PARAMS (10_state.md R24). -/
def paramsWord (cfg : Config) : Word :=
  ((BitVec.ofNat 8 cfg.noiseLog2 ++ BitVec.ofNat 8 cfg.waveLog2) ++ BitVec.ofNat 8 cfg.sineLog2) ++
    BitVec.ofNat 8 cfg.maxBands

/-- The table a TAB value names (30_encoding.md R95); 3..15 name none. -/
def tableOfTab : Nat → Option TableId
  | 0 => some .sine
  | 1 => some .wave
  | 2 => some .noise
  | _ => none

/-- The number of entries of a table (20_memory.md R60). -/
def depth (cfg : Config) : TableId → Nat
  | .sine => 2 ^ cfg.sineLog2
  | .wave => 2 ^ cfg.waveLog2
  | .noise => 2 ^ cfg.noiseLog2

/-- The table entry that TAB and IDX select, none for an unknown table id or an index at or beyond the table's depth
(41_commands.md R129, R130). -/
def selectEntry (cfg : Config) (tab idx : Nat) : Option (TableId × Nat) :=
  match tableOfTab tab with
  | none => none
  | some t => if idx < depth cfg t then some (t, idx) else none

end Sys2Proof.Machine
end

