-- ==== Sys2Proof/Machine/Ops.lean ====
section
/-! DEFINITION. The shared operations over registers, tables and the channel: responding, ending with an error (the
block's only exception, 60_exceptions.md R232), reading and writing registers and table entries, accepting a command,
and the reset input. -/

namespace Sys2Proof.Machine

/-! ### Ending a command -/

/-- `respond(d)`: the command ends with status OK and datum `d` (00_scope.md R8). -/
def respond (d : Word) (s : State) : State := { s with rsp := some ⟨d, .ok⟩ }

/-- `raise CmdError(e)` (60_exceptions.md R232): the sticky bit of `e` is set, the response is datum 0 with status `e`,
and nothing else changes. Nothing is saved and nothing is returned from (R236, R237). -/
def raiseError (e : ErrCode) (s : State) : State :=
  { s with status := s.status.setError e, rsp := some ⟨0, .err e⟩ }

/-! ### Tables (20_memory.md R62) -/

/-- The word WRTAB last wrote to entry `i`, if it has written it since the last reset. -/
def findEntry : Table → Nat → Option Word
  | [], _ => none
  | (j, w) :: t, i => if i = j then some w else if i < j then none else findEntry t i

/-- The table after a write of `w` to entry `i`, its indexes still strictly rising. -/
def putEntry : Table → Nat → Word → Table
  | [], i, w => [(i, w)]
  | (j, v) :: t, i, w =>
    if i = j then (i, w) :: t else if i < j then (i, w) :: (j, v) :: t else (j, v) :: putEntry t i w

/-- The indexes of a table rise strictly, starting no lower than `lo`, and stay below `hi`. -/
def tableWfFrom (lo hi : Nat) : Table → Bool
  | [] => true
  | (j, _) :: t => decide (lo ≤ j) && decide (j < hi) && tableWfFrom (j + 1) hi t

/-- The canonical form of a table of depth `hi`: strictly rising indexes, each below the depth. -/
def tableWf (hi : Nat) (t : Table) : Bool := tableWfFrom 0 hi t

/-- A table of the state. -/
def State.table (s : State) : TableId → Table
  | .sine => s.sine
  | .wave => s.wave
  | .noise => s.noise

/-- The state with one table replaced. -/
def State.setTable (s : State) (t : TableId) (tab : Table) : State :=
  match t with
  | .sine => { s with sine := tab }
  | .wave => { s with wave := tab }
  | .noise => { s with noise := tab }

/-- `MemRead(T, i)` (00_scope.md R8): the word last written, or the entry's unspecified word
(70_reset_and_hazards.md R251; log entry 2). -/
def memRead (s : State) (t : TableId) (i : Nat) : Word :=
  match findEntry (s.table t) i with
  | some w => w
  | none => Config.unwrittenEntry s.tableFill t i

/-- `MemWrite(T, i, w)` (00_scope.md R8). -/
def memWrite (s : State) (t : TableId) (i : Nat) (w : Word) : State := s.setTable t (putEntry (s.table t) i w)

/-! ### Registers -/

/-- A gain register (10_state.md R34). -/
def Gains.read (g : Gains) : GainReg → Word
  | .ana => g.ana
  | .het => g.het
  | .env => g.env
  | .syn => g.syn
  | .noise => g.noise
  | .osc => g.osc
  | .boost => g.boost
  | .sample => g.sample
  | .air => g.air
  | .out => g.out

/-- A gain register written whole: any pattern is taken (10_state.md R45). -/
def Gains.write (g : Gains) (r : GainReg) (w : Word) : Gains :=
  match r with
  | .ana => { g with ana := w }
  | .het => { g with het := w }
  | .env => { g with env := w }
  | .syn => { g with syn := w }
  | .noise => { g with noise := w }
  | .osc => { g with osc := w }
  | .boost => { g with boost := w }
  | .sample => { g with sample := w }
  | .air => { g with air := w }
  | .out => { g with out := w }

/-- One half of a coefficient pair (10_state.md R35). -/
def Pair.read (p : Pair) (hi : Bool) : Word := if hi then p.hi else p.lo

/-- One half of a coefficient pair written, the other kept (10_state.md R35). -/
def Pair.write (p : Pair) (hi : Bool) (w : Word) : Pair := if hi then { p with hi := w } else { p with lo := w }

/-- The pair of a coefficient. -/
def CoefSet.pair (c : CoefSet) : Coef → Pair
  | .b0 => c.b0
  | .b1 => c.b1
  | .b2 => c.b2
  | .a1 => c.a1
  | .a2 => c.a2

/-- A coefficient register (10_state.md R35). -/
def CoefSet.read (c : CoefSet) (h : CoefHalf) : Word := (c.pair h.coef).read h.hi

/-- A coefficient register written whole (10_state.md R35, R45). -/
def CoefSet.write (c : CoefSet) (h : CoefHalf) (w : Word) : CoefSet :=
  match h.coef with
  | .b0 => { c with b0 := c.b0.write h.hi w }
  | .b1 => { c with b1 := c.b1.write h.hi w }
  | .b2 => { c with b2 := c.b2.write h.hi w }
  | .a1 => { c with a1 := c.a1.write h.hi w }
  | .a2 => { c with a2 := c.a2.write h.hi w }

/-- A register of a band slot (10_state.md section 3.2). -/
def Band.read (b : Band) : BandReg → Word
  | .bp h => b.bp.read h
  | .hetPinc => b.hetPinc
  | .hetPhase => b.hetPhase
  | .env => b.env

/-- A register of a band slot written whole. -/
def Band.write (b : Band) (r : BandReg) (w : Word) : Band :=
  match r with
  | .bp h => { b with bp := b.bp.write h w }
  | .hetPinc => { b with hetPinc := w }
  | .hetPhase => { b with hetPhase := w }
  | .env => { b with env := w }

/-- Band slot `b`. A slot the list lacks, which no reachable state has below MAX_BANDS, reads as a slot at reset
(log entry 8). -/
def State.band (s : State) (b : Nat) : Band := s.bands.getD b Band.reset

/-- The word RDREG returns for a register (41_commands.md R122). -/
def State.readReg (s : State) : Reg → Word
  | .id => idWord
  | .params => paramsWord s.cfg
  | .ctrl => BitVec.ofNat 32 s.oscSel.toNat
  | .status => s.status.word
  | .numBands => s.numBands
  | .noiseLen => s.noiseLen
  | .sampleCnt => s.sampleCnt
  | .oscPinc => s.oscPinc
  | .oscPhase => s.oscPhase
  | .noiseIdx => s.noiseIdx
  | .gain g => s.gains.read g
  | .envlp h => s.envlp.read h
  | .air h => s.air.read h
  | .band b r => (s.band b).read r

/-- `reg[ADDR] <- w` with no access check: what the word does to the register that holds it. ID and PARAMS hold no
storage (10_state.md R23, R24). CTRL keeps bit 0 (41_commands.md R126), STATUS is write-1-to-clear (R125). -/
def State.writeReg (s : State) (r : Reg) (w : Word) : State :=
  match r with
  | .id => s
  | .params => s
  | .ctrl => { s with oscSel := w.getLsbD 0 }
  | .status => { s with status := s.status.writeOneToClear w }
  | .numBands => { s with numBands := w }
  | .noiseLen => { s with noiseLen := w }
  | .sampleCnt => { s with sampleCnt := w }
  | .oscPinc => { s with oscPinc := w }
  | .oscPhase => { s with oscPhase := w }
  | .noiseIdx => { s with noiseIdx := w }
  | .gain g => { s with gains := s.gains.write g w }
  | .envlp h => { s with envlp := s.envlp.write h w }
  | .air h => { s with air := s.air.write h w }
  | .band b r => { s with bands := s.bands.modify b (fun x => x.write r w) }

/-- The words a value-checked register accepts (41_commands.md R127, R128), compared as u32; the others take any. -/
def legalValue (cfg : Config) (r : Reg) (w : Word) : Bool :=
  match r with
  | .numBands => decide (1 ≤ w.toNat ∧ w.toNat ≤ cfg.maxBands)
  | .noiseLen => decide (1 ≤ w.toNat ∧ w.toNat ≤ 2 ^ cfg.noiseLog2)
  | _ => true

/-- The first check of a WRREG that fails, in the order of 41_commands.md R124 and 60_exceptions.md R233. -/
def writeError (s : State) (addr : Nat) (w : Word) : Option ErrCode :=
  match selectReg s.cfg addr with
  | none => some .addr
  | some r =>
    if r.access = .ro then some .ro
    else if r.access = .rwLocked ∧ s.status.run = true then some .busy
    else if legalValue s.cfg r w = false then some .cfg
    else none

/-! ### The channel and the reset input -/

/-- cmd_ready (30_encoding.md R80): the block accepts a command while rst = 0 and no response is left untaken
(70_reset_and_hazards.md R250, R259; log entry 5). -/
def cmdReady (s : State) : Bool := !s.rst && (s.rsp.isNone || s.rspReady)

/-- The response on offer is taken, and `rest` is what the host still offers (30_encoding.md R80). -/
def accept (rest : List Command) (s : State) : State := { s with rsp := none, offered := rest }

/-- The reset input held at 1 (70_reset_and_hazards.md R250): every register and history at its reset value, any
response discarded, the table words unspecified anew (R251; log entries 3 and 4). The host's pins are the host's. -/
def resetBlock (s : State) : State :=
  { State.resetOf s.cfg with
    tableFill := s.tableFill + 1, offered := s.offered, rspReady := s.rspReady, rst := s.rst }

end Sys2Proof.Machine
end

