-- ==== Sys2Proof/Machine/Control.lean ====
section
/-! DEFINITION. The control commands NOP, START and STOP (41_commands.md R121, R131, R132). -/

namespace Sys2Proof.Machine

/-- NOP (41_commands.md R121): responds 0 and changes nothing. -/
def execNop (s : State) : Host.Outcome State Fault Refusal := .next (respond 0 s)

/-- The clearing of one band slot by START (41_commands.md R131): histories, HET_PHASE and ENV; the configuration of
the slot is kept. -/
def clearBand (b : Band) : Band :=
  { b with
    ha1 := History.zero, ha2 := History.zero, hs1 := History.zero, hs2 := History.zero, he := History.zero
    hetPhase := 0, env := 0 }

/-- What START does once its check has passed (41_commands.md R131): every slot, active or not, is cleared. -/
def startRun (s : State) : State :=
  { s with
    bands := s.bands.map clearBand, hair := History.zero, oscPhase := 0, noiseIdx := 0, sampleCnt := 0
    status := s.status.setRun true }

/-- START (41_commands.md R131). -/
def execStart (s : State) : Host.Outcome State Fault Refusal :=
  if s.numBands = 0 then .next (raiseError .cfg s) else .next (respond 0 (startRun s))

/-- STOP (41_commands.md R132). -/
def execStop (s : State) : Host.Outcome State Fault Refusal :=
  .next (respond 0 { s with status := s.status.setRun false })

end Sys2Proof.Machine
end

