-- ==== Sys2Proof/Machine/RegAccess.lean ====
section
/-! DEFINITION. The register commands RDREG and WRREG (41_commands.md R122-R128). The check of the ZERO field, the
first of each command, is the decoder's (Decode.lean, Step.lean). -/

namespace Sys2Proof.Machine

/-- RDREG (41_commands.md R122). -/
def execRdreg (addr : Nat) (s : State) : Host.Outcome State Fault Refusal :=
  match selectReg s.cfg addr with
  | none => .next (raiseError .addr s)
  | some r => .next (respond (s.readReg r) s)

/-- WRREG (41_commands.md R124): the checks in their order, else the write of R125 (STATUS), R126 (CTRL), R127
(NUM_BANDS), R128 (NOISE_LEN) or of the whole word. -/
def execWrreg (addr : Nat) (w : Word) (s : State) : Host.Outcome State Fault Refusal :=
  match writeError s addr w, selectReg s.cfg addr with
  | none, some r => .next (respond 0 (s.writeReg r w))
  | some e, _ => .next (raiseError e s)
  | none, none => .next (raiseError .addr s)

end Sys2Proof.Machine
end

