-- ==== Sys2Proof/Machine/TableAccess.lean ====
section
/-! DEFINITION. The table commands RDTAB and WRTAB (41_commands.md R129, R130). -/

namespace Sys2Proof.Machine

/-- RDTAB (41_commands.md R129). -/
def execRdtab (tab idx : Nat) (s : State) : Host.Outcome State Fault Refusal :=
  match selectEntry s.cfg tab idx with
  | none => .next (raiseError .addr s)
  | some (t, i) => .next (respond (memRead s t i) s)

/-- WRTAB (41_commands.md R130): every table is run-locked. -/
def execWrtab (tab idx : Nat) (w : Word) (s : State) : Host.Outcome State Fault Refusal :=
  match selectEntry s.cfg tab idx with
  | none => .next (raiseError .addr s)
  | some (t, i) => if s.status.run then .next (raiseError .busy s) else .next (respond 0 (memWrite s t i w))

end Sys2Proof.Machine
end

