-- ==== Sys2Proof/Machine/Numerics.lean ====
section
/-! DEFINITION. The numbers of the block: binary32, binary64, rounding, conversions and arithmetic, and the u32
operations (40_numerics.md). Finite values are exact integers in units of the smallest subnormal, so that every sum
and product is formed exactly and rounded once (R101-R103; log entry 21). -/

namespace Sys2Proof.Machine

/-! ### Formats -/

/-- Sign, biased exponent and fraction of a binary64 datum (40_numerics.md R115). -/
def signBit (d : F64) : Bool := d.msb
def expoField (d : F64) : Nat := (d.extractLsb' 52 11).toNat
def fracField (d : F64) : Nat := (d.extractLsb' 0 52).toNat

/-- Sign, biased exponent and fraction of a binary32 word (40_numerics.md R100). -/
def signBit32 (w : Word) : Bool := w.msb
def expoField32 (w : Word) : Nat := (w.extractLsb' 23 8).toNat
def fracField32 (w : Word) : Nat := (w.extractLsb' 0 23).toNat

/-- The classes of a binary64 datum (40_numerics.md R115; isnan is R109). -/
def isNaN (d : F64) : Bool := expoField d == 2047 && fracField d != 0
def isInf (d : F64) : Bool := expoField d == 2047 && fracField d == 0
def isZero (d : F64) : Bool := expoField d == 0 && fracField d == 0

/-- The classes of a binary32 word (40_numerics.md R100). -/
def isNaN32 (w : Word) : Bool := expoField32 w == 255 && fracField32 w != 0
def isInf32 (w : Word) : Bool := expoField32 w == 255 && fracField32 w == 0

/-- The canonical NaNs (40_numerics.md R104). -/
def canonicalNaN : F64 := 0x7FF8000000000000
def canonicalNaN32 : Word := 0x7FC00000

/-- 1.0, -1.0 and 2^-31 in binary64 (00_scope.md R7). -/
def one64 : F64 := 0x3FF0000000000000
def minusOne64 : F64 := 0xBFF0000000000000
def twoToMinus31 : F64 := 0x3E00000000000000

/-- The encodings of the infinities without their sign. -/
def infEncoding : Nat := 0x7FF <<< 52
def infEncoding32 : Nat := 0xFF <<< 23

/-- The magnitude of a binary64 datum in units of 2^-1074 (40_numerics.md R115): T for a zero or subnormal, else
(2^52 + T) * 2^(E-1). An infinity comes out as 2^1024, above every finite magnitude (log entry 21). -/
def magnitude (d : F64) : Nat :=
  if expoField d = 0 then fracField d else (2 ^ 52 + fracField d) <<< (expoField d - 1)

/-- The magnitude of a binary32 word in units of 2^-149 (40_numerics.md R100). -/
def magnitude32 (w : Word) : Nat :=
  if expoField32 w = 0 then fracField32 w else (2 ^ 23 + fracField32 w) <<< (expoField32 w - 1)

/-- The value of a binary64 datum that is no NaN, in units of 2^-1074. -/
def units (d : F64) : Int := if signBit d then -(magnitude d : Int) else magnitude d

/-- The value of a binary32 word that is no NaN, in units of 2^-149. -/
def units32 (w : Word) : Int := if signBit32 w then -(magnitude32 w : Int) else magnitude32 w

/-! ### Rounding -/

/-- `n * 2^-k` to the nearest integer, a tie to the even one (40_numerics.md R101). -/
def roundShift (n k : Nat) : Nat :=
  let q := n >>> k
  let r := n - q <<< k
  if 2 * r < 1 <<< k then q else if 1 <<< k < 2 * r then q + 1 else q + q % 2

/-- The encoding, without sign and without the overflow rule, of `n * 2^-k` units rounded to `p` significant bits. The
value is scaled down until `p` bits stand before the point, or not at all in the subnormal range; a rounding that
carries into the next binade carries into the exponent field. -/
def roundMagnitude (p n k : Nat) : Nat :=
  let sh := Nat.log2 (n >>> k) + 1 - p
  sh <<< (p - 1) + roundShift n (k + sh)

/-- `round64` of the real of sign `neg` and magnitude `n * 2^-k` units of 2^-1074 (40_numerics.md R101). -/
def round64 (neg : Bool) (n k : Nat) : F64 :=
  BitVec.ofNat 64 (min (roundMagnitude 53 n k) infEncoding + if neg then 2 ^ 63 else 0)

/-- `round32` of the real of sign `neg` and magnitude `n * 2^-k` units of 2^-149 (40_numerics.md R101). -/
def round32 (neg : Bool) (n k : Nat) : Word :=
  BitVec.ofNat 32 (min (roundMagnitude 24 n k) infEncoding32 + if neg then 2 ^ 31 else 0)

/-- The infinity and the zero of a sign. -/
def infinity (neg : Bool) : F64 := BitVec.ofNat 64 (infEncoding + if neg then 2 ^ 63 else 0)
def infinity32 (neg : Bool) : Word := BitVec.ofNat 32 (infEncoding32 + if neg then 2 ^ 31 else 0)
def zero64 (neg : Bool) : F64 := if neg then 0x8000000000000000 else 0

/-! ### Conversions -/

/-- `widen` (40_numerics.md R116). One unit of binary32 is 2^925 units of binary64, so the rounding is exact. -/
def widen (w : Word) : F64 :=
  if isNaN32 w then canonicalNaN
  else if isInf32 w then infinity (signBit32 w)
  else round64 (signBit32 w) (magnitude32 w <<< 925) 0

/-- `narrow` (40_numerics.md R117). -/
def narrow (d : F64) : Word :=
  if isNaN d then canonicalNaN32
  else if isInf d then infinity32 (signBit d)
  else round32 (signBit d) (magnitude d) 925

/-- `u32_to_f64` (40_numerics.md R118). -/
def u32ToF64 (u : Word) : F64 := round64 false (u.toNat <<< 1074) 0

/-! ### Arithmetic -/

/-- `fmul` (40_numerics.md R102). The product of two magnitudes is in units of 2^-2148. -/
def fmul (a b : F64) : F64 :=
  let neg := signBit a ^^ signBit b
  if isNaN a || isNaN b then canonicalNaN
  else if (isInf a && isZero b) || (isZero a && isInf b) then canonicalNaN
  else if isInf a || isInf b then infinity neg
  else if magnitude a * magnitude b = 0 then zero64 neg
  else round64 neg (magnitude a * magnitude b) 1074

/-- `fadd` (40_numerics.md R103). -/
def fadd (a b : F64) : F64 :=
  if isNaN a || isNaN b then canonicalNaN
  else if isInf a && isInf b && (signBit a != signBit b) then canonicalNaN
  else if isInf a then a
  else if isInf b then b
  else if units a + units b = 0 then zero64 (isZero a && isZero b && signBit a && signBit b)
  else round64 (units a + units b < 0) (units a + units b).natAbs 0

/-- `fneg` flips the sign bit, of a NaN too (40_numerics.md R103). -/
def fneg (a : F64) : F64 := a ^^^ 0x8000000000000000

/-- `fsub` (40_numerics.md R103): a NaN operand gives the canonical NaN, as `fneg` keeps a NaN a NaN. -/
def fsub (a b : F64) : F64 := fadd a (fneg b)

/-- `fabs` clears the sign bit (40_numerics.md R107). -/
def fabs (a : F64) : F64 := a &&& 0x7FFFFFFFFFFFFFFF

/-- The ordered comparison `a < b` (40_numerics.md R109): false for a NaN, and both zeros compare as 0. -/
def flt (a b : F64) : Bool := !isNaN a && !isNaN b && decide (units a < units b)

/-- `saw` (40_numerics.md R110). -/
def saw (p : Word) : F64 := fsub (fmul (u32ToF64 p) twoToMinus31) one64

/-! ### Integer operations -/

/-- The table index of a phase: its top `log2` bits (40_numerics.md R111). -/
def phaseIndex (p : Word) (log2 : Nat) : Nat := p.toNat >>> (32 - log2)

/-- The advance of a phase accumulator: u32 addition (40_numerics.md R113). -/
def advancePhase (p inc : Word) : Word := p + inc

/-- The advance of the noise position (40_numerics.md R112). -/
def advanceNoise (idx len : Word) : Word := if idx + 1 = len then 0 else idx + 1

end Sys2Proof.Machine
end

