-- ==== Sys2Proof/Machine/Datapath.lean ====
section
/-! DEFINITION. The stages of TICK (42_tick.md), in the order of the file: biquad, cascade, analysis chain, synthesis
chain, carrier, mixer, guard, advance. Every stage reads registers and tables of the state `s` at the TICK's start
(R152) and computes in binary64, one rounded operation at a time (40_numerics.md R108). -/

namespace Sys2Proof.Machine

/-! ### Biquad and cascade -/

/-- `f64(HI, LO)`: the coefficient of a register pair (10_state.md R35; 00_scope.md R7). -/
def Pair.value (p : Pair) : F64 := p.hi ++ p.lo

/-- What a biquad section gives: its output and its next history. -/
structure Section where
  out : F64
  hist : History
  deriving DecidableEq, Repr

/-- `BQ(K, H, x)` (42_tick.md R153). -/
def bq (k : CoefSet) (h : History) (x : F64) : Section :=
  let t := fmul k.b0.value x
  let t := fadd t (fmul k.b1.value h.x1)
  let t := fadd t (fmul k.b2.value h.x2)
  let t := fsub t (fmul k.a1.value h.y1)
  let t := fsub t (fmul k.a2.value h.y2)
  ⟨t, ⟨x, h.x1, t, h.y1⟩⟩

/-- What a cascade gives: its output and the next histories of its two sections. -/
structure Cascade where
  out : F64
  hist1 : History
  hist2 : History
  deriving DecidableEq, Repr

/-- `CASC(K, H1, H2, x)` (42_tick.md R155): the second section's input is the first's output of this tick. -/
def casc (k : CoefSet) (h1 h2 : History) (x : F64) : Cascade :=
  let first := bq k h1 x
  let second := bq k h2 first.out
  ⟨second.out, first.hist, second.hist⟩

/-! ### Analysis chain -/

/-- `ANA_STAGE(a)` (42_tick.md R161). -/
def anaStage (s : State) (a : F64) : F64 := fmul a (widen s.gains.ana)

/-- `HET_REF(b)` (42_tick.md R162). -/
def hetRef (s : State) (b : Band) : F64 := widen (memRead s .sine (phaseIndex b.hetPhase s.cfg.sineLog2))

/-- `HET_STAGE(g, r)` (42_tick.md R163). -/
def hetStage (s : State) (g r : F64) : F64 := fmul (fmul g r) (widen s.gains.het)

/-- `ENV_STAGE` without its snapshot (42_tick.md R166). -/
def envStage (s : State) (l : F64) : F64 := fmul l (widen s.gains.env)

/-- What a chain of a band gives: the band after it, and its signal. -/
structure Chain where
  band : Band
  out : F64
  deriving DecidableEq, Repr

/-- `ANALYSIS(b, m)` (42_tick.md R160): cascade, gain, heterodyne, rectifier (R164), lowpass (R165), envelope gain. ENV
takes the binary32 snapshot of the envelope (R166). -/
def analysis (s : State) (b : Band) (m : F64) : Chain :=
  let c := casc b.bp b.ha1 b.ha2 m
  let g := anaStage s c.out
  let h := hetStage s g (hetRef s b)
  let l := bq s.envlp b.he (fabs h)
  let e := envStage s l.out
  ⟨{ b with ha1 := c.hist1, ha2 := c.hist2, he := l.hist, env := narrow e }, e⟩

/-! ### Synthesis chain -/

/-- `SYN_STAGE(t)` (42_tick.md R168). -/
def synStage (s : State) (t : F64) : F64 := fmul t (widen s.gains.syn)

/-- `VOCODE(p, e)` (42_tick.md R169). -/
def vocode (p e : F64) : F64 := fmul p e

/-- `SYNTHESIS(b, car, e)` (42_tick.md R167). -/
def synthesis (s : State) (b : Band) (car e : F64) : Chain :=
  let c := casc b.bp b.hs1 b.hs2 car
  ⟨{ b with hs1 := c.hist1, hs2 := c.hist2 }, vocode (synStage s c.out) e⟩

/-! ### Carrier source -/

/-- `NOISE_SAMPLE` (42_tick.md R156). -/
def noiseSample (s : State) : F64 := widen (memRead s .noise s.noiseIdx.toNat)

/-- `OSC_SAMPLE`: the sawtooth with OSC_SEL = 1 (42_tick.md R158), else the wavetable (R157). -/
def oscSample (s : State) : F64 :=
  if s.oscSel then saw s.oscPhase else widen (memRead s .wave (phaseIndex s.oscPhase s.cfg.waveLog2))

/-- `CARRIER(c)` (42_tick.md R159). -/
def carrier (s : State) (c : F64) : F64 :=
  let n := fmul (widen s.gains.noise) (noiseSample s)
  let o := fmul (fmul (oscSample s) (widen s.gains.boost)) (widen s.gains.osc)
  let t := fmul (widen s.gains.sample) c
  fadd (fadd n o) t

/-! ### Mixer and output stage -/

/-- One band lane of a tick (42_tick.md R152, R178): analysis, then synthesis with the envelope just found. -/
def lane (s : State) (x car : F64) (b : Band) : Chain :=
  let a := analysis s b x
  synthesis s a.band car a.out

/-- What the band loop gives: the slots after it, and the accumulator. -/
structure Mix where
  bands : List Band
  acc : F64
  deriving DecidableEq, Repr

/-- The band loop of R152 over the first `n` slots, in ascending order from accumulator `acc` (42_tick.md R170). The
slots from `n` on take no part (R175). -/
def mixBands (s : State) (x car : F64) : Nat → List Band → F64 → Mix
  | 0, bs, acc => ⟨bs, acc⟩
  | _ + 1, [], acc => ⟨[], acc⟩
  | n + 1, b :: bs, acc =>
    let c := lane s x car b
    let r := mixBands s x car n bs (fadd acc c.out)
    ⟨c.band :: r.bands, r.acc⟩

/-- The section of `AIR(x)` (42_tick.md R171), evaluated on every tick. -/
def airSection (s : State) (x : F64) : Section := bq s.air s.hair x

/-- `AIR(x)` (42_tick.md R171). -/
def airTerm (s : State) (x : F64) : F64 := fmul (airSection s x).out (widen s.gains.air)

/-- What the output guard gives: the sample, and the two flags it sets. -/
structure Guarded where
  out : F64
  nan : Bool
  clip : Bool
  deriving DecidableEq, Repr

/-- `GUARD(y)` (42_tick.md R173). -/
def guardOut (y : F64) : Guarded :=
  if isNaN y then ⟨0, true, false⟩
  else if flt one64 y then ⟨one64, false, true⟩
  else if flt y minusOne64 then ⟨minusOne64, false, true⟩
  else ⟨y, false, false⟩

/-- The band loop of a tick with modulator word `m` and carrier word `c` (42_tick.md R152). -/
def tickMix (s : State) (m c : Word) : Mix :=
  mixBands s (widen m) (carrier s (widen c)) s.numBands.toNat s.bands 0

/-- `y`: the mixer result before the guard (42_tick.md R171, R172). -/
def mixerResult (s : State) (m c : Word) : F64 :=
  fmul (fadd (tickMix s m c).acc (airTerm s (widen m))) (widen s.gains.out)

/-! ### Advance -/

/-- HET_PHASE of the first `n` slots advances (42_tick.md R174). -/
def advanceBands : Nat → List Band → List Band
  | 0, bs => bs
  | _ + 1, [] => []
  | n + 1, b :: bs => { b with hetPhase := advancePhase b.hetPhase b.hetPinc } :: advanceBands n bs

/-- `ADVANCE()` (42_tick.md R174). -/
def advance (s : State) : State :=
  { s with
    bands := advanceBands s.numBands.toNat s.bands
    oscPhase := advancePhase s.oscPhase s.oscPinc
    noiseIdx := advanceNoise s.noiseIdx s.noiseLen
    sampleCnt := s.sampleCnt + 1 }

/-- `TICK_RUN(m, c_in)` (42_tick.md R152): the band loop, the air band, the output gain, the guard, ADVANCE and the
response `narrow(g)` (R176). -/
def tickRun (m c : Word) (s : State) : State :=
  let mix := tickMix s m c
  let air := airSection s (widen m)
  let y := fmul (fadd mix.acc (fmul air.out (widen s.gains.air))) (widen s.gains.out)
  let g := guardOut y
  respond (narrow g.out)
    (advance { s with bands := mix.bands, hair := air.hist, status := s.status.setGuard g.nan g.clip })

end Sys2Proof.Machine
end

