-- ==== Sys2Proof/Machine/Tick.lean ====
section
/-! DEFINITION. The command TICK (42_tick.md R150, R151). -/

namespace Sys2Proof.Machine

/-- TICK (42_tick.md R150): while RUN = 0 it responds +0.0 and changes nothing (R151); while RUN = 1 it processes one
sample (R152). -/
def execTick (m c : Word) (s : State) : Host.Outcome State Fault Refusal :=
  if s.status.run then .next (tickRun m c s) else .next (respond 0 s)

end Sys2Proof.Machine
end

