-- ==== Sys2Proof/Machine/Dispatch.lean ====
section
/-! DEFINITION. Performing one well-formed command (41_commands.md R120): one arm per command. -/

namespace Sys2Proof.Machine

def exec (i : Instr) (s : State) : Host.Outcome State Fault Refusal :=
  match i with
  | .nop => Sys2Proof.Machine.execNop s
  | .rdreg addr => Sys2Proof.Machine.execRdreg addr s
  | .wrreg addr w => Sys2Proof.Machine.execWrreg addr w s
  | .rdtab tab idx => Sys2Proof.Machine.execRdtab tab idx s
  | .wrtab tab idx w => Sys2Proof.Machine.execWrtab tab idx w s
  | .start => Sys2Proof.Machine.execStart s
  | .stop => Sys2Proof.Machine.execStop s
  | .tick m c => Sys2Proof.Machine.execTick m c s

end Sys2Proof.Machine
end

