-- ==== Sys2Proof/Machine/Perform.lean ====
section
/-! DEFINITION. Performing an accepted command (41_commands.md R120). -/

namespace Sys2Proof.Machine

/-- Performing the triple of words of an accepted command (41_commands.md R120): an illegal command word performs
nothing and ends with ERR_OPC (30_encoding.md R88, R89); any other performs its command. -/
def perform (c : Command) (s : State) : Host.Outcome State Fault Refusal :=
  match decode c with
  | .ok i => exec i s
  | .error _ => .next (raiseError .opc s)

end Sys2Proof.Machine
end

