-- ==== Sys2Proof/Machine/Step.lean ====
section
/-! DEFINITION. One step of the block and of its channel (30_encoding.md R80, 70_reset_and_hazards.md R250, R259), and
the offering of a command to it (log entry 1). -/

namespace Sys2Proof.Machine

/-- One step. With rst = 1 the block is held in reset (70_reset_and_hazards.md R250). An untaken response stalls it
(R259). Otherwise the response is taken, and the oldest offered command, if there is one, is accepted and performed
(30_encoding.md R80); with none offered the block waits (70_reset_and_hazards.md R252). -/
def step (s : State) : Host.Outcome State Fault Refusal :=
  if s.rst then .next (resetBlock s)
  else if !cmdReady s then .next s
  else
    match s.offered with
    | [] => .next (accept [] s)
    | c :: rest => perform c (accept rest s)

/-- The host offers, as the next command the block accepts, the command whose bits are the low `nbits` bits of `w`,
with rst = 0 and rsp_ready = 1 (log entry 1). -/
def State.withFetchWord (s : State) (nbits w : Nat) : State :=
  { s with offered := commandOfBits nbits w :: s.offered, rspReady := true, rst := false }

end Sys2Proof.Machine
end

