-- ==== Sys2Proof/Machine/Assembler.lean ====
section
/-! DEFINITION. The assembler's register operands and pseudo-instructions (30_encoding.md R92, R93), as lists of
commands. A pseudo-instruction is not atomic: each command of its expansion is a step of its own (R93). -/

namespace Sys2Proof.Machine

/-- The five binary64 coefficients of a section, in the order of 10_state.md R35. -/
structure Coefs where
  b0 : F64
  b1 : F64
  b2 : F64
  a1 : F64
  a2 : F64
  deriving DecidableEq, Repr

/-- `WRREG NAME, w` with a register's name for its address (30_encoding.md R92). -/
def writeNamed (r : Reg) (w : Word) : Instr := .wrreg r.address w

/-- `RDREG NAME` with a register's name for its address (30_encoding.md R92). -/
def readNamed (r : Reg) : Instr := .rdreg r.address

/-- The TAB value of a table (30_encoding.md R95). -/
def tabOf : TableId → Nat
  | .sine => 0
  | .wave => 1
  | .noise => 2

/-- The two WRREGs of one coefficient: the low word first (30_encoding.md R93). -/
def writeCoef (reg : CoefHalf → Reg) (c : Coef) (d : F64) : List Instr :=
  [writeNamed (reg ⟨c, false⟩) (d.extractLsb' 0 32), writeNamed (reg ⟨c, true⟩) (d.extractLsb' 32 32)]

/-- The ten WRREGs of a coefficient set in ascending address order (30_encoding.md R93). -/
def writeCoefs (reg : CoefHalf → Reg) (k : Coefs) : List Instr :=
  writeCoef reg .b0 k.b0 ++ writeCoef reg .b1 k.b1 ++ writeCoef reg .b2 k.b2 ++ writeCoef reg .a1 k.a1 ++
    writeCoef reg .a2 k.a2

/-- `SETBQ band[b], b0, b1, b2, a1, a2` (30_encoding.md R93). -/
def setBq (b : Nat) (k : Coefs) : List Instr := writeCoefs (fun h => .band b (.bp h)) k

/-- `SETENVLP b0, b1, b2, a1, a2` (30_encoding.md R93). -/
def setEnvlp (k : Coefs) : List Instr := writeCoefs .envlp k

/-- `SETAIR b0, b1, b2, a1, a2` (30_encoding.md R93). -/
def setAir (k : Coefs) : List Instr := writeCoefs .air k

/-- `CLRSTAT` (30_encoding.md R93). -/
def clrStat : List Instr := [writeNamed .status 0xFE]

/-- `RESTART` (30_encoding.md R93). -/
def restart : List Instr := [.stop, .start]

/-- WRTABs of the words of a list to successive entries of table `tab` from `i` on. -/
def loadFrom (tab i : Nat) : List Word → List Instr
  | [] => []
  | w :: ws => .wrtab tab i w :: loadFrom tab (i + 1) ws

/-- `LOADTAB tab, w0, w1, ..., wn-1` (30_encoding.md R93). `tab` is a number (R92): a table's name stands for its TAB
value, `tabOf`, and a value that names no table expands like any other, each WRTAB then ending with ERR_ADDR. -/
def loadTab (tab : Nat) (ws : List Word) : List Instr := loadFrom tab 0 ws

end Sys2Proof.Machine
end

