-- ==== Sys2Proof/Machine/HostMath.lean ====
section
/-! DEFINITION. The host's transcendental functions (43_host_driver.md R201, R204, R211-R213) and what the spec fixes of
them: the real function's value up to the last bit (95_test_vectors.md section 0; log entry 16). -/

namespace Sys2Proof.Machine

/-- The four functions a host has beyond binary64 arithmetic: sine, cosine, base-2 logarithm and power of two. Which last
bit each gives is the host's (95_test_vectors.md section 0), so the procedures take them as an argument. -/
structure HostMath where
  sin : F64 → F64
  cos : F64 → F64
  log2 : F64 → F64
  exp2 : F64 → F64

/-- A binary64 datum that is neither a NaN nor an infinity (40_numerics.md R115). -/
abbrev IsFinite (d : F64) : Prop := isNaN d = false ∧ isInf d = false

/-- `y` is the real of `r` units of 2^-1074 up to its last bit: it is that real where a binary64 value is, and no
binary64 value lies strictly between the two (95_test_vectors.md section 0; log entry 16). -/
def Faithful (y : F64) (r : ℝ) : Prop :=
  isNaN y = false ∧ ∀ e : F64, IsFinite e →
    ((units e : ℝ) = r → units y = units e) ∧
    ¬((units y : ℝ) < units e ∧ (units e : ℝ) < r) ∧ ¬(r < units e ∧ (units e : ℝ) < units y)

/-- The host's functions are the real functions up to the last bit, and the sine of +0.0 is +0.0 (43_host_driver.md
R212). At a NaN, an infinity, and for the logarithm at no positive value, the spec states no result and none is asked
(log entry 16). -/
structure HostMath.Accurate (hm : HostMath) : Prop where
  sin : ∀ x, IsFinite x → Faithful (hm.sin x) (Real.sin (units x / 2 ^ 1074) * 2 ^ 1074)
  sinZero : hm.sin 0 = 0
  cos : ∀ x, IsFinite x → Faithful (hm.cos x) (Real.cos (units x / 2 ^ 1074) * 2 ^ 1074)
  log2 : ∀ x, IsFinite x → 0 < units x → Faithful (hm.log2 x) (Real.logb 2 (units x / 2 ^ 1074) * 2 ^ 1074)
  exp2 : ∀ x, IsFinite x → Faithful (hm.exp2 x) ((2 : ℝ) ^ ((units x : ℝ) / 2 ^ 1074) * 2 ^ 1074)

end Sys2Proof.Machine
end

