-- ==== Sys2Proof/Machine/HostNumerics.lean ====
section
/-! DEFINITION. The host's arithmetic beyond the block's (43_host_driver.md): IEEE binary64 division, comparison with
equality, and rounding to an integer. The host's transcendental functions are those of HostMath.lean. -/

namespace Sys2Proof.Machine

/-- The constants of the host's formulas, each rounded to nearest in binary64. -/
def two64 : F64 := 0x4000000000000000
def cents64 : F64 := 0x4092C00000000000
def pi64 : F64 := 0x400921FB54442D18
def two32as64 : F64 := 0x41F0000000000000

/-- The natural number `n` in binary64, rounded. -/
def ofNat64 (n : Nat) : F64 := round64 false (n <<< 1074) 0

/-- Binary64 division, roundTiesToEven (43_host_driver.md introduction). The quotient is formed with one bit below the
last place of a subnormal and a sticky bit, and rounded once. -/
def hostDiv (a b : F64) : F64 :=
  let neg := signBit a ^^ signBit b
  if isNaN a || isNaN b then canonicalNaN
  else if (isInf a && isInf b) || (isZero a && isZero b) then canonicalNaN
  else if isInf a || isZero b then infinity neg
  else if isInf b || isZero a then zero64 neg
  else
    let n := magnitude a <<< 1075
    let q := n / magnitude b
    round64 neg (2 * q + if n % magnitude b = 0 then 0 else 1) 2

/-- The comparison `a <= b` of binary64 values: false for a NaN. -/
def hostLe (a b : F64) : Bool := !isNaN a && !isNaN b && decide (units a ≤ units b)

/-- A binary64 value rounded half to even to an integer, modulo 2^32 (43_host_driver.md R210, R211). For a NaN or an
infinity the spec states no integer: a free value (log entry 19). -/
def hostRoundU32 (d : F64) : Word :=
  if isNaN d || isInf d then Config.hostIncrementOfNonFinite d
  else
    let n := roundShift (magnitude d) 1074
    if signBit d then -(BitVec.ofNat 32 n) else BitVec.ofNat 32 n

end Sys2Proof.Machine
end

