-- ==== Sys2Proof/Machine/Driver.lean ====
section
/-! DEFINITION. What the host driver computes (43_host_driver.md sections 1 to 3): the band plan, the coefficients, the
increments, the tables, and the commands that write them. The procedures that issue these commands and read the
responses are those of HostSession.lean. They bind the host, not the block: `step` does not use this file. -/

namespace Sys2Proof.Machine

/-- What a driver procedure returns to its caller: a rejected configuration (43_host_driver.md R202, R220), a missing or
empty buffer (R223), or the error code a command of its ended with (R229). -/
inductive HostError where
  | configuration
  | sourceUnavailable
  | command (e : ErrCode)
  deriving DecidableEq, Repr

/-- What the modulator playback gives once its buffer is played: the buffer again, or silence (43_host_driver.md R226
leaves it to the host's playback; log entry 29). -/
inductive Playback where
  | loop
  | once
  deriving DecidableEq, Repr

/-- The two kinds of periodic waveform the host chooses among (43_host_driver.md R213). -/
inductive Waveform where
  | harmonics
  | sawtooth
  deriving DecidableEq, Repr

/-- The host's parameters and named constants (92_eei_decisions.md, open parameters; 43_host_driver.md R215-R217, R219,
R224, R225). `startHz`, `endHz` and `bandCount` are the current band parameters (90_conflicts.md C3). `gains` are the named
constants of R217, `gains.boost` the OSC_BOOST of the harmonic series; `sawtoothBoost` is that of a sawtooth (R213), and
`waveform` says which of the two is in use (log entry 37). `wavePeriod` is the kind of period that WAVE holds, none while
the host has loaded none (R213). -/
structure HostParams where
  fs : F64
  bandQ : F64
  startHz : F64
  endHz : F64
  bandCount : Nat
  envCutoff : F64
  envQ : F64
  airCutoff : F64
  airQ : F64
  detune : F64
  harmonics : Nat
  wnorm : F64
  gains : Gains
  sawtoothBoost : Word
  waveform : Waveform
  wavePeriod : Option Waveform
  rampTicks : Nat
  blockSize : Nat
  playback : Playback
  deriving DecidableEq, Repr

/-- The parameters with the defaults the spec names: ENV_CUTOFF 5 Hz and AIR_CUTOFF 8000 Hz, ENV_Q and AIR_Q 1/sqrt(2)
(R215, R216; log entry 25), no detune (R211), the gains at the block's reset values (R217), OSC_BOOST among them, the
harmonic series in use, no period loaded. The others are the host's. -/
def HostParams.withDefaults (p : HostParams) : HostParams :=
  { p with
    envCutoff := 0x4014000000000000
    envQ := 0x3FE6A09E667F3BCC
    airCutoff := 0x40BF400000000000
    airQ := 0x3FE6A09E667F3BCC
    detune := 0
    gains := Gains.reset
    waveform := .harmonics
    wavePeriod := none }

/-- The OSC_BOOST constant in use (43_host_driver.md R213, R217). -/
def HostParams.boost (p : HostParams) : Word :=
  match p.waveform with
  | .harmonics => p.gains.boost
  | .sawtooth => p.sawtoothBoost

/-- The gain words in use: what the gain registers are written with (43_host_driver.md R217). -/
def HostParams.gainsInUse (p : HostParams) : Gains := { p.gains with boost := p.boost }

/-- A named constant is set (43_host_driver.md R217); of OSC_BOOST, the one in use. -/
def HostParams.setGain (p : HostParams) (g : GainReg) (w : Word) : HostParams :=
  if g = .boost ∧ p.waveform = .sawtooth then { p with sawtoothBoost := w } else { p with gains := p.gains.write g w }

/-! ### Band plan -/

/-- `n` centers from `c` on, each the one before times `ratio` (43_host_driver.md R201). -/
def centersFrom (ratio : F64) : Nat → F64 → List F64
  | 0, _ => []
  | n + 1, c => c :: centersFrom ratio n (fmul c ratio)

/-- centsPerBand (43_host_driver.md R201). -/
def centsPerBand (hm : HostMath) (startHz endHz : F64) (n : Nat) : F64 :=
  hostDiv (fmul cents64 (hm.log2 (hostDiv endHz startHz))) (ofNat64 n)

/-- The ratio of neighbouring centers: 2^(centsPerBand / 1200) (43_host_driver.md R201). -/
def bandRatio (hm : HostMath) (startHz endHz : F64) (n : Nat) : F64 :=
  hm.exp2 (hostDiv (centsPerBand hm startHz endHz n) cents64)

/-- `generateBands(startFreq, endFreq, numBands)` (43_host_driver.md R201). -/
def generateBands (hm : HostMath) (startHz endHz : F64) (n : Nat) : List F64 :=
  centersFrom (bandRatio hm startHz endHz n) n startHz

/-- Each value is strictly below the next. -/
def increasing : List F64 → Bool
  | [] => true
  | [_] => true
  | c :: d :: cs => flt c d && increasing (d :: cs)

/-! ### The cookbook -/

/-- The common terms of a section (43_host_driver.md R204). -/
structure CookTerms where
  cw : F64
  alpha : F64
  a0 : F64
  a1 : F64
  a2 : F64
  deriving DecidableEq, Repr

/-- The common terms at frequency `f0`, quality `q` and sample rate `fs` (43_host_driver.md R204). -/
def cookTerms (hm : HostMath) (f0 q fs : F64) : CookTerms :=
  let w0 := hostDiv (fmul (fmul two64 pi64) f0) fs
  let cw := hm.cos w0
  let alpha := hostDiv (hm.sin w0) (fmul two64 q)
  ⟨cw, alpha, fadd one64 alpha, fmul (fneg two64) cw, fsub one64 alpha⟩

/-- The five coefficients normalised by a0 (43_host_driver.md R208). -/
def normalise (t : CookTerms) (b0 b1 b2 : F64) : Coefs :=
  ⟨hostDiv b0 t.a0, hostDiv b1 t.a0, hostDiv b2 t.a0, hostDiv t.a1 t.a0, hostDiv t.a2 t.a0⟩

/-- The bandpass (43_host_driver.md R205). -/
def bandpass (hm : HostMath) (f0 q fs : F64) : Coefs :=
  let t := cookTerms hm f0 q fs
  normalise t t.alpha 0 (fneg t.alpha)

/-- The lowpass (43_host_driver.md R206). -/
def lowpass (hm : HostMath) (f0 q fs : F64) : Coefs :=
  let t := cookTerms hm f0 q fs
  let b := fsub one64 t.cw
  normalise t (hostDiv b two64) b (hostDiv b two64)

/-- The highpass (43_host_driver.md R207). -/
def highpass (hm : HostMath) (f0 q fs : F64) : Coefs :=
  let t := cookTerms hm f0 q fs
  let b := fadd one64 t.cw
  normalise t (hostDiv b two64) (fneg b) (hostDiv b two64)

/-- The designs the host uses (43_host_driver.md R209): 1 Hz <= f0 < fs/2 and 0 < Q. -/
def designUsed (f0 q fs : F64) : Bool := hostLe one64 f0 && flt f0 (hostDiv fs two64) && flt 0 q

/-- The stability test that R209 gives as its evidence, on the coefficients as written: 1 + a1 + a2 > 0, 1 - a1 + a2 > 0
and |a2| < 1. It is no check of the host's: Tests/Slice0.lean applies it to the words of 95_test_vectors.md L2.6. -/
def poleTest (k : Coefs) : Bool :=
  flt 0 (fadd (fadd one64 k.a1) k.a2) && flt 0 (fadd (fsub one64 k.a1) k.a2) && flt (fabs k.a2) one64

/-- The checks the host makes before any command of a band configuration. Those of 43_host_driver.md R202 come first, in
the form `0 < startFreq < endFreq` of 92_eei_decisions.md D42, which a NaN frequency fails (the model's choice, log entry
26). Every center must then be a design of R209, and the centers must increase strictly (R203): that the host rejects a
plan which breaks one of these is the model's choice (log entry 28). -/
def bandsRejected (hm : HostMath) (cfg : Config) (p : HostParams) (startHz endHz : F64) (n : Nat) : Bool :=
  decide (n < 1) || decide (cfg.maxBands < n) || !flt 0 startHz || !flt startHz endHz ||
    !(generateBands hm startHz endHz n).all (fun c => designUsed c p.bandQ p.fs) ||
    !increasing (generateBands hm startHz endHz n)

/-- The envelope lowpass and the air highpass are designs of 43_host_driver.md R209. -/
def sectionsUsed (p : HostParams) : Bool :=
  designUsed p.envCutoff p.envQ p.fs && designUsed p.airCutoff p.airQ p.fs

/-! ### Phase increments and tables -/

/-- HET_PINC of a band centered at `c` (43_host_driver.md R210). -/
def hetIncrement (c fs : F64) : Word := hostRoundU32 (fmul (hostDiv c fs) two32as64)

/-- OSC_PINC for base frequency `f` and detune `d` in cents (43_host_driver.md R211). -/
def oscIncrement (hm : HostMath) (f d fs : F64) : Word :=
  hostRoundU32 (fmul (hostDiv (fmul f (hm.exp2 (hostDiv d cents64))) fs) two32as64)

/-- `sin(2*pi*k*i / 2^log2)` as the host computes it. -/
def sineOf (hm : HostMath) (k i log2 : Nat) : F64 :=
  hm.sin (hostDiv (fmul (fmul (fmul two64 pi64) (ofNat64 k)) (ofNat64 i)) (ofNat64 (2 ^ log2)))

/-- The words of table SINE (43_host_driver.md R212). -/
def sineWords (hm : HostMath) (cfg : Config) : List Word :=
  (List.range (2 ^ cfg.sineLog2)).map fun i => narrow (sineOf hm 1 i cfg.sineLog2)

/-- The sum of the first `k` harmonics at entry `i`, from the first up (43_host_driver.md R213; log entry 17). -/
def harmonicSum (hm : HostMath) (i log2 : Nat) : Nat → F64
  | 0 => 0
  | k + 1 => fadd (harmonicSum hm i log2 k) (sineOf hm (k + 1) i log2)

/-- The words of table WAVE (43_host_driver.md R213). -/
def waveWords (hm : HostMath) (cfg : Config) (harmonics : Nat) (wnorm : F64) : List Word :=
  (List.range (2 ^ cfg.waveLog2)).map fun i => narrow (fmul wnorm (harmonicSum hm i cfg.waveLog2 harmonics))

/-- A word whose value lies in [-1, 1]. -/
def inUnitRange (w : Word) : Bool := hostLe minusOne64 (widen w) && hostLe (widen w) one64

/-- A noise ring the host has drawn (43_host_driver.md R214): 1 to 2^NOISE_LOG2 words of value in [-1, 1]. Which words the
host's random source draws is open (log entry 32). -/
structure NoiseRing (cfg : Config) where
  words : List Word
  inRange : words.all inUnitRange = true
  nonempty : 1 ≤ words.length
  fits : words.length ≤ depth cfg .noise
  deriving DecidableEq, Repr

/-- Loading the noise ring and setting its length (43_host_driver.md R214). -/
def loadNoise {cfg : Config} (ring : NoiseRing cfg) : List Instr :=
  loadTab (tabOf .noise) ring.words ++ [writeNamed .noiseLen (BitVec.ofNat 32 ring.words.length)]

/-- The periodic oscillators the host can choose (43_host_driver.md R213): the harmonic series, the naive sawtooth of
OSC_SEL = 1, or a band-limited sawtooth, whose period fills WAVE and is the host's (log entry 32). -/
inductive Oscillator (cfg : Config) where
  | harmonics
  | sawtooth
  | sawtoothTable (period : List Word) (fills : period.length = depth cfg .wave)
  deriving DecidableEq, Repr

/-- The waveform of an oscillator: a sawtooth, naive or band-limited, has its own OSC_BOOST constant (43_host_driver.md
R213). -/
def Oscillator.waveform {cfg : Config} : Oscillator cfg → Waveform
  | .harmonics => .harmonics
  | .sawtooth => .sawtooth
  | .sawtoothTable _ _ => .sawtooth

/-- Setting the oscillator up loads WAVE, which the run-lock allows only while Idle (70_reset_and_hazards.md R255). -/
def Oscillator.loadsWave {cfg : Config} : Oscillator cfg → Bool
  | .harmonics => true
  | .sawtooth => false
  | .sawtoothTable _ _ => true

/-- An oscillator is chosen: its waveform is in use, and if it loads WAVE, WAVE holds its period. -/
def HostParams.choose {cfg : Config} (o : Oscillator cfg) (p : HostParams) : HostParams :=
  { p with waveform := o.waveform, wavePeriod := if o.loadsWave then some o.waveform else p.wavePeriod }

/-- The constants allow a sawtooth: its OSC_BOOST is smaller than that of the harmonic series (43_host_driver.md R213; log
entry 37). -/
def boostsFit (p : HostParams) : Waveform → Bool
  | .harmonics => true
  | .sawtooth => flt (widen p.sawtoothBoost) (widen p.gains.boost)

/-- OSC_SEL and the OSC_BOOST constant in use. -/
def selectSource (p : HostParams) (naive : Bool) : List Instr :=
  [writeNamed .ctrl (if naive then 1 else 0), writeNamed (.gain .boost) p.boost]

/-- The commands that set an oscillator up: its table, if it has one, OSC_SEL and its boost constant (R213). -/
def selectOscillator (hm : HostMath) {cfg : Config} (p : HostParams) : Oscillator cfg → List Instr
  | .harmonics => loadTab (tabOf .wave) (waveWords hm cfg p.harmonics p.wnorm) ++ selectSource p false
  | .sawtooth => selectSource p true
  | .sawtoothTable period _ => loadTab (tabOf .wave) period ++ selectSource p false

/-! ### Configuration -/

/-- Every gain register set from the host's constants (43_host_driver.md R217). -/
def writeGains (g : Gains) : List Instr :=
  [writeNamed (.gain .ana) g.ana, writeNamed (.gain .het) g.het, writeNamed (.gain .env) g.env,
   writeNamed (.gain .syn) g.syn, writeNamed (.gain .noise) g.noise, writeNamed (.gain .osc) g.osc,
   writeNamed (.gain .boost) g.boost, writeNamed (.gain .sample) g.sample, writeNamed (.gain .air) g.air,
   writeNamed (.gain .out) g.out]

/-- SETBQ and HET_PINC of band `b` for center `c` (43_host_driver.md R220). -/
def configureBand (hm : HostMath) (p : HostParams) (b : Nat) (c : F64) : List Instr :=
  setBq b (bandpass hm c p.bandQ p.fs) ++ [writeNamed (.band b .hetPinc) (hetIncrement c p.fs)]

/-- The band writes for the centers from band `b` on (43_host_driver.md R220). -/
def configureFrom (hm : HostMath) (p : HostParams) (b : Nat) : List F64 → List Instr
  | [] => []
  | c :: cs => configureBand hm p b c ++ configureFrom hm p (b + 1) cs

/-- NUM_BANDS and the writes of every band of a plan (43_host_driver.md R220). -/
def writeBands (hm : HostMath) (p : HostParams) (startHz endHz : F64) (n : Nat) : List Instr :=
  writeNamed .numBands (BitVec.ofNat 32 n) :: configureFrom hm p 0 (generateBands hm startHz endHz n)

/-- What `init` writes after the bands (43_host_driver.md R219): SINE, ENVLP, AIR and the gains. -/
def writeSections (hm : HostMath) (cfg : Config) (p : HostParams) : List Instr :=
  loadTab (tabOf .sine) (sineWords hm cfg) ++ setEnvlp (lowpass hm p.envCutoff p.envQ p.fs) ++
    setAir (highpass hm p.airCutoff p.airQ p.fs) ++ writeGains p.gainsInUse

/-! ### Buffers -/

/-- A sample buffer, mono or stereo (43_host_driver.md R226). -/
inductive Buffer where
  | mono (samples : List Word)
  | stereo (samples : List (Word × Word))
  deriving DecidableEq, Repr

/-- A stereo sample mixed down to mono, (L + R) / 2 in binary64 (43_host_driver.md R226). That the mix becomes a binary32
word by `narrow` (nearest-even, a NaN canonical) is the model's choice: R226 names no rounding (log entry 27). -/
def mixDown (l r : Word) : Word := narrow (hostDiv (fadd (widen l) (widen r)) two64)

/-- The mono samples of a buffer (43_host_driver.md R226). No sample is changed otherwise: R226 makes the host responsible
for sanitising its inputs and does not say how, and that a NaN or an infinity is passed on as it is, the sanitising left to
whoever supplies the buffer, is the model's choice (log entry 36). -/
def Buffer.toMono : Buffer → List Word
  | .mono samples => samples
  | .stereo samples => samples.map fun x => mixDown x.1 x.2

/-- The samples of a buffer that may be missing. -/
def monoOf : Option Buffer → List Word
  | none => []
  | some b => b.toMono

/-- One step of a stop ramp: from `w` to `v` the magnitude falls, and the sign stays unless `v` is a zero. -/
def stepsDown (w v : Word) : Bool :=
  flt (fabs (widen v)) (fabs (widen w)) && (isZero (widen v) || signBit32 v == signBit32 w)

/-- Each word steps down from the one before it, the first from `w`. -/
def fallsFrom (w : Word) : List Word → Bool
  | [] => true
  | v :: vs => stepsDown w v && fallsFrom v vs

/-- The words of a stop ramp (43_host_driver.md R225): RAMP_TICKS of them, stepping down from the present OUT_GAIN `out` to
0.0. From a zero or a NaN, below which nothing steps, all are 0.0. The words between are the host's (log entry 20). -/
def isRamp (p : HostParams) (out : Word) (steps : List Word) : Bool :=
  steps.length == p.rampTicks && steps.getLast? == some 0 &&
    if flt 0 (fabs (widen out)) then fallsFrom out steps else steps.all (· == 0)

/-! ### Responses -/

/-- The controller state the host reads from a response to `RDREG STATUS` (43_host_driver.md R218). -/
def runningOf (r : Response) : Bool := r.data.getLsbD 0

/-- What the host reports of a response (43_host_driver.md R229): nothing of an OK, ConfigurationError for an ERR_CFG
(R220, R223), the code of any other error (log entry 31). -/
def errorOf (r : Response) : Option HostError :=
  match r.status with
  | .ok => none
  | .err .cfg => some .configuration
  | .err e => some (.command e)

end Sys2Proof.Machine
end

