-- ==== Sys2Proof/Machine/HostSession.lean ====
section
/-! DEFINITION. The host at work on the block (43_host_driver.md sections 4 and 5): the host's own state, its procedures
as plans of commands, a procedure performed alone, and the session of its two threads, whose commands an arbiter
interleaves (20_memory.md R70, R71). -/

namespace Sys2Proof.Machine

/-- The state after a list of commands, performed in order (20_memory.md R70): the last state that a next state was
answered for. -/
def execAll : List Instr → State → State
  | [], s => s
  | i :: is, s =>
    match exec i s with
    | .next t => execAll is t
    | .fault _ => s
    | .refused _ => s

/-- The responses to a list of commands, in acceptance order (30_encoding.md R80). -/
def responsesOf : List Instr → State → List Response
  | [], _ => []
  | i :: is, s =>
    match exec i s with
    | .next t => t.rsp.toList ++ responsesOf is t
    | .fault _ => []
    | .refused _ => []

/-- What the host keeps: its parameters, and the buffers its carrier and modulator streams are bound to with their
positions (43_host_driver.md R219-R221, R226). It keeps no copy of the controller state (R218). -/
structure HostState where
  params : HostParams
  carrier : List Word
  carrierPos : Nat
  modulator : List Word
  modulatorPos : Nat
  deriving DecidableEq, Repr

/-- A call of a driver procedure under way, or ended: the host and the block as it leaves them, the commands it issued,
the responses it took, and the error the host's own checks gave, if any. -/
structure Call where
  host : HostState
  block : State
  issued : List Instr
  responses : List Response
  rejected : Option HostError
  deriving DecidableEq, Repr

/-- A call begins with nothing issued. -/
def Call.begin (h : HostState) (s : State) : Call := ⟨h, s, [], [], none⟩

/-- Commands issued one after another, each response taken (43_host_driver.md R229). -/
def Call.issue (is : List Instr) (c : Call) : Call :=
  { c with
    block := execAll is c.block, issued := c.issued ++ is
    responses := c.responses ++ responsesOf is c.block }

/-- The host changes what it keeps. -/
def Call.keep (f : HostState → HostState) (c : Call) : Call := { c with host := f c.host }

/-- What a call returns to its caller (43_host_driver.md R229): the error of the host's own check, then that of every
response that is not OK, in order. -/
def Call.errors (c : Call) : List HostError := c.rejected.toList ++ c.responses.filterMap errorOf

/-- STATUS.RUN as the host reads it, with `RDREG STATUS` (43_host_driver.md R218): the last response's. -/
def Call.lastRun (c : Call) : Bool :=
  match c.responses.getLast? with
  | none => false
  | some r => runningOf r

/-! ### Streams -/

/-- A sample of a looped buffer, +0.0 of an empty one (log entry 29). -/
def loopedSample (buf : List Word) (pos : Nat) : Word := buf.getD (pos % buf.length) 0

/-- The modulator sample of the present position (43_host_driver.md R226; log entry 29). -/
def HostState.modulatorSample (h : HostState) : Word :=
  match h.params.playback with
  | .loop => loopedSample h.modulator h.modulatorPos
  | .once => h.modulator.getD h.modulatorPos 0

/-- One `TICK m, c_in`, each stream advancing one sample, the carrier looping (43_host_driver.md R224, R226). The samples
are the buffers' as they are (log entry 36). -/
def Call.tick (c : Call) : Call :=
  (c.issue [.tick c.host.modulatorSample (loopedSample c.host.carrier c.host.carrierPos)]).keep fun h =>
    { h with carrierPos := h.carrierPos + 1, modulatorPos := h.modulatorPos + 1 }

/-! ### Plans -/

/-- Where a command of the control thread may stand among the audio thread's TICKs (43_host_driver.md R224, R225). -/
inductive Place where
  /-- Anywhere. -/
  | anywhere
  /-- Between two audio blocks: the STOP of a STOP ... START sequence. -/
  | atBoundary
  /-- In the rest of such a sequence, before the next audio block. -/
  | inSequence
  /-- After a TICK that follows the control thread's previous command. -/
  | afterTick
  deriving DecidableEq, Repr

/-- What the control thread does next: one command, with what the host keeps as it issues it, or a reconfiguration, which
begins with a read of STATUS (43_host_driver.md R218). -/
inductive Action where
  | command (place : Place) (i : Instr) (keep : HostState → HostState)
  | reconfigure (is : List Instr) (keep : HostState → HostState)

/-- Where an action's command may stand. -/
def Action.place : Action → Place
  | .command p _ _ => p
  | .reconfigure _ _ => .anywhere

/-- Commands at one kind of place. -/
def commandsAt (p : Place) (is : List Instr) : List Action := is.map (.command p · id)

/-- Commands that may stand anywhere, what the host keeps going with the first. -/
def commands (keep : HostState → HostState) : List Instr → List Action
  | [] => []
  | i :: is => .command .anywhere i keep :: commandsAt .anywhere is

/-- A STOP ... START sequence around commands, what the host keeps going with the STOP (43_host_driver.md R220, R221,
R224). -/
def restartAround (keep : HostState → HostState) (is : List Instr) : List Action :=
  .command .atBoundary .stop keep :: commandsAt .inSequence (is ++ [.start])

/-- Issuing an action's command, and the actions it leads to: of a reconfiguration, its commands (43_host_driver.md R220;
70_reset_and_hazards.md R255), within a STOP ... START sequence if STATUS as read says that the block is running. -/
def Action.issue (a : Action) (c : Call) : Call × List Action :=
  match a with
  | .command _ i keep => ((c.issue [i]).keep keep, [])
  | .reconfigure is keep =>
    let c := (c.issue [readNamed .status]).keep keep
    (c, if c.lastRun then restartAround id is else commands id is)

/-- A reconfiguration performed alone. -/
def Call.reconfigure (is : List Instr) (c : Call) : Call :=
  let c := c.issue [readNamed .status]
  if c.lastRun then c.issue (.stop :: is ++ [.start]) else c.issue is

/-- An action performed alone: the audio thread issues a TICK only where the action waits for one. -/
def Call.perform (c : Call) : Action → Call
  | .command .afterTick i keep => (c.tick.issue [i]).keep keep
  | .command _ i keep => (c.issue [i]).keep keep
  | .reconfigure is keep => (c.keep keep).reconfigure is

/-- What a procedure does: its actions, and the error its own checks return, if any (43_host_driver.md R202, R223). -/
structure Plan where
  actions : List Action
  rejected : Option HostError

/-- A plan performed alone. -/
def Plan.alone (p : Plan) (h : HostState) (s : State) : Call :=
  p.actions.foldl Call.perform { Call.begin h s with rejected := p.rejected }

/-! ### Procedures -/

/-- The host's parameters change. -/
def HostState.setParams (f : HostParams → HostParams) (h : HostState) : HostState := { h with params := f h.params }

/-- `configureBands(startFreq, endFreq, numBands)` (43_host_driver.md R220): the checks of R202, else the current band
parameters (90_conflicts.md C3) and the writes of the plan. -/
def bandsPlan (hm : HostMath) (cfg : Config) (p : HostParams) (startHz endHz : F64) (n : Nat) : Plan :=
  if bandsRejected hm cfg p startHz endHz n then ⟨[], some .configuration⟩
  else
    ⟨[.reconfigure (writeBands hm p startHz endHz n)
      (HostState.setParams fun q => { q with startHz := startHz, endHz := endHz, bandCount := n })], none⟩

/-- What `init` writes after its band configuration: the sections of 43_host_driver.md R219, then the host's oscillator
(R213) and noise ring (R214). -/
def setUp (hm : HostMath) {cfg : Config} (p : HostParams) (o : Oscillator cfg) (ring : NoiseRing cfg) : List Instr :=
  writeSections hm cfg p ++ selectOscillator hm p o ++ loadNoise ring

/-- `init(sampleRate)` (43_host_driver.md R219): fs is recorded, and the band configuration is that of the current band
parameters. After the commands R219 lists the host's oscillator and noise ring are set up, so that init writes everything
70_reset_and_hazards.md R253 asks for; that they stand there, and that a design R209 excludes or a plan that is rejected
ends the call with ConfigurationError after STOP and CLRSTAT, is the model's choice (log entry 18). -/
def initPlan (hm : HostMath) {cfg : Config} (sampleRate : F64) (o : Oscillator cfg) (ring : NoiseRing cfg)
    (p : HostParams) : Plan :=
  let p := { p with fs := sampleRate }
  let bands := bandsPlan hm cfg p p.startHz p.endHz p.bandCount
  let opening := commands (HostState.setParams fun q => { q with fs := sampleRate }) (.stop :: clrStat)
  if sectionsUsed p = true ∧ bands.rejected = none then
    ⟨opening ++ bands.actions ++
      commands (HostState.setParams (·.choose o)) (setUp hm (p.choose o) o ring), none⟩
  else ⟨opening, some .configuration⟩

/-- `changeParams(carrierBuffer, modulatorBuffer, baseFreq)` (43_host_driver.md R221, R223), with the optional reload of
the noise ring: the streams are bound to the new buffers, their positions 0. The call takes no detune, and R221 and R211 do
not say which one its OSC_PINC has: the model takes the one the host keeps, the last call of `tune`'s (log entry 38). -/
def paramsPlan (hm : HostMath) {cfg : Config} (carrierBuf modulatorBuf : Option Buffer) (baseFreq : F64)
    (noise : Option (NoiseRing cfg)) (p : HostParams) : Plan :=
  if (monoOf carrierBuf).isEmpty || (monoOf modulatorBuf).isEmpty then ⟨commands id [.stop], some .sourceUnavailable⟩
  else
    ⟨restartAround
      (fun h =>
        { h with
          carrier := monoOf carrierBuf, carrierPos := 0
          modulator := monoOf modulatorBuf, modulatorPos := 0 })
      (writeNamed .oscPinc (oscIncrement hm baseFreq p.detune p.fs) ::
        match noise with | none => [] | some ring => loadNoise ring), none⟩

/-- Choosing the periodic oscillator (43_host_driver.md R213): the host's OSC_BOOST constant follows. A table is loaded
while Idle (70_reset_and_hazards.md R255); the naive sawtooth is two writes of RW registers, and that they restart nothing
is the model's choice (log entry 33). -/
def oscillatorPlan (hm : HostMath) {cfg : Config} (o : Oscillator cfg) (p : HostParams) : Plan :=
  let is := selectOscillator hm (p.choose o) o
  let keep := HostState.setParams (·.choose o)
  if o.loadsWave then ⟨[.reconfigure is keep], none⟩ else ⟨commands keep is, none⟩

/-- Taking up again the period that WAVE holds, with the OSC_BOOST constant of its waveform (43_host_driver.md R213). -/
def periodPlan (p : HostParams) : Plan :=
  match p.wavePeriod with
  | none => ⟨[], none⟩
  | some w =>
    ⟨commands (HostState.setParams fun q => { q with waveform := w }) (selectSource { p with waveform := w } false), none⟩

/-- The click-free stop (43_host_driver.md R225): the writes of OUT_GAIN, each between two TICKs, down to 0.0, then STOP.
The host's named constant of OUT_GAIN is kept (log entry 20). -/
def fadeOutPlan (steps : List Word) : Plan :=
  ⟨commandsAt .afterTick (steps.map (writeNamed (.gain .out)) ++ [.stop]), none⟩

/-- The procedures of the host driver, as the control thread calls them. -/
inductive Procedure (cfg : Config) where
  /-- 43_host_driver.md R219. -/
  | init (sampleRate : F64) (o : Oscillator cfg) (ring : NoiseRing cfg)
  /-- 43_host_driver.md R220. -/
  | configureBands (startHz endHz : F64) (n : Nat)
  /-- 43_host_driver.md R221. -/
  | changeParams (carrierBuf modulatorBuf : Option Buffer) (baseFreq : F64) (noise : Option (NoiseRing cfg))
  /-- 43_host_driver.md R222. -/
  | stop
  /-- The scalar setter of a gain (43_host_driver.md R217). -/
  | setGain (g : GainReg) (w : Word)
  /-- The base frequency and the detune, which the host keeps (43_host_driver.md R211; log entry 38). -/
  | tune (baseFreq detune : F64)
  | chooseOscillator (o : Oscillator cfg)
  | usePeriod
  /-- 43_host_driver.md R214. -/
  | reloadNoise (ring : NoiseRing cfg)
  | fadeOut (steps : List Word)
  /-- Reads back, and the sticky bits cleared (43_host_driver.md R218, R229). -/
  | readRegister (r : Reg)
  | readTable (t : TableId) (i : Nat)
  | clearStatus

/-- What a procedure does, for a host with parameters `p`. -/
def Procedure.plan (hm : HostMath) {cfg : Config} (q : Procedure cfg) (p : HostParams) : Plan :=
  match q with
  | .init sampleRate o ring => initPlan hm sampleRate o ring p
  | .configureBands startHz endHz n => bandsPlan hm cfg p startHz endHz n
  | .changeParams carrierBuf modulatorBuf baseFreq noise => paramsPlan hm carrierBuf modulatorBuf baseFreq noise p
  | .stop => ⟨commands id [.stop], none⟩
  | .setGain g w => ⟨commands (HostState.setParams fun p => p.setGain g w) [writeNamed (.gain g) w], none⟩
  | .tune f d =>
    ⟨commands (HostState.setParams fun p => { p with detune := d }) [writeNamed .oscPinc (oscIncrement hm f d p.fs)], none⟩
  | .chooseOscillator o => oscillatorPlan hm o p
  | .usePeriod => periodPlan p
  | .reloadNoise ring => ⟨[.reconfigure (loadNoise ring) id], none⟩
  | .fadeOut steps => fadeOutPlan steps
  | .readRegister r => ⟨commands id [readNamed r], none⟩
  | .readTable t i => ⟨commands id [.rdtab (tabOf t) i], none⟩
  | .clearStatus => ⟨commands id clrStat, none⟩

/-- The host calls a procedure only as the rules have it: a sawtooth with a smaller OSC_BOOST, the period of WAVE once it
has loaded one (43_host_driver.md R213), a click-free stop with a ramp from the present OUT_GAIN `out` (R225). -/
def Procedure.allowed {cfg : Config} (q : Procedure cfg) (p : HostParams) (out : Word) : Bool :=
  match q with
  | .init _ o _ => boostsFit p o.waveform
  | .chooseOscillator o => boostsFit p o.waveform
  | .usePeriod =>
    match p.wavePeriod with
    | none => false
    | some w => boostsFit p w
  | .fadeOut steps => isRamp p out steps
  | .configureBands _ _ _ => true
  | .changeParams _ _ _ _ => true
  | .stop => true
  | .setGain _ _ => true
  | .tune _ _ => true
  | .reloadNoise _ => true
  | .readRegister _ => true
  | .readTable _ _ => true
  | .clearStatus => true

/-- A procedure performed alone. -/
def Procedure.alone (hm : HostMath) {cfg : Config} (q : Procedure cfg) (h : HostState) (s : State) : Call :=
  (q.plan hm h.params).alone h s

/-- `configureBands(startFreq, endFreq, numBands)` performed alone (43_host_driver.md R220). -/
def configureBands (hm : HostMath) (startHz endHz : F64) (n : Nat) (h : HostState) (s : State) : Call :=
  (Procedure.configureBands (cfg := s.cfg) startHz endHz n).alone hm h s

/-! ### What the host must have written -/

/-- The first `n` entries of a table have been written since the last reset. -/
def State.written (s : State) (t : TableId) (n : Nat) : Bool :=
  (List.range n).all fun i => (findEntry (s.table t) i).isSome

/-- Every table entry a TICK of the present selection can read has been written (70_reset_and_hazards.md R253): all of
SINE (43_host_driver.md R212), all of WAVE unless OSC_SEL = 1, and the noise ring. -/
def State.loaded (s : State) : Bool :=
  s.written .sine (depth s.cfg .sine) && (s.oscSel || s.written .wave (depth s.cfg .wave)) &&
    s.written .noise s.noiseLen.toNat

/-- The block is Idle or loaded: no START, and no selection of WAVE while running, has come before the writes
70_reset_and_hazards.md R253 asks for. A START with NUM_BANDS = 0 starts nothing (log entry 34). -/
def State.bootHeld (s : State) : Bool := !s.status.run || s.loaded

/-! ### Sessions -/

/-- The host's two threads (20_memory.md R71). -/
inductive Thread where
  | audio
  | control
  deriving DecidableEq, Repr

/-- The other thread. -/
def Thread.other : Thread → Thread
  | .audio => .control
  | .control => .audio

/-- A session of the host under way. `call` holds the host and the block, and what has been issued and answered since the
control thread's last procedure began, the TICKs among it; `todo` is what is left of that procedure. `reads` are the
registers the control thread is to read besides, oldest first, at any place (43_host_driver.md R227), and `answers` what it
has read so. `ticksLeft` TICKs are left of the audio block under way, none between two blocks. `ticked`: a TICK has followed
the procedure's last command. `owed`: the thread that waited while the other's last command was accepted. -/
structure Session where
  call : Call
  todo : List Action
  reads : List Reg
  answers : List Response
  ticksLeft : Nat
  ticked : Bool
  owed : Option Thread

/-- A session begins between two audio blocks, with no call under way. -/
def Session.begin (h : HostState) (s : State) : Session := ⟨Call.begin h s, [], [], [], 0, false, none⟩

/-- The procedure's next command may stand here (43_host_driver.md R224, R225). -/
def Session.mayGoOn (x : Session) : Bool :=
  match x.todo with
  | [] => false
  | a :: _ =>
    match a.place with
    | .anywhere => true
    | .atBoundary => decide (x.ticksLeft = 0)
    | .inSequence => true
    | .afterTick => x.ticked

/-- A thread has a command waiting: the audio thread until its block is complete, the control thread while it has a read to
issue or its procedure's next command may stand here (43_host_driver.md R224, R227). -/
def Session.waits (x : Session) : Thread → Bool
  | .audio => decide (0 < x.ticksLeft)
  | .control => !x.reads.isEmpty || x.mayGoOn

/-- An audio block may begin: none is under way, and no STOP ... START sequence is under way or waits for the boundary
(43_host_driver.md R224). -/
def Session.blockMayBegin (x : Session) : Bool :=
  decide (x.ticksLeft = 0) &&
    match x.todo with
    | [] => true
    | a :: _ =>
      match a.place with
      | .anywhere => true
      | .atBoundary => false
      | .inSequence => false
      | .afterTick => true

/-- The procedure's next command is issued. -/
def Session.goOn (x : Session) : Session :=
  match x.todo with
  | [] => x
  | a :: rest => { x with call := (a.issue x.call).1, todo := (a.issue x.call).2 ++ rest, ticked := false }

/-- A register is read: the block answers it, and the procedure under way stays where it is (43_host_driver.md R227). -/
def Session.read (x : Session) (r : Reg) : Session :=
  { x with
    call := { x.call with block := execAll [readNamed r] x.call.block }
    answers := x.answers ++ responsesOf [readNamed r] x.call.block }

/-- A thread's next command is accepted: of the control thread, a read before its procedure's command. -/
def Session.accept (x : Session) : Thread → Session
  | .audio => { x with call := x.call.tick, ticksLeft := x.ticksLeft - 1, ticked := true }
  | .control =>
    match x.reads with
    | [] => x.goOn
    | r :: rest => { x.read r with reads := rest }

/-- What the reads of a session return to their caller (43_host_driver.md R229). -/
def Session.readErrors (x : Session) : List HostError := x.answers.filterMap errorOf

/-- What happens next in a session: the control thread calls a procedure, or is to read a register, for visualisation or to
poll (43_host_driver.md R227, R229), an audio block falls due, or the arbiter grants a thread its next command. When each
happens, and which thread is granted, is not the model's to fix (20_memory.md R71; log
entry 15). -/
inductive Event (cfg : Config) where
  | call (q : Procedure cfg)
  | read (r : Reg)
  | beginBlock
  | grant (t : Thread)

/-- The session after an event, none where the host's rules exclude it. A call waits for the one before it; a read waits for
none. A grant goes to
a thread that waits, and to the thread owed one, so that no thread waits beyond one command of the other (43_host_driver.md
R224); and it does not run the block on unwritten tables (70_reset_and_hazards.md R253). -/
def Session.react (hm : HostMath) {cfg : Config} (x : Session) : Event cfg → Option Session
  | .call q =>
    if x.todo.isEmpty = true ∧ x.call.block.cfg = cfg ∧
        q.allowed x.call.host.params x.call.block.gains.out = true then
      let plan := q.plan hm x.call.host.params
      some { x with
        call := { Call.begin x.call.host x.call.block with rejected := plan.rejected }, todo := plan.actions
        ticked := false }
    else none
  | .read r => some { x with reads := x.reads ++ [r] }
  | .beginBlock => if x.blockMayBegin then some { x with ticksLeft := x.call.host.params.blockSize } else none
  | .grant t =>
    if x.waits t = true ∧ x.owed ≠ some t.other ∧ (x.accept t).call.block.bootHeld = true then
      some { x.accept t with owed := if x.waits t.other then some t.other else none }
    else none

/-- The session after a list of events, none where one of them is excluded. -/
def Session.run (hm : HostMath) {cfg : Config} (x : Session) : List (Event cfg) → Option Session
  | [] => some x
  | e :: es =>
    match x.react hm e with
    | none => none
    | some y => y.run hm es

end Sys2Proof.Machine
end

