-- ==== Sys2Proof/Safety.lean ====
section
/-! DEFINITION. What the claims speak of: the invariants of the spec's states, canonical NaNs and silent states. -/

namespace Sys2Proof.Machine

/-- The invariant of every state a run reaches: the registers and tables stay in their ranges. -/
structure State.Inv (s : State) : Prop where
  /-- The parameters are legal (00_scope.md R4). -/
  legal : s.cfg.Legal
  /-- There are MAX_BANDS band slots (10_state.md R20). -/
  slots : s.bands.length = s.cfg.maxBands
  /-- NUM_BANDS is at most MAX_BANDS (10_state.md R28). -/
  numBands : s.numBands.toNat ≤ s.cfg.maxBands
  /-- NOISE_LEN is in 1..2^NOISE_LOG2 (10_state.md R29). -/
  noiseLen : 1 ≤ s.noiseLen.toNat ∧ s.noiseLen.toNat ≤ 2 ^ s.cfg.noiseLog2
  /-- While RUN = 1 there is an active band (10_state.md R49). -/
  active : s.status.run = true → 1 ≤ s.numBands.toNat
  /-- While RUN = 1 the noise position is below NOISE_LEN (10_state.md R50). -/
  noiseIdx : s.status.run = true → s.noiseIdx.toNat < s.noiseLen.toNat
  /-- Every table has its canonical form, within its depth (20_memory.md R60). -/
  tables : ∀ t, tableWf (depth s.cfg t) (s.table t) = true

/-- A binary64 datum that, if a NaN, is the canonical one (40_numerics.md R104). -/
abbrev CanonicalF64 (d : F64) : Prop := isNaN d = true → d = canonicalNaN

/-- Every word of a history is canonical (42_tick.md R153). -/
abbrev CanonicalHistory (h : History) : Prop :=
  CanonicalF64 h.x1 ∧ CanonicalF64 h.x2 ∧ CanonicalF64 h.y1 ∧ CanonicalF64 h.y2

/-- Every history of a band slot, and its ENV, is canonical. -/
abbrev CanonicalBand (b : Band) : Prop :=
  (CanonicalHistory b.ha1 ∧ CanonicalHistory b.ha2 ∧ CanonicalHistory b.hs1 ∧ CanonicalHistory b.hs2 ∧
    CanonicalHistory b.he) ∧ (isNaN32 b.env = true → b.env = canonicalNaN32)

/-- Every NaN the block has produced is canonical (40_numerics.md R104; 42_tick.md R153). -/
abbrev State.CanonicalNaNs (s : State) : Prop :=
  (∀ b, b ∈ s.bands → CanonicalBand b) ∧ CanonicalHistory s.hair

/-- A zero of either sign, or a NaN. -/
abbrev ZeroOrNaN (d : F64) : Prop := isZero d = true ∨ isNaN d = true

/-- A history of zeros and NaNs. -/
abbrev SilentHistory (h : History) : Prop :=
  ZeroOrNaN h.x1 ∧ ZeroOrNaN h.x2 ∧ ZeroOrNaN h.y1 ∧ ZeroOrNaN h.y2

/-- A state in which no sound of the modulator is left in the analysis chains or the air band (42_tick.md R179). -/
abbrev State.Silent (s : State) : Prop :=
  (∀ b, b ∈ s.bands → SilentHistory b.ha1 ∧ SilentHistory b.ha2 ∧ SilentHistory b.he) ∧ SilentHistory s.hair

/-- A history of finite values (40_numerics.md R115). -/
abbrev FiniteHistory (h : History) : Prop := IsFinite h.x1 ∧ IsFinite h.x2 ∧ IsFinite h.y1 ∧ IsFinite h.y2

/-- The register exists in the instance (30_encoding.md R84). -/
def Reg.mapped (cfg : Config) : Reg → Bool
  | .band b _ => decide (b < cfg.maxBands)
  | _ => true

/-- An address that 10_state.md R41 lists as reserved. -/
abbrev ReservedAddress (cfg : Config) (a : Nat) : Prop :=
  (0x000A ≤ a ∧ a ≤ 0x000F) ∨ (0x001A ≤ a ∧ a ≤ 0x001F) ∨ (0x002A ≤ a ∧ a ≤ 0x002F) ∨ (0x003A ≤ a ∧ a ≤ 0x00FF) ∨
    (0x0100 ≤ a ∧ a < 0x0100 + 16 * cfg.maxBands ∧ 13 ≤ a % 16) ∨ (0x0100 + 16 * cfg.maxBands ≤ a ∧ a ≤ 0xFFFF)

/-- Everything but the registers a WRREG may name and the response is the same in two states: the histories, the
phases, the counters, the tables and the host's pins. -/
structure SameBeyondRegisters (s t : State) : Prop where
  cfg : t.cfg = s.cfg
  slots : t.bands.length = s.bands.length
  histories : ∀ b, (t.band b).ha1 = (s.band b).ha1 ∧ (t.band b).ha2 = (s.band b).ha2 ∧
    (t.band b).hs1 = (s.band b).hs1 ∧ (t.band b).hs2 = (s.band b).hs2 ∧ (t.band b).he = (s.band b).he
  hair : t.hair = s.hair
  tables : ∀ x i, memRead t x i = memRead s x i
  fill : t.tableFill = s.tableFill
  pins : t.offered = s.offered ∧ t.rspReady = s.rspReady ∧ t.rst = s.rst

/-- `d` is the roundTiesToEven to binary64 of the real `r * 2^-k` units of 2^-1074 (40_numerics.md R101): finite, no
finite value nearer, and of even fraction where another is as near. -/
abbrev IsNearestEven64 (d : F64) (r : Int) (k : Nat) : Prop :=
  isNaN d = false ∧ isInf d = false ∧
    ∀ e : F64, isNaN e = false → isInf e = false →
      (units d * 2 ^ k - r).natAbs ≤ (units e * 2 ^ k - r).natAbs ∧
        ((units d * 2 ^ k - r).natAbs = (units e * 2 ^ k - r).natAbs → units e ≠ units d → fracField d % 2 = 0)

/-- `w` is the roundTiesToEven to binary32 of the real `r * 2^-k` units of 2^-149 (40_numerics.md R101). -/
abbrev IsNearestEven32 (w : Word) (r : Int) (k : Nat) : Prop :=
  isNaN32 w = false ∧ isInf32 w = false ∧
    ∀ v : Word, isNaN32 v = false → isInf32 v = false →
      (units32 w * 2 ^ k - r).natAbs ≤ (units32 v * 2 ^ k - r).natAbs ∧
        ((units32 w * 2 ^ k - r).natAbs = (units32 v * 2 ^ k - r).natAbs → units32 v ≠ units32 w →
          fracField32 w % 2 = 0)

/-- The magnitude from which binary64 rounding gives an infinity, in units of 2^-1074: 2^1024 - 2^970 (40_numerics.md
R101). -/
def overflow64 : Nat := (2 ^ 1024 - 2 ^ 970) * 2 ^ 1074

/-- The magnitude from which binary32 rounding gives an infinity, in units of 2^-149: 2^128 - 2^103 (R101). -/
def overflow32 : Nat := (2 ^ 128 - 2 ^ 103) * 2 ^ 149

/-- The signed number of sign `neg` and magnitude `n`. -/
def signed (neg : Bool) (n : Nat) : Int := if neg then -(n : Int) else n

/-- The registers that WRREG writes whole at any time (10_state.md R44): the gains and OSC_PINC. -/
def Reg.plainRw : Reg → Bool
  | .gain _ => true
  | .oscPinc => true
  | _ => false

/-- The run-locked registers that WRREG writes whole (10_state.md R44): every coefficient half and HET_PINC. -/
def Reg.plainLocked : Reg → Bool
  | .envlp _ => true
  | .air _ => true
  | .band _ (.bp _) => true
  | .band _ .hetPinc => true
  | _ => false

/-- The read-only registers (10_state.md R44; 60_exceptions.md R231). -/
def Reg.readOnly : Reg → Bool
  | .id => true
  | .params => true
  | .sampleCnt => true
  | .oscPhase => true
  | .noiseIdx => true
  | .band _ .hetPhase => true
  | .band _ .env => true
  | _ => false

end Sys2Proof.Machine
end

