-- ==== Sys2Proof/Certificates/Slice0/Obligations.lean ====
section
/-! DEFINITION. The statements for the provers. Each docstring names the rules of
spec/ that the statement rests on. -/

open Sys2Proof Sys2Proof.Machine

/-! ### Decoding and encoding -/

/-- Decoding the encoding of a well-formed command gives it back (30_encoding.md R81-R83, R86, R92). -/
def Obligations.DecodeOfEncodeIsTheCommand : Prop :=
  ∀ i : Instr, i.wellFormed = true → decode (encode i) = .ok i

/-- A triple of words that decodes decodes to a well-formed command, whose encoding has the same command word: no bit
of a command word is dropped (30_encoding.md R81-R83, R89). -/
def Obligations.EncodeOfDecodeIsTheWord : Prop :=
  ∀ (c : Command) (i : Instr), decode c = .ok i → i.wellFormed = true ∧ (encode i).cmd = c.cmd

/-- The decoder is the opcode map: a word decodes to a mnemonic exactly when it selects that mnemonic's row, and it
selects at most one (30_encoding.md R87). -/
def Obligations.DecodeFollowsTheOpcodeMap : Prop :=
  (∀ c : Command, ∀ r ∈ opcodeRows,
    r.selects c.cmd = true ↔ ∃ i, decode c = .ok i ∧ i.mnemonic = r.mnemonic) ∧
  (∀ w : Word, ∀ r ∈ opcodeRows, ∀ r' ∈ opcodeRows, r.selects w = true → r'.selects w = true → r = r')

/-- Words written out from the encoding tables decode to their commands (30_encoding.md R87, R92). -/
def Obligations.WrittenOutWordsDecode : Prop :=
  decode ⟨0x00000000, 0, 0⟩ = .ok .nop ∧
  decode ⟨0x1000010C, 0, 0⟩ = .ok (.rdreg 0x010C) ∧
  decode ⟨0x20000101, 0x3FF00000, 0⟩ = .ok (.wrreg 0x0101 0x3FF00000) ∧
  decode ⟨0x32000003, 0, 0⟩ = .ok (.rdtab 2 3) ∧
  decode ⟨0x41000001, 0x3F000000, 0⟩ = .ok (.wrtab 1 1 0x3F000000) ∧
  decode ⟨0x50000000, 0, 0⟩ = .ok .start ∧
  decode ⟨0x60000000, 0, 0⟩ = .ok .stop ∧
  decode ⟨0x70000000, 0x3F000000, 0xBE800000⟩ = .ok (.tick 0x3F000000 0xBE800000) ∧
  decode ⟨0x80000000, 0, 0⟩ = .error .reservedOpcode ∧
  decode ⟨0x10010003, 0, 0⟩ = .error .nonzeroZeroField

/-! ### The step -/

/-- When the block accepts a command whose words decode, the step is `exec` of that command, the command taken off the
channel and the earlier response with it (30_encoding.md R80; 41_commands.md R120). -/
def Obligations.StepRunsTheDecodedCommand : Prop :=
  ∀ (s : State) (c : Command) (rest : List Command) (i : Instr), s.rst = false →
    (s.rsp = none ∨ s.rspReady = true) → s.offered = c :: rest → decode c = .ok i →
      step s = exec i { s with rsp := none, offered := rest }

/-- An illegal command word, of reserved OP or with a nonzero ZERO field, performs nothing and ends with ERR_OPC: datum
0, E_OPC set, nothing else changed (30_encoding.md R88, R89). -/
def Obligations.IllegalWordsEndWithErrOpc : Prop :=
  ∀ (s : State) (c : Command) (rest : List Command), s.rst = false → (s.rsp = none ∨ s.rspReady = true) →
    s.offered = c :: rest →
    (8 ≤ c.cmd.toNat / 2 ^ 28 ∨
      ((c.cmd.toNat / 2 ^ 28 = 0 ∨ c.cmd.toNat / 2 ^ 28 = 5 ∨ c.cmd.toNat / 2 ^ 28 = 6 ∨ c.cmd.toNat / 2 ^ 28 = 7) ∧
        c.cmd.toNat % 2 ^ 28 ≠ 0) ∨
      ((c.cmd.toNat / 2 ^ 28 = 1 ∨ c.cmd.toNat / 2 ^ 28 = 2) ∧ c.cmd.toNat % 2 ^ 28 / 2 ^ 16 ≠ 0)) →
    step s = .next { s with
      offered := rest, status := { s.status with eOpc := true }, rsp := some ⟨0, .err .opc⟩ }

/-- With rst = 1 the step leaves every register and history at its reset value, no response, and the parameters and
the host's pins as they were (70_reset_and_hazards.md R250; 10_state.md R46). The table words are not stated. -/
def Obligations.ResetInputRestoresResetValues : Prop :=
  ∀ s : State, s.rst = true → ∃ t, step s = .next t ∧
    (∀ r : Reg, t.readReg r = (State.resetOf s.cfg).readReg r) ∧ t.status = Status.reset ∧
    t.bands = List.replicate s.cfg.maxBands Band.reset ∧ t.hair = History.zero ∧ t.cfg = s.cfg ∧ t.rsp = none ∧
    t.offered = s.offered ∧ t.rspReady = s.rspReady ∧ t.rst = true

/-- The registers and histories right after reset, for every instance (10_state.md R46). -/
def Obligations.ResetValuesOfEveryRegister : Prop :=
  ∀ cfg : Config, cfg.Legal →
    let s := State.resetOf cfg
    s.readReg .id = 0x564F4331 ∧ s.readReg .params = paramsWord cfg ∧ s.readReg .ctrl = 0 ∧ s.readReg .status = 0 ∧
    s.readReg .numBands = 0 ∧ (s.readReg .noiseLen).toNat = 2 ^ cfg.noiseLog2 ∧ s.readReg .sampleCnt = 0 ∧
    s.readReg .oscPinc = 0 ∧ s.readReg .oscPhase = 0 ∧ s.readReg .noiseIdx = 0 ∧
    s.readReg (.gain .ana) = 0x41000000 ∧ s.readReg (.gain .het) = 0x40000000 ∧
    s.readReg (.gain .env) = 0x3F800000 ∧ s.readReg (.gain .syn) = 0x3F800000 ∧
    s.readReg (.gain .noise) = 0x3DCCCCCD ∧ s.readReg (.gain .osc) = 0x3F800000 ∧
    s.readReg (.gain .boost) = 0x3F800000 ∧ s.readReg (.gain .sample) = 0 ∧ s.readReg (.gain .air) = 0 ∧
    s.readReg (.gain .out) = 0x3F800000 ∧
    (∀ h, s.readReg (.envlp h) = 0 ∧ s.readReg (.air h) = 0) ∧ (∀ b r, s.readReg (.band b r) = 0) ∧
    (∀ b, b ∈ s.bands → b.ha1 = ⟨0, 0, 0, 0⟩ ∧ b.ha2 = ⟨0, 0, 0, 0⟩ ∧ b.hs1 = ⟨0, 0, 0, 0⟩ ∧ b.hs2 = ⟨0, 0, 0, 0⟩ ∧
      b.he = ⟨0, 0, 0, 0⟩) ∧ s.hair = ⟨0, 0, 0, 0⟩ ∧ s.bands.length = cfg.maxBands

/-- A response the host does not take stalls the block, with no state change (70_reset_and_hazards.md R259); with no
command offered the block waits, giving up a response that the host takes (R252). The model's choice of when to accept
is log entry 5. -/
def Obligations.ChannelStallsAndWaits : Prop :=
  ∀ s : State, s.rst = false →
    (∀ r, s.rsp = some r → s.rspReady = false → step s = .next s) ∧
    (s.offered = [] → (s.rsp = none ∨ s.rspReady = true) → step s = .next { s with rsp := none })

/-- No state is without a next state: nothing stops the block (60_exceptions.md R232, 42_tick.md R177). -/
def Obligations.EveryStepHasANextState : Prop :=
  ∀ s : State, ∃ t, step s = .next t

/-! ### Responses and errors -/

/-- A command that ends with error code k sets bit k of STATUS, responds datum 0 with that status, and changes nothing
else; every command gives one response (60_exceptions.md R230, R232; 30_encoding.md R80). -/
def Obligations.ErrorsLeaveOnlyTheirStickyBit : Prop :=
  (∀ (c : Command) (s t : State), perform c s = .next t → ∃ r, t.rsp = some r ∧
    ∀ e, r.status = .err e →
      r.data = 0 ∧ t = { s with status := s.status.setError e, rsp := some ⟨0, .err e⟩ }) ∧
  (∀ (st : Status) (e : ErrCode), (st.setError e).word = st.word ||| (1#32 <<< e.number))

/-- The priority of errors, on the examples of 60_exceptions.md R233, in every running state of an instance with two
band slots. -/
def Obligations.ErrorPriorityExamples : Prop :=
  ∀ s : State, s.status.run = true → s.cfg.maxBands = 2 →
    exec (.wrreg 0x0120 0) s = .next (raiseError .addr s) ∧
    exec (.wrreg 0x0006 0) s = .next (raiseError .ro s) ∧
    exec (.wrreg 0x0004 0) s = .next (raiseError .busy s) ∧
    exec (.wrtab 3 0 0) s = .next (raiseError .addr s) ∧
    perform ⟨0x20010004, 0, 0⟩ s = .next (raiseError .opc s)

/-- RUN changes only by a START, which sets it, or a STOP, which clears it (10_state.md R26, R48). -/
def Obligations.RunChangesOnlyByStartAndStop : Prop :=
  ∀ (c : Command) (s t : State), perform c s = .next t → t.status.run ≠ s.status.run →
    (decode c = .ok .start ∧ t.status.run = true) ∨ (decode c = .ok .stop ∧ t.status.run = false)

/-- A sticky bit of STATUS is cleared by no command but a WRREG to STATUS that writes a 1 to it (10_state.md R26). -/
def Obligations.StickyBitsAreClearedOnlyByStatusWrites : Prop :=
  ∀ (c : Command) (s t : State) (k : Nat), perform c s = .next t → 1 ≤ k → k ≤ 7 →
    s.status.word.getLsbD k = true → t.status.word.getLsbD k = false →
      ∃ w : Word, decode c = .ok (.wrreg 0x0003 w) ∧ w.getLsbD k = true

/-- NAN_OUT and CLIP_OUT are set by no command but a TICK while RUN = 1, and one TICK sets at most one of them
(60_exceptions.md R234; 10_state.md R26). -/
def Obligations.GuardFlagsAreSetOnlyByTicks : Prop :=
  ∀ (c : Command) (s t : State), perform c s = .next t →
    (t.status.nanOut = true ∧ s.status.nanOut = false) ∨ (t.status.clipOut = true ∧ s.status.clipOut = false) →
      s.status.run = true ∧ (∃ m x, decode c = .ok (.tick m x)) ∧
        ¬((t.status.nanOut = true ∧ s.status.nanOut = false) ∧ (t.status.clipOut = true ∧ s.status.clipOut = false))

/-! ### Register commands -/

/-- RDREG of the address of any register the instance has responds that register's value and changes nothing else, and
each register's value is its own piece of the state: STATUS reads RUN in bit 0, E_OPC, E_ADDR, E_RO, E_BUSY, E_CFG, NAN_OUT
and CLIP_OUT in bits 1 to 7 and 0 above, CTRL reads OSC_SEL in bit 0 and 0 above, and the HI and LO registers of a
coefficient are its binary64 datum's halves (41_commands.md R122; 10_state.md R25, R26, R28-R40; 30_encoding.md R84;
20_memory.md R67). ID and PARAMS are those of ParamsReportTheInstanceAndNeverChange. -/
def Obligations.RdregRespondsTheRegister : Prop :=
  (∀ (s : State) (r : Reg), r.mapped s.cfg = true →
    exec (.rdreg r.address) s = .next { s with rsp := some ⟨s.readReg r, .ok⟩ }) ∧
  (∀ s : State,
    let st := s.readReg .status
    let coef := fun (reg : CoefHalf → Reg) (c : Coef) => s.readReg (reg ⟨c, true⟩) ++ s.readReg (reg ⟨c, false⟩)
    (st.getLsbD 0 = s.status.run ∧ st.getLsbD 1 = s.status.eOpc ∧ st.getLsbD 2 = s.status.eAddr ∧
      st.getLsbD 3 = s.status.eRo ∧ st.getLsbD 4 = s.status.eBusy ∧ st.getLsbD 5 = s.status.eCfg ∧
      st.getLsbD 6 = s.status.nanOut ∧ st.getLsbD 7 = s.status.clipOut ∧ ∀ k, 8 ≤ k → st.getLsbD k = false) ∧
    (s.readReg .ctrl = (if s.oscSel then 1 else 0) ∧ s.readReg .numBands = s.numBands ∧
      s.readReg .noiseLen = s.noiseLen ∧ s.readReg .sampleCnt = s.sampleCnt ∧ s.readReg .oscPinc = s.oscPinc ∧
      s.readReg .oscPhase = s.oscPhase ∧ s.readReg .noiseIdx = s.noiseIdx) ∧
    (s.readReg (.gain .ana) = s.gains.ana ∧ s.readReg (.gain .het) = s.gains.het ∧
      s.readReg (.gain .env) = s.gains.env ∧ s.readReg (.gain .syn) = s.gains.syn ∧
      s.readReg (.gain .noise) = s.gains.noise ∧ s.readReg (.gain .osc) = s.gains.osc ∧
      s.readReg (.gain .boost) = s.gains.boost ∧ s.readReg (.gain .sample) = s.gains.sample ∧
      s.readReg (.gain .air) = s.gains.air ∧ s.readReg (.gain .out) = s.gains.out) ∧
    (coef .envlp .b0 = s.envlp.b0.value ∧ coef .envlp .b1 = s.envlp.b1.value ∧ coef .envlp .b2 = s.envlp.b2.value ∧
      coef .envlp .a1 = s.envlp.a1.value ∧ coef .envlp .a2 = s.envlp.a2.value) ∧
    (coef .air .b0 = s.air.b0.value ∧ coef .air .b1 = s.air.b1.value ∧ coef .air .b2 = s.air.b2.value ∧
      coef .air .a1 = s.air.a1.value ∧ coef .air .a2 = s.air.a2.value) ∧
    (∀ b, let bp := fun h => Reg.band b (.bp h)
      coef bp .b0 = (s.band b).bp.b0.value ∧ coef bp .b1 = (s.band b).bp.b1.value ∧
      coef bp .b2 = (s.band b).bp.b2.value ∧ coef bp .a1 = (s.band b).bp.a1.value ∧
      coef bp .a2 = (s.band b).bp.a2.value ∧ s.readReg (.band b .hetPinc) = (s.band b).hetPinc ∧
      s.readReg (.band b .hetPhase) = (s.band b).hetPhase ∧ s.readReg (.band b .env) = (s.band b).env))

/-- RDREG and WRREG of a reserved address end with ERR_ADDR, in every state (10_state.md R41). -/
def Obligations.ReservedAddressesEndWithErrAddr : Prop :=
  ∀ (s : State) (a : Nat) (w : Word), ReservedAddress s.cfg a →
    exec (.rdreg a) s =
      .next { s with status := { s.status with eAddr := true }, rsp := some ⟨0, .err .addr⟩ } ∧
    exec (.wrreg a w) s =
      .next { s with status := { s.status with eAddr := true }, rsp := some ⟨0, .err .addr⟩ }

/-- Every address of the 16-bit register space is reserved or is the address of exactly one register of the instance,
and the registers stand at the numbers of the register map: the global registers and the gains from ID at 0x0000 to
OUT_GAIN at 0x0019, the ten halves of ENVLP and AIR from 0x0020 and 0x0030 on, each band slot's from 0x0100 + 16 * b on
(10_state.md sections 3.1 and 3.2, R34-R37, R41, R44; 30_encoding.md R84). -/
def Obligations.EveryAddressIsReservedOrOneRegister : Prop :=
  (∀ (cfg : Config) (a : Nat), a ≤ 0xFFFF →
    (ReservedAddress cfg a ∧ ∀ r : Reg, r.mapped cfg = true → r.address ≠ a) ∨
      (¬ReservedAddress cfg a ∧ ∃ r : Reg, r.mapped cfg = true ∧ r.address = a ∧
        ∀ r' : Reg, r'.mapped cfg = true → r'.address = a → r' = r)) ∧
  (Reg.id.address = 0x0000 ∧ Reg.params.address = 0x0001 ∧ Reg.ctrl.address = 0x0002 ∧ Reg.status.address = 0x0003 ∧
    Reg.numBands.address = 0x0004 ∧ Reg.noiseLen.address = 0x0005 ∧ Reg.sampleCnt.address = 0x0006 ∧
    Reg.oscPinc.address = 0x0007 ∧ Reg.oscPhase.address = 0x0008 ∧ Reg.noiseIdx.address = 0x0009) ∧
  ((Reg.gain .ana).address = 0x0010 ∧ (Reg.gain .het).address = 0x0011 ∧ (Reg.gain .env).address = 0x0012 ∧
    (Reg.gain .syn).address = 0x0013 ∧ (Reg.gain .noise).address = 0x0014 ∧ (Reg.gain .osc).address = 0x0015 ∧
    (Reg.gain .boost).address = 0x0016 ∧ (Reg.gain .sample).address = 0x0017 ∧ (Reg.gain .air).address = 0x0018 ∧
    (Reg.gain .out).address = 0x0019) ∧
  (∀ (k : Nat) (h : CoefHalf),
    [⟨.b0, false⟩, ⟨.b0, true⟩, ⟨.b1, false⟩, ⟨.b1, true⟩, ⟨.b2, false⟩, ⟨.b2, true⟩, ⟨.a1, false⟩, ⟨.a1, true⟩,
      ⟨.a2, false⟩, ⟨.a2, true⟩][k]? = some h →
    (Reg.envlp h).address = 0x0020 + k ∧ (Reg.air h).address = 0x0030 + k ∧
      ∀ b, (Reg.band b (.bp h)).address = 0x0100 + 16 * b + k) ∧
  (∀ b, (Reg.band b .hetPinc).address = 0x0100 + 16 * b + 10 ∧ (Reg.band b .hetPhase).address = 0x0100 + 16 * b + 11 ∧
    (Reg.band b .env).address = 0x0100 + 16 * b + 12)

/-- WRREG of a read-only register ends with ERR_RO whatever the run state and the word (60_exceptions.md R231). -/
def Obligations.ReadOnlyWritesEndWithErrRo : Prop :=
  ∀ (s : State) (r : Reg) (w : Word), r.mapped s.cfg = true → r.readOnly = true →
    exec (.wrreg r.address w) s =
      .next { s with status := { s.status with eRo := true }, rsp := some ⟨0, .err .ro⟩ }

/-- While RUN = 1, WRREG of a run-locked register ends with ERR_BUSY whatever the word, and writes nothing
(10_state.md R44; 60_exceptions.md R231). -/
def Obligations.LockedWritesEndWithErrBusy : Prop :=
  ∀ (s : State) (r : Reg) (w : Word), r.mapped s.cfg = true →
    (r.plainLocked = true ∨ r = .numBands ∨ r = .noiseLen) → s.status.run = true →
      exec (.wrreg r.address w) s =
        .next { s with status := { s.status with eBusy := true }, rsp := some ⟨0, .err .busy⟩ }

/-- WRREG of a gain or OSC_PINC at any time, and of a coefficient half or HET_PINC while RUN = 0, stores any word
unchanged, leaves every other register as it was, and touches no history, table, parameter or pin (41_commands.md R124;
10_state.md R45). -/
def Obligations.WrregStoresTheWord : Prop :=
  ∀ (s : State) (r : Reg) (w : Word), r.mapped s.cfg = true → s.bands.length = s.cfg.maxBands →
    (r.plainRw = true ∨ (r.plainLocked = true ∧ s.status.run = false)) →
      ∃ t, exec (.wrreg r.address w) s = .next t ∧ t.rsp = some ⟨0, .ok⟩ ∧ t.readReg r = w ∧
        (∀ r', r' ≠ r → t.readReg r' = s.readReg r') ∧ SameBeyondRegisters s t

/-- WRREG to STATUS clears each sticky bit whose bit is written 1 and changes nothing else; RUN is not written
(41_commands.md R125). -/
def Obligations.StatusWriteIsWriteOneToClear : Prop :=
  ∀ (s : State) (w : Word), ∃ t, exec (.wrreg 0x0003 w) s = .next t ∧
    t = { s with status := t.status, rsp := some ⟨0, .ok⟩ } ∧
    t.status.word = s.status.word &&& ~~~(w &&& 0x000000FE) ∧ t.status.run = s.status.run

/-- WRREG to CTRL keeps bit 0 of the word as OSC_SEL and discards the others, in either run state (41_commands.md
R126). -/
def Obligations.CtrlWriteKeepsBitZero : Prop :=
  ∀ (s : State) (w : Word), ∃ t, exec (.wrreg 0x0002 w) s = .next t ∧
    t = { s with oscSel := w.getLsbD 0, rsp := some ⟨0, .ok⟩ } ∧ t.readReg .ctrl = w &&& 1

/-- WRREG to NUM_BANDS stores a word in 1..MAX_BANDS, and WRREG to NOISE_LEN a word in 1..2^NOISE_LOG2, while RUN = 0;
any other word then ends with ERR_CFG, and any word at all with ERR_BUSY while RUN = 1, the prior value kept
(41_commands.md R127, R128). -/
def Obligations.CheckedWritesStoreOnlyLegalWords : Prop :=
  ∀ (s : State) (w : Word),
    (s.status.run = true → ∀ a, (a = 0x0004 ∨ a = 0x0005) →
      exec (.wrreg a w) s =
        .next { s with status := { s.status with eBusy := true }, rsp := some ⟨0, .err .busy⟩ }) ∧
    (s.status.run = false →
      (1 ≤ w.toNat ∧ w.toNat ≤ s.cfg.maxBands →
        exec (.wrreg 0x0004 w) s = .next { s with numBands := w, rsp := some ⟨0, .ok⟩ }) ∧
      (w.toNat < 1 ∨ s.cfg.maxBands < w.toNat →
        exec (.wrreg 0x0004 w) s =
          .next { s with status := { s.status with eCfg := true }, rsp := some ⟨0, .err .cfg⟩ }) ∧
      (1 ≤ w.toNat ∧ w.toNat ≤ 2 ^ s.cfg.noiseLog2 →
        exec (.wrreg 0x0005 w) s = .next { s with noiseLen := w, rsp := some ⟨0, .ok⟩ }) ∧
      (w.toNat < 1 ∨ 2 ^ s.cfg.noiseLog2 < w.toNat →
        exec (.wrreg 0x0005 w) s =
          .next { s with status := { s.status with eCfg := true }, rsp := some ⟨0, .err .cfg⟩ }))

/-- Of two writes to one RW register, gain, OSC_PINC or CTRL, the later alone is seen (20_memory.md R76). -/
def Obligations.LaterRwWriteReplacesEarlier : Prop :=
  ∀ (s t : State) (r : Reg) (v w : Word), (r.plainRw = true ∨ r = .ctrl) →
    exec (.wrreg r.address v) s = .next t → exec (.wrreg r.address w) t = exec (.wrreg r.address w) s

/-- PARAMS and ID never change, and PARAMS reports the four parameters in its four bytes (10_state.md R23, R24). -/
def Obligations.ParamsReportTheInstanceAndNeverChange : Prop :=
  (∀ s : State, s.readReg .id = 0x564F4331) ∧
  (∀ s t : State, step s = .next t → t.readReg .params = s.readReg .params ∧ t.cfg = s.cfg) ∧
  paramsWord Config.standard = 0x110C0C20 ∧ paramsWord Config.small = 0x02020202 ∧
  (∀ s : State, s.cfg.Legal →
    (s.readReg .params).toNat % 2 ^ 8 = s.cfg.maxBands ∧
    (s.readReg .params).toNat / 2 ^ 8 % 2 ^ 8 = s.cfg.sineLog2 ∧
    (s.readReg .params).toNat / 2 ^ 16 % 2 ^ 8 = s.cfg.waveLog2 ∧
    (s.readReg .params).toNat / 2 ^ 24 = s.cfg.noiseLog2)

/-! ### Table commands -/

/-- RDTAB of an entry within the depth responds its word and changes nothing else, in either run state
(41_commands.md R129; 20_memory.md R67). -/
def Obligations.RdtabRespondsTheEntry : Prop :=
  ∀ (s : State) (t : TableId) (i : Nat), i < depth s.cfg t →
    exec (.rdtab (tabOf t) i) s = .next { s with rsp := some ⟨memRead s t i, .ok⟩ }

/-- WRTAB of an entry within the depth while RUN = 0 stores the word, leaves every other entry of every table, and
touches no register, history, parameter or pin (41_commands.md R130). -/
def Obligations.WrtabStoresTheWord : Prop :=
  ∀ (s : State) (t : TableId) (i : Nat) (w : Word), i < depth s.cfg t → s.status.run = false →
    ∃ u, exec (.wrtab (tabOf t) i w) s = .next u ∧ u.rsp = some ⟨0, .ok⟩ ∧ memRead u t i = w ∧
      (∀ x j, (x, j) ≠ (t, i) → memRead u x j = memRead s x j) ∧
      u = { s with sine := u.sine, wave := u.wave, noise := u.noise, rsp := some ⟨0, .ok⟩ }

/-- RDTAB and WRTAB with a TAB of 3..15 or an index at or beyond the depth end with ERR_ADDR in either run state;
within the depth, WRTAB while RUN = 1 ends with ERR_BUSY (41_commands.md R129, R130; 30_encoding.md R95). -/
def Obligations.TableErrors : Prop :=
  ∀ (s : State) (w : Word),
    (∀ tab i, 3 ≤ tab → tab ≤ 15 →
      exec (.rdtab tab i) s = .next (raiseError .addr s) ∧ exec (.wrtab tab i w) s = .next (raiseError .addr s)) ∧
    (∀ t i, depth s.cfg t ≤ i →
      exec (.rdtab (tabOf t) i) s = .next (raiseError .addr s) ∧
        exec (.wrtab (tabOf t) i w) s = .next (raiseError .addr s)) ∧
    (∀ t i, i < depth s.cfg t → s.status.run = true →
      exec (.wrtab (tabOf t) i w) s = .next (raiseError .busy s))

/-- No command but a WRTAB of that very entry changes a table entry, written or not; the word of an entry never
written is whatever it is (20_memory.md R62; 70_reset_and_hazards.md R251). -/
def Obligations.OnlyWrtabChangesATableEntry : Prop :=
  ∀ (c : Command) (s u : State) (t : TableId) (i : Nat), perform c s = .next u →
    (∀ w, decode c ≠ .ok (.wrtab (tabOf t) i w)) → memRead u t i = memRead s t i

/-! ### Control commands -/

/-- NOP responds 0 and changes nothing else, in every state (41_commands.md R121). -/
def Obligations.NopOnlyResponds : Prop :=
  ∀ s : State, exec .nop s = .next { s with rsp := some ⟨0, .ok⟩ }

/-- START with an active band clears every history, HET_PHASE and ENV of every slot, HAIR, OSC_PHASE, NOISE_IDX and
SAMPLE_CNT, sets RUN, keeps everything else and responds 0; with NUM_BANDS = 0 it ends with ERR_CFG and leaves RUN as it
was (41_commands.md R131). -/
def Obligations.StartClearsTheDynamicState : Prop :=
  (∀ s : State, s.numBands ≠ 0 → ∃ t, exec .start s = .next t ∧ t.bands.length = s.bands.length ∧
    (∀ b, b < s.bands.length →
      t.band b = { s.band b with
        ha1 := ⟨0, 0, 0, 0⟩, ha2 := ⟨0, 0, 0, 0⟩, hs1 := ⟨0, 0, 0, 0⟩, hs2 := ⟨0, 0, 0, 0⟩, he := ⟨0, 0, 0, 0⟩
        hetPhase := 0, env := 0 }) ∧
    t = { s with
      bands := t.bands, hair := ⟨0, 0, 0, 0⟩, oscPhase := 0, noiseIdx := 0, sampleCnt := 0
      status := { s.status with run := true }, rsp := some ⟨0, .ok⟩ }) ∧
  (∀ s : State, s.numBands = 0 →
    exec .start s = .next { s with status := { s.status with eCfg := true }, rsp := some ⟨0, .err .cfg⟩ })

/-- STOP clears RUN, keeps everything else and responds 0, in either run state (41_commands.md R132). -/
def Obligations.StopOnlyClearsRun : Prop :=
  ∀ s : State, exec .stop s =
    .next { s with status := { s.status with run := false }, rsp := some ⟨0, .ok⟩ }

/-- STOP then START ends as START alone, wherever a running block has an active band (30_encoding.md R93, 10_state.md
R49). -/
def Obligations.RestartIsStart : Prop :=
  ∀ s t : State, (s.status.run = true → s.numBands ≠ 0) → exec .stop s = .next t → exec .start t = exec .start s

/-- Every command but TICK is idempotent: performed again, it leaves the state it left (20_memory.md R67; 41_commands.md
R131, R132). -/
def Obligations.EveryCommandButTickIsIdempotent : Prop :=
  ∀ (i : Instr) (s t : State), (∀ m c, i ≠ .tick m c) → exec i s = .next t → exec i t = .next t

/-! ### TICK -/

/-- A TICK while RUN = 0 responds +0.0 with status OK and changes nothing else (42_tick.md R151). -/
def Obligations.IdleTickOnlyResponds : Prop :=
  ∀ (s : State) (m c : Word), s.status.run = false →
    exec (.tick m c) s = .next { s with rsp := some ⟨0, .ok⟩ }

/-- A TICK while RUN = 1 has a next state: its response is the guarded mixer result narrowed, the phase, the noise
position and the counter advance, the guard's flags are set, HAIR is the air section's next history, and every
configuration register, those of every band slot among them, every table, parameter and pin is kept (42_tick.md R152,
R173, R174, R176). What the rest of a slot becomes is said by RunningTickWorksEachLane. -/
def Obligations.RunningTickAdvancesTheBlock : Prop :=
  ∀ (s : State) (m c : Word), s.status.run = true → ∃ t, exec (.tick m c) s = .next t ∧
    t.rsp = some ⟨narrow (guardOut (mixerResult s m c)).out, .ok⟩ ∧
    t.oscPhase = s.oscPhase + s.oscPinc ∧
    t.noiseIdx = (if s.noiseIdx + 1 = s.noiseLen then 0 else s.noiseIdx + 1) ∧
    t.sampleCnt = s.sampleCnt + 1 ∧
    t.hair = (bq s.air s.hair (widen m)).hist ∧
    t.status = { s.status with
      nanOut := s.status.nanOut || isNaN (mixerResult s m c)
      clipOut := s.status.clipOut || (flt one64 (mixerResult s m c) || flt (mixerResult s m c) minusOne64) } ∧
    t.bands.length = s.bands.length ∧
    (∀ b, (t.band b).bp = (s.band b).bp ∧ (t.band b).hetPinc = (s.band b).hetPinc) ∧
    t = { s with
      bands := t.bands, hair := t.hair, oscPhase := t.oscPhase, noiseIdx := t.noiseIdx, sampleCnt := t.sampleCnt
      status := t.status, rsp := t.rsp }

/-- A TICK while RUN = 1 works each band lane on its own, by the formulas of the analysis and synthesis chains. For an
active slot: the modulator goes through the two sections of the analysis cascade, is multiplied by ANA_GAIN, the reference
of SINE at HET_PHASE and HET_GAIN, rectified, and goes through the envelope lowpass and ENV_GAIN; the carrier, the sum of
the noise, oscillator and sample terms, goes through the two sections of the synthesis cascade. Each history is its
section's next one, ENV is the envelope narrowed, HET_PHASE advances, and the rest of the slot is kept. No other slot has
influence on a slot, and the slots from NUM_BANDS on are kept whole (42_tick.md R155-R167, R174, R175, R178). -/
def Obligations.RunningTickWorksEachLane : Prop :=
  ∀ (s t : State) (m c : Word), s.status.run = true → exec (.tick m c) s = .next t →
    let noise := fmul (widen s.gains.noise) (widen (memRead s .noise s.noiseIdx.toNat))
    let osc := if s.oscSel then saw s.oscPhase
      else widen (memRead s .wave (phaseIndex s.oscPhase s.cfg.waveLog2))
    let carrier := fadd (fadd noise (fmul (fmul osc (widen s.gains.boost)) (widen s.gains.osc)))
      (fmul (widen s.gains.sample) (widen c))
    t.bands.length = s.bands.length ∧
    (∀ b, b < s.bands.length → b < s.numBands.toNat →
      let x := s.band b
      let a1 := bq x.bp x.ha1 (widen m)
      let a2 := bq x.bp x.ha2 a1.out
      let ref := widen (memRead s .sine (phaseIndex x.hetPhase s.cfg.sineLog2))
      let het := fmul (fmul (fmul a2.out (widen s.gains.ana)) ref) (widen s.gains.het)
      let low := bq s.envlp x.he (het &&& 0x7FFFFFFFFFFFFFFF)
      let s1 := bq x.bp x.hs1 carrier
      let s2 := bq x.bp x.hs2 s1.out
      t.band b = { x with
        ha1 := a1.hist, ha2 := a2.hist, he := low.hist, hs1 := s1.hist, hs2 := s2.hist
        env := narrow (fmul low.out (widen s.gains.env)), hetPhase := x.hetPhase + x.hetPinc }) ∧
    (∀ (a b : Nat) (x : Band) (u : State), a ≠ b →
      exec (.tick m c) { s with bands := s.bands.set a x } = .next u → u.band b = t.band b) ∧
    (∀ b, s.numBands.toNat ≤ b → t.band b = s.band b)

/-- The mixer adds the active bands' outputs in ascending order to +0.0, then the air term, and scales by OUT_GAIN. A
band's output is its synthesis cascade's, scaled by SYN_GAIN and multiplied by the binary64 envelope its analysis chain
gives in the same tick (42_tick.md R152, R155-R172). -/
def Obligations.MixerSumsInAscendingOrder : Prop :=
  ∀ (s : State) (m c : Word),
    let noise := fmul (widen s.gains.noise) (widen (memRead s .noise s.noiseIdx.toNat))
    let osc := if s.oscSel then saw s.oscPhase
      else widen (memRead s .wave (phaseIndex s.oscPhase s.cfg.waveLog2))
    let carrier := fadd (fadd noise (fmul (fmul osc (widen s.gains.boost)) (widen s.gains.osc)))
      (fmul (widen s.gains.sample) (widen c))
    let output := fun x : Band =>
      let filtered := (bq x.bp x.ha2 (bq x.bp x.ha1 (widen m)).out).out
      let ref := widen (memRead s .sine (phaseIndex x.hetPhase s.cfg.sineLog2))
      let het := fmul (fmul (fmul filtered (widen s.gains.ana)) ref) (widen s.gains.het)
      let envelope := fmul (bq s.envlp x.he (het &&& 0x7FFFFFFFFFFFFFFF)).out (widen s.gains.env)
      fmul (fmul (bq x.bp x.hs2 (bq x.bp x.hs1 carrier).out).out (widen s.gains.syn)) envelope
    mixerResult s m c =
      fmul (fadd (((s.bands.take s.numBands.toNat).map output).foldl fadd 0)
        (fmul (bq s.air s.hair (widen m)).out (widen s.gains.air))) (widen s.gains.out)

/-- TICK's response is OK and one binary32 sample in [-1.0, 1.0], never a NaN, in every state and for every input
(42_tick.md R176). -/
def Obligations.TickRespondsASampleInRange : Prop :=
  ∀ (s t : State) (m c : Word), exec (.tick m c) s = .next t → ∃ d, t.rsp = some ⟨d, .ok⟩ ∧ isNaN32 d = false ∧
    -(2 ^ 149 : Int) ≤ units32 d ∧ units32 d ≤ (2 ^ 149 : Int)

/-- The guard: a NaN gives +0.0, a value above 1.0 gives 1.0, one below -1.0 gives -1.0, any other passes unchanged
(42_tick.md R173). The bounds are compared as exact values: 1.0 is 2^1074 units. -/
def Obligations.GuardClampsToUnitRange : Prop :=
  ∀ y : F64,
    (isNaN y = true → guardOut y = ⟨0x0000000000000000, true, false⟩) ∧
    (isNaN y = false → (2 ^ 1074 : Int) < units y → guardOut y = ⟨0x3FF0000000000000, false, true⟩) ∧
    (isNaN y = false → units y < -(2 ^ 1074 : Int) → guardOut y = ⟨0xBFF0000000000000, false, true⟩) ∧
    (isNaN y = false → -(2 ^ 1074 : Int) ≤ units y → units y ≤ (2 ^ 1074 : Int) → guardOut y = ⟨y, false, false⟩)

/-- Silence in, silence out: from a state whose analysis and air histories hold only zeros and NaNs, a TICK with a zero
modulator responds a zero, -0.0 only when OUT_GAIN is negative and neither NaN nor infinite, whatever the carrier, the
tables and the coefficients, and leaves such a state (42_tick.md R179). -/
def Obligations.SilenceInSilenceOut : Prop :=
  ∀ (s t : State) (m c : Word), (m = 0x00000000 ∨ m = 0x80000000) → s.status.run = true → s.Silent →
    exec (.tick m c) s = .next t → t.Silent ∧
      (t.rsp = some ⟨0x00000000, .ok⟩ ∨
        (t.rsp = some ⟨0x80000000, .ok⟩ ∧ signBit32 s.gains.out = true ∧ isNaN32 s.gains.out = false ∧
          isInf32 s.gains.out = false))

/-- START leaves a silent state, and every command but a TICK keeps one, so the silence of R179 lasts from START on
(41_commands.md R131; 42_tick.md R179). -/
def Obligations.SilenceBeginsAtStartAndLasts : Prop :=
  (∀ s t : State, s.numBands ≠ 0 → exec .start s = .next t → t.Silent) ∧
  (∀ (i : Instr) (s t : State), s.Silent → (∀ m c, i ≠ .tick m c) → exec i s = .next t → t.Silent)

/-- The table entries a TICK reads are the SINE entry of each active band's HET_PHASE, the WAVE entry of OSC_PHASE unless
OSC_SEL = 1, and the NOISE entry of NOISE_IDX, which lies below NOISE_LEN: writing any other entry before the TICK or after
it is the same (20_memory.md R62; 41_commands.md R130; 42_tick.md R156-R158, R162). -/
def Obligations.UnselectedTableEntriesAreNotRead : Prop :=
  ∀ (s : State) (m c w : Word) (j : Nat), s.status.run = true → s.Inv →
    (j ≠ s.noiseIdx.toNat →
      exec (.tick m c) (memWrite s .noise j w) = .next (memWrite (tickRun m c s) .noise j w)) ∧
    (s.noiseLen.toNat ≤ j → j ≠ s.noiseIdx.toNat) ∧
    (s.oscSel = true → exec (.tick m c) (memWrite s .wave j w) = .next (memWrite (tickRun m c s) .wave j w)) ∧
    (s.oscSel = false → j ≠ (s.oscPhase.extractLsb' (32 - s.cfg.waveLog2) s.cfg.waveLog2).toNat →
      exec (.tick m c) (memWrite s .wave j w) = .next (memWrite (tickRun m c s) .wave j w)) ∧
    ((∀ b, b < s.numBands.toNat →
        j ≠ ((s.band b).hetPhase.extractLsb' (32 - s.cfg.sineLog2) s.cfg.sineLog2).toNat) →
      exec (.tick m c) (memWrite s .sine j w) = .next (memWrite (tickRun m c s) .sine j w))

/-- A slot from NUM_BANDS on has no influence on a TICK: changing it in any way before the TICK changes neither the
response, nor STATUS, nor any active slot (42_tick.md R175). -/
def Obligations.InactiveSlotsHaveNoInfluence : Prop :=
  ∀ (s t u : State) (m c : Word) (b : Nat) (x : Band), s.numBands.toNat ≤ b →
    exec (.tick m c) s = .next t → exec (.tick m c) { s with bands := s.bands.set b x } = .next u →
      u.rsp = t.rsp ∧ u.status = t.status ∧ u.hair = t.hair ∧
        ∀ a, a < s.numBands.toNat → u.band a = t.band a

/-- A section: its output is the recurrence, one rounded operation after another; its next history is its input and its
output before what it held; coefficients that are all zeros give a zero; one coefficient 1.0 beside zeros gives exactly the term it multiplies, negated for a1 and a2,
where that term is no zero; and a NaN in the input, the history or the coefficients makes the output the canonical NaN
and leaves a NaN in the history, so that every later output is NaN too (42_tick.md R153, R154). -/
def Obligations.SectionCornerCases : Prop :=
  ∀ (k : CoefSet) (h : History) (x : F64),
    let zero := fun p : Pair => isZero p.value = true
    let one := fun p : Pair => p.value = 0x3FF0000000000000
    (bq k h x).out = fsub (fsub (fadd (fadd (fmul k.b0.value x) (fmul k.b1.value h.x1)) (fmul k.b2.value h.x2))
      (fmul k.a1.value h.y1)) (fmul k.a2.value h.y2) ∧
    (bq k h x).hist = ⟨x, h.x1, (bq k h x).out, h.y1⟩ ∧
    (IsFinite x → FiniteHistory h →
      (zero k.b0 ∧ zero k.b1 ∧ zero k.b2 ∧ zero k.a1 ∧ zero k.a2 → isZero (bq k h x).out = true) ∧
      (one k.b0 ∧ zero k.b1 ∧ zero k.b2 ∧ zero k.a1 ∧ zero k.a2 →
        (isZero x = false → (bq k h x).out = x) ∧ (isZero x = true → isZero (bq k h x).out = true)) ∧
      (zero k.b0 ∧ one k.b1 ∧ zero k.b2 ∧ zero k.a1 ∧ zero k.a2 ∧ isZero h.x1 = false → (bq k h x).out = h.x1) ∧
      (zero k.b0 ∧ zero k.b1 ∧ one k.b2 ∧ zero k.a1 ∧ zero k.a2 ∧ isZero h.x2 = false → (bq k h x).out = h.x2) ∧
      (zero k.b0 ∧ zero k.b1 ∧ zero k.b2 ∧ one k.a1 ∧ zero k.a2 ∧ isZero h.y1 = false →
        (bq k h x).out = fneg h.y1) ∧
      (zero k.b0 ∧ zero k.b1 ∧ zero k.b2 ∧ zero k.a1 ∧ one k.a2 ∧ isZero h.y2 = false →
        (bq k h x).out = fneg h.y2)) ∧
    (isNaN x = true ∨ isNaN h.x1 = true ∨ isNaN h.x2 = true ∨ isNaN h.y1 = true ∨ isNaN h.y2 = true ∨
      isNaN k.b0.value = true ∨ isNaN k.b1.value = true ∨ isNaN k.b2.value = true ∨ isNaN k.a1.value = true ∨
      isNaN k.a2.value = true →
      (bq k h x).out = canonicalNaN ∧ isNaN (bq k h x).hist.y1 = true ∧
        ∀ z, isNaN (bq k (bq k h x).hist z).out = true)

/-! ### Invariants -/

/-- The state after reset meets the invariant, for every legal instance and for the default one (10_state.md R46, R49,
R50). -/
def Obligations.ResetMeetsTheInvariant : Prop :=
  (∀ cfg : Config, cfg.Legal → (State.resetOf cfg).Inv) ∧ State.reset.Inv

/-- Every step keeps the invariant: NUM_BANDS and NOISE_LEN stay in range, a running block has an active band and a
noise position inside the ring, the slots stay MAX_BANDS in number and the tables keep their form (10_state.md R49,
R50; 20_memory.md R60). -/
def Obligations.StepKeepsTheInvariant : Prop :=
  ∀ s t : State, s.Inv → step s = .next t → t.Inv

/-- After reset, and after every step from a state where it holds, every NaN in a history or an ENV is the canonical
one (42_tick.md R153; 40_numerics.md R104). -/
def Obligations.NaNsStayCanonical : Prop :=
  (∀ cfg : Config, (State.resetOf cfg).CanonicalNaNs) ∧
  (∀ s t : State, s.CanonicalNaNs → step s = .next t → t.CanonicalNaNs)

/-! ### Numerics -/

/-- round64 and round32 are roundTiesToEven: the nearest value of the format, a tie to the even fraction, the real's
sign kept, an infinity exactly from 2^1024 - 2^970 and 2^128 - 2^103 on (40_numerics.md R101). -/
def Obligations.RoundingIsToNearestEven : Prop :=
  (∀ (neg : Bool) (n k : Nat), signBit (round64 neg n k) = neg ∧
    (n < overflow64 * 2 ^ k → IsNearestEven64 (round64 neg n k) (signed neg n) k) ∧
    (overflow64 * 2 ^ k ≤ n → isInf (round64 neg n k) = true)) ∧
  (∀ (neg : Bool) (n k : Nat), signBit32 (round32 neg n k) = neg ∧
    (n < overflow32 * 2 ^ k → IsNearestEven32 (round32 neg n k) (signed neg n) k) ∧
    (overflow32 * 2 ^ k ≤ n → isInf32 (round32 neg n k) = true))

/-- fmul: NaN operands and inf times zero give the canonical NaN, other infinities the infinity of the xor sign, a zero
product the zero of the xor sign, and any other product its rounding (40_numerics.md R102). -/
def Obligations.FmulRoundsTheExactProduct : Prop :=
  ∀ a b : F64,
    (isNaN a = true ∨ isNaN b = true ∨ (isInf a = true ∧ isZero b = true) ∨ (isZero a = true ∧ isInf b = true) →
      fmul a b = 0x7FF8000000000000) ∧
    (isNaN a = false → isNaN b = false → (isInf a = true ∧ isZero b = false ∨ isInf b = true ∧ isZero a = false) →
      isInf (fmul a b) = true ∧ signBit (fmul a b) = (signBit a ^^ signBit b)) ∧
    (isNaN a = false → isNaN b = false → isInf a = false → isInf b = false →
      signBit (fmul a b) = (signBit a ^^ signBit b) ∧
      (units a * units b = 0 → isZero (fmul a b) = true) ∧
      ((units a * units b).natAbs < overflow64 * 2 ^ 1074 →
        IsNearestEven64 (fmul a b) (units a * units b) 1074) ∧
      (overflow64 * 2 ^ 1074 ≤ (units a * units b).natAbs → isInf (fmul a b) = true))

/-- fadd: NaN operands and opposite infinities give the canonical NaN, another infinity itself, an exact zero sum +0.0
but -0.0 for two -0.0, and any other sum its rounding with the sum's sign; fneg flips the sign bit, and fsub adds the
negated operand, a NaN operand giving the canonical NaN (40_numerics.md R103). -/
def Obligations.FaddRoundsTheExactSum : Prop :=
  ∀ a b : F64,
    (isNaN a = true ∨ isNaN b = true ∨ (isInf a = true ∧ isInf b = true ∧ signBit a ≠ signBit b) →
      fadd a b = 0x7FF8000000000000) ∧
    (isNaN b = false → isInf a = true → (isInf b = true → signBit a = signBit b) → fadd a b = a) ∧
    (isNaN a = false → isInf a = false → isInf b = true → fadd a b = b) ∧
    (isNaN a = false → isNaN b = false → isInf a = false → isInf b = false →
      (units a + units b = 0 →
        fadd a b = if a = 0x8000000000000000 ∧ b = 0x8000000000000000 then 0x8000000000000000 else 0) ∧
      (units a + units b ≠ 0 → signBit (fadd a b) = decide (units a + units b < 0)) ∧
      ((units a + units b).natAbs < overflow64 → IsNearestEven64 (fadd a b) (units a + units b) 0) ∧
      (overflow64 ≤ (units a + units b).natAbs → isInf (fadd a b) = true)) ∧
    fneg a = a ^^^ 0x8000000000000000 ∧ fsub a b = fadd a (fneg b) ∧
    (isNaN a = true ∨ isNaN b = true → fsub a b = 0x7FF8000000000000)

/-- A NaN operand always gives a NaN result, and every NaN result is the canonical one (40_numerics.md R104). -/
def Obligations.NaNsPropagateCanonically : Prop :=
  (∀ a b : F64, (isNaN a = true ∨ isNaN b = true) →
    fmul a b = 0x7FF8000000000000 ∧ fadd a b = 0x7FF8000000000000 ∧ fsub a b = 0x7FF8000000000000) ∧
  (∀ w : Word, isNaN32 w = true → widen w = 0x7FF8000000000000) ∧
  (∀ d : F64, isNaN d = true → narrow d = 0x7FC00000) ∧
  (∀ a b : F64, CanonicalF64 (fmul a b) ∧ CanonicalF64 (fadd a b) ∧ CanonicalF64 (fsub a b)) ∧
  (∀ w : Word, CanonicalF64 (widen w)) ∧ (∀ d : F64, isNaN32 (narrow d) = true → narrow d = 0x7FC00000)

/-- widen gives exactly the same value and sign, and the canonical NaN for a NaN (40_numerics.md R116). One unit of
binary32 is 2^925 units of binary64. -/
def Obligations.WidenIsExact : Prop :=
  ∀ w : Word,
    (isNaN32 w = true → widen w = 0x7FF8000000000000) ∧
    (isInf32 w = true → isInf (widen w) = true ∧ signBit (widen w) = signBit32 w) ∧
    (isNaN32 w = false → isInf32 w = false →
      isNaN (widen w) = false ∧ isInf (widen w) = false ∧ signBit (widen w) = signBit32 w ∧
        units (widen w) = units32 w * 2 ^ 925)

/-- narrow gives the canonical NaN for a NaN, keeps the sign of every other datum and rounds it to the nearest binary32
value, a tie to the even fraction, subnormal and zero results included, an infinity exactly from 2^128 - 2^103 on; it
undoes widen on every word that is no NaN (40_numerics.md R101, R116, R117). One unit of binary32 is 2^925 units of
binary64. -/
def Obligations.NarrowRoundsToNearestEven : Prop :=
  (∀ d : F64, isNaN d = true → narrow d = 0x7FC00000) ∧
  (∀ d : F64, isNaN d = false → signBit32 (narrow d) = signBit d ∧
    ((units d).natAbs < overflow32 * 2 ^ 925 → IsNearestEven32 (narrow d) (units d) 925) ∧
    (overflow32 * 2 ^ 925 ≤ (units d).natAbs → isInf32 (narrow d) = true)) ∧
  (∀ w : Word, isNaN32 w = false → narrow (widen w) = w)

/-- u32_to_f64 is exact (40_numerics.md R118) and saw(p) is exactly p * 2^-31 - 1 (R110), in units of 2^-1074. -/
def Obligations.SawtoothIsExact : Prop :=
  (∀ u : Word, isNaN (u32ToF64 u) = false ∧ isInf (u32ToF64 u) = false ∧ units (u32ToF64 u) = u.toNat * 2 ^ 1074) ∧
  u32ToF64 0 = 0 ∧
  (∀ p : Word, saw p = fsub (fmul (u32ToF64 p) 0x3E00000000000000) 0x3FF0000000000000 ∧
    isNaN (saw p) = false ∧ isInf (saw p) = false ∧ units (saw p) = ((p.toNat : Int) - 2 ^ 31) * 2 ^ 1043)

/-- The table index of a phase is its top L bits, below 2^L (40_numerics.md R111). -/
def Obligations.PhaseIndexIsTheTopBits : Prop :=
  ∀ (p : Word) (l : Nat), 1 ≤ l → l ≤ 24 →
    phaseIndex p l = (p.extractLsb' (32 - l) l).toNat ∧ phaseIndex p l < 2 ^ l

/-! ### Pseudo-instructions -/

/-- SETBQ, performed while RUN = 0 on a slot the instance has, leaves the slot's five coefficients at the five data
and changes no other register, history, table or pin (30_encoding.md R93; 10_state.md R35, R37). -/
def Obligations.SetBqSetsTheCoefficients : Prop :=
  ∀ (s : State) (b : Nat) (k : Coefs), s.status.run = false → b < s.cfg.maxBands → s.bands.length = s.cfg.maxBands →
    let t := execAll (setBq b k) s
    (t.band b).bp.b0.value = k.b0 ∧ (t.band b).bp.b1.value = k.b1 ∧ (t.band b).bp.b2.value = k.b2 ∧
    (t.band b).bp.a1.value = k.a1 ∧ (t.band b).bp.a2.value = k.a2 ∧
    (∀ r : Reg, (∀ h, r ≠ .band b (.bp h)) → t.readReg r = s.readReg r) ∧ SameBeyondRegisters s t

/-- LOADTAB of a table, performed while RUN = 0 with no more words than the table has entries, leaves entry i at word i,
for each of them, and every other entry of every table as it was (30_encoding.md R93; 41_commands.md R130). With a TAB
value of 3..15, which names no table, it expands all the same, in either run state: each of its WRTABs ends with ERR_ADDR,
one for each word, and no register but STATUS, no history, table or pin changes (30_encoding.md R93, R95). -/
def Obligations.LoadTabLoadsTheEntries : Prop :=
  (∀ (s : State) (t : TableId) (ws : List Word), s.status.run = false → ws.length ≤ depth s.cfg t →
    (∀ i (h : i < ws.length), memRead (execAll (loadTab (tabOf t) ws) s) t i = ws[i]) ∧
    (∀ x j, (x ≠ t ∨ ws.length ≤ j) → memRead (execAll (loadTab (tabOf t) ws) s) x j = memRead s x j)) ∧
  (∀ (s : State) (tab : Nat) (ws : List Word), 3 ≤ tab → tab ≤ 15 →
    responsesOf (loadTab tab ws) s = List.replicate ws.length ⟨0, .err .addr⟩ ∧
    (∀ r : Reg, r ≠ .status → (execAll (loadTab tab ws) s).readReg r = s.readReg r) ∧
    SameBeyondRegisters s (execAll (loadTab tab ws) s))

/-! ### Host driver -/

/-- The band plan has numBands centers, the first the start frequency, each later one the product of the one before it and
one ratio, 2^(centsPerBand / 1200), which is above 1 where the host's functions are accurate and the cents are not too few
to tell; from a normal positive start such a ratio makes the centers grow strictly (43_host_driver.md R201, R203). A band
configuration with a band count outside 1..MAX_BANDS, a start frequency that is no more than 0, or one not below the end
frequency, issues no command, changes nothing and returns ConfigurationError (R202). Of a configuration that is accepted,
the centers grow strictly and lie in 1 Hz <= c < fs/2 (R203, R209), and its band parameters are the host's current ones
(R219, R220): that the host rejects every other plan is the model's choice (log entry 28), and what is known of its
functions is log entry 16. -/
def Obligations.BandPlanAndItsChecks : Prop :=
  ∀ (hm : HostMath) (startHz endHz : F64) (n : Nat),
    let plan := generateBands hm startHz endHz n
    let octaves := hostDiv (hostDiv (fmul 0x4092C00000000000 (hm.log2 (hostDiv endHz startHz))) (ofNat64 n))
      0x4092C00000000000
    let ratio := hm.exp2 octaves
    plan.length = n ∧ (0 < n → plan[0]? = some startHz) ∧
    (∀ (i : Nat) (c d : F64), plan[i]? = some c → plan[i + 1]? = some d → d = fmul c ratio) ∧
    (hm.Accurate → IsFinite octaves → hostLe 0x3D50000000000000 octaves = true → flt one64 ratio = true) ∧
    (flt one64 ratio = true → IsFinite startHz → flt 0 startHz = true → 1 ≤ expoField startHz →
      ∀ (i : Nat) (c d : F64), plan[i]? = some c → plan[i + 1]? = some d → isInf c = false → flt c d = true) ∧
    (∀ (h : HostState) (s : State),
      (n < 1 ∨ s.cfg.maxBands < n ∨ hostLe startHz 0 = true ∨ hostLe endHz startHz = true) →
        configureBands hm startHz endHz n h s = ⟨h, s, [], [], some .configuration⟩ ∧
          (configureBands hm startHz endHz n h s).errors = [.configuration]) ∧
    (∀ (h : HostState) (s : State), (configureBands hm startHz endHz n h s).rejected = none →
      (∀ (i : Nat) (c d : F64), plan[i]? = some c → plan[i + 1]? = some d → flt c d = true) ∧
      (∀ c, c ∈ plan → hostLe one64 c = true ∧ flt c (hostDiv h.params.fs two64) = true) ∧
      (configureBands hm startHz endHz n h s).host = { h with params := { h.params with
        startHz := startHz, endHz := endHz, bandCount := n } })
end

