-- ==== Sys2Proof/Laws/State.lean ====
section
/-! SUPPORT. One lemma per field of the state per update: what each shared operation leaves in each field. -/

namespace Sys2Proof.Machine

/-! ### respond -/

@[simp] theorem respond_cfg (d : Word) (s : State) : (respond d s).cfg = s.cfg := rfl
@[simp] theorem respond_oscSel (d : Word) (s : State) : (respond d s).oscSel = s.oscSel := rfl
@[simp] theorem respond_status (d : Word) (s : State) : (respond d s).status = s.status := rfl
@[simp] theorem respond_numBands (d : Word) (s : State) : (respond d s).numBands = s.numBands := rfl
@[simp] theorem respond_noiseLen (d : Word) (s : State) : (respond d s).noiseLen = s.noiseLen := rfl
@[simp] theorem respond_sampleCnt (d : Word) (s : State) : (respond d s).sampleCnt = s.sampleCnt := rfl
@[simp] theorem respond_oscPinc (d : Word) (s : State) : (respond d s).oscPinc = s.oscPinc := rfl
@[simp] theorem respond_oscPhase (d : Word) (s : State) : (respond d s).oscPhase = s.oscPhase := rfl
@[simp] theorem respond_noiseIdx (d : Word) (s : State) : (respond d s).noiseIdx = s.noiseIdx := rfl
@[simp] theorem respond_gains (d : Word) (s : State) : (respond d s).gains = s.gains := rfl
@[simp] theorem respond_envlp (d : Word) (s : State) : (respond d s).envlp = s.envlp := rfl
@[simp] theorem respond_air (d : Word) (s : State) : (respond d s).air = s.air := rfl
@[simp] theorem respond_bands (d : Word) (s : State) : (respond d s).bands = s.bands := rfl
@[simp] theorem respond_hair (d : Word) (s : State) : (respond d s).hair = s.hair := rfl
@[simp] theorem respond_sine (d : Word) (s : State) : (respond d s).sine = s.sine := rfl
@[simp] theorem respond_wave (d : Word) (s : State) : (respond d s).wave = s.wave := rfl
@[simp] theorem respond_noise (d : Word) (s : State) : (respond d s).noise = s.noise := rfl
@[simp] theorem respond_tableFill (d : Word) (s : State) : (respond d s).tableFill = s.tableFill := rfl
@[simp] theorem respond_offered (d : Word) (s : State) : (respond d s).offered = s.offered := rfl
@[simp] theorem respond_rspReady (d : Word) (s : State) : (respond d s).rspReady = s.rspReady := rfl
@[simp] theorem respond_rst (d : Word) (s : State) : (respond d s).rst = s.rst := rfl
@[simp] theorem respond_rsp (d : Word) (s : State) : (respond d s).rsp = some ⟨d, .ok⟩ := rfl

/-! ### raiseError -/

@[simp] theorem raiseError_cfg (e : ErrCode) (s : State) : (raiseError e s).cfg = s.cfg := rfl
@[simp] theorem raiseError_oscSel (e : ErrCode) (s : State) : (raiseError e s).oscSel = s.oscSel := rfl
@[simp] theorem raiseError_status (e : ErrCode) (s : State) : (raiseError e s).status = s.status.setError e := rfl
@[simp] theorem raiseError_numBands (e : ErrCode) (s : State) : (raiseError e s).numBands = s.numBands := rfl
@[simp] theorem raiseError_noiseLen (e : ErrCode) (s : State) : (raiseError e s).noiseLen = s.noiseLen := rfl
@[simp] theorem raiseError_sampleCnt (e : ErrCode) (s : State) : (raiseError e s).sampleCnt = s.sampleCnt := rfl
@[simp] theorem raiseError_oscPinc (e : ErrCode) (s : State) : (raiseError e s).oscPinc = s.oscPinc := rfl
@[simp] theorem raiseError_oscPhase (e : ErrCode) (s : State) : (raiseError e s).oscPhase = s.oscPhase := rfl
@[simp] theorem raiseError_noiseIdx (e : ErrCode) (s : State) : (raiseError e s).noiseIdx = s.noiseIdx := rfl
@[simp] theorem raiseError_gains (e : ErrCode) (s : State) : (raiseError e s).gains = s.gains := rfl
@[simp] theorem raiseError_envlp (e : ErrCode) (s : State) : (raiseError e s).envlp = s.envlp := rfl
@[simp] theorem raiseError_air (e : ErrCode) (s : State) : (raiseError e s).air = s.air := rfl
@[simp] theorem raiseError_bands (e : ErrCode) (s : State) : (raiseError e s).bands = s.bands := rfl
@[simp] theorem raiseError_hair (e : ErrCode) (s : State) : (raiseError e s).hair = s.hair := rfl
@[simp] theorem raiseError_sine (e : ErrCode) (s : State) : (raiseError e s).sine = s.sine := rfl
@[simp] theorem raiseError_wave (e : ErrCode) (s : State) : (raiseError e s).wave = s.wave := rfl
@[simp] theorem raiseError_noise (e : ErrCode) (s : State) : (raiseError e s).noise = s.noise := rfl
@[simp] theorem raiseError_tableFill (e : ErrCode) (s : State) : (raiseError e s).tableFill = s.tableFill := rfl
@[simp] theorem raiseError_offered (e : ErrCode) (s : State) : (raiseError e s).offered = s.offered := rfl
@[simp] theorem raiseError_rspReady (e : ErrCode) (s : State) : (raiseError e s).rspReady = s.rspReady := rfl
@[simp] theorem raiseError_rst (e : ErrCode) (s : State) : (raiseError e s).rst = s.rst := rfl
@[simp] theorem raiseError_rsp (e : ErrCode) (s : State) : (raiseError e s).rsp = some ⟨0, .err e⟩ := rfl

/-! ### accept -/

@[simp] theorem accept_cfg (l : List Command) (s : State) : (accept l s).cfg = s.cfg := rfl
@[simp] theorem accept_oscSel (l : List Command) (s : State) : (accept l s).oscSel = s.oscSel := rfl
@[simp] theorem accept_status (l : List Command) (s : State) : (accept l s).status = s.status := rfl
@[simp] theorem accept_numBands (l : List Command) (s : State) : (accept l s).numBands = s.numBands := rfl
@[simp] theorem accept_noiseLen (l : List Command) (s : State) : (accept l s).noiseLen = s.noiseLen := rfl
@[simp] theorem accept_sampleCnt (l : List Command) (s : State) : (accept l s).sampleCnt = s.sampleCnt := rfl
@[simp] theorem accept_oscPinc (l : List Command) (s : State) : (accept l s).oscPinc = s.oscPinc := rfl
@[simp] theorem accept_oscPhase (l : List Command) (s : State) : (accept l s).oscPhase = s.oscPhase := rfl
@[simp] theorem accept_noiseIdx (l : List Command) (s : State) : (accept l s).noiseIdx = s.noiseIdx := rfl
@[simp] theorem accept_gains (l : List Command) (s : State) : (accept l s).gains = s.gains := rfl
@[simp] theorem accept_envlp (l : List Command) (s : State) : (accept l s).envlp = s.envlp := rfl
@[simp] theorem accept_air (l : List Command) (s : State) : (accept l s).air = s.air := rfl
@[simp] theorem accept_bands (l : List Command) (s : State) : (accept l s).bands = s.bands := rfl
@[simp] theorem accept_hair (l : List Command) (s : State) : (accept l s).hair = s.hair := rfl
@[simp] theorem accept_sine (l : List Command) (s : State) : (accept l s).sine = s.sine := rfl
@[simp] theorem accept_wave (l : List Command) (s : State) : (accept l s).wave = s.wave := rfl
@[simp] theorem accept_noise (l : List Command) (s : State) : (accept l s).noise = s.noise := rfl
@[simp] theorem accept_tableFill (l : List Command) (s : State) : (accept l s).tableFill = s.tableFill := rfl
@[simp] theorem accept_offered (l : List Command) (s : State) : (accept l s).offered = l := rfl
@[simp] theorem accept_rspReady (l : List Command) (s : State) : (accept l s).rspReady = s.rspReady := rfl
@[simp] theorem accept_rst (l : List Command) (s : State) : (accept l s).rst = s.rst := rfl
@[simp] theorem accept_rsp (l : List Command) (s : State) : (accept l s).rsp = none := rfl

/-! ### startRun -/

@[simp] theorem startRun_cfg (s : State) : (startRun s).cfg = s.cfg := rfl
@[simp] theorem startRun_oscSel (s : State) : (startRun s).oscSel = s.oscSel := rfl
@[simp] theorem startRun_status (s : State) : (startRun s).status = s.status.setRun true := rfl
@[simp] theorem startRun_numBands (s : State) : (startRun s).numBands = s.numBands := rfl
@[simp] theorem startRun_noiseLen (s : State) : (startRun s).noiseLen = s.noiseLen := rfl
@[simp] theorem startRun_sampleCnt (s : State) : (startRun s).sampleCnt = 0 := rfl
@[simp] theorem startRun_oscPinc (s : State) : (startRun s).oscPinc = s.oscPinc := rfl
@[simp] theorem startRun_oscPhase (s : State) : (startRun s).oscPhase = 0 := rfl
@[simp] theorem startRun_noiseIdx (s : State) : (startRun s).noiseIdx = 0 := rfl
@[simp] theorem startRun_gains (s : State) : (startRun s).gains = s.gains := rfl
@[simp] theorem startRun_envlp (s : State) : (startRun s).envlp = s.envlp := rfl
@[simp] theorem startRun_air (s : State) : (startRun s).air = s.air := rfl
@[simp] theorem startRun_bands (s : State) : (startRun s).bands = s.bands.map clearBand := rfl
@[simp] theorem startRun_hair (s : State) : (startRun s).hair = History.zero := rfl
@[simp] theorem startRun_sine (s : State) : (startRun s).sine = s.sine := rfl
@[simp] theorem startRun_wave (s : State) : (startRun s).wave = s.wave := rfl
@[simp] theorem startRun_noise (s : State) : (startRun s).noise = s.noise := rfl
@[simp] theorem startRun_tableFill (s : State) : (startRun s).tableFill = s.tableFill := rfl
@[simp] theorem startRun_offered (s : State) : (startRun s).offered = s.offered := rfl
@[simp] theorem startRun_rspReady (s : State) : (startRun s).rspReady = s.rspReady := rfl
@[simp] theorem startRun_rst (s : State) : (startRun s).rst = s.rst := rfl
@[simp] theorem startRun_rsp (s : State) : (startRun s).rsp = s.rsp := rfl

/-! ### advance -/

@[simp] theorem advance_cfg (s : State) : (advance s).cfg = s.cfg := rfl
@[simp] theorem advance_oscSel (s : State) : (advance s).oscSel = s.oscSel := rfl
@[simp] theorem advance_status (s : State) : (advance s).status = s.status := rfl
@[simp] theorem advance_numBands (s : State) : (advance s).numBands = s.numBands := rfl
@[simp] theorem advance_noiseLen (s : State) : (advance s).noiseLen = s.noiseLen := rfl
@[simp] theorem advance_sampleCnt (s : State) : (advance s).sampleCnt = s.sampleCnt + 1 := rfl
@[simp] theorem advance_oscPinc (s : State) : (advance s).oscPinc = s.oscPinc := rfl
@[simp] theorem advance_oscPhase (s : State) : (advance s).oscPhase = advancePhase s.oscPhase s.oscPinc := rfl
@[simp] theorem advance_noiseIdx (s : State) : (advance s).noiseIdx = advanceNoise s.noiseIdx s.noiseLen := rfl
@[simp] theorem advance_gains (s : State) : (advance s).gains = s.gains := rfl
@[simp] theorem advance_envlp (s : State) : (advance s).envlp = s.envlp := rfl
@[simp] theorem advance_air (s : State) : (advance s).air = s.air := rfl
@[simp] theorem advance_bands (s : State) : (advance s).bands = advanceBands s.numBands.toNat s.bands := rfl
@[simp] theorem advance_hair (s : State) : (advance s).hair = s.hair := rfl
@[simp] theorem advance_sine (s : State) : (advance s).sine = s.sine := rfl
@[simp] theorem advance_wave (s : State) : (advance s).wave = s.wave := rfl
@[simp] theorem advance_noise (s : State) : (advance s).noise = s.noise := rfl
@[simp] theorem advance_tableFill (s : State) : (advance s).tableFill = s.tableFill := rfl
@[simp] theorem advance_offered (s : State) : (advance s).offered = s.offered := rfl
@[simp] theorem advance_rspReady (s : State) : (advance s).rspReady = s.rspReady := rfl
@[simp] theorem advance_rst (s : State) : (advance s).rst = s.rst := rfl
@[simp] theorem advance_rsp (s : State) : (advance s).rsp = s.rsp := rfl

/-! ### tickRun -/

@[simp] theorem tickRun_cfg (m c : Word) (s : State) : (tickRun m c s).cfg = s.cfg := rfl
@[simp] theorem tickRun_oscSel (m c : Word) (s : State) : (tickRun m c s).oscSel = s.oscSel := rfl
@[simp] theorem tickRun_status (m c : Word) (s : State) : (tickRun m c s).status = s.status.setGuard (guardOut (mixerResult s m c)).nan (guardOut (mixerResult s m c)).clip := rfl
@[simp] theorem tickRun_numBands (m c : Word) (s : State) : (tickRun m c s).numBands = s.numBands := rfl
@[simp] theorem tickRun_noiseLen (m c : Word) (s : State) : (tickRun m c s).noiseLen = s.noiseLen := rfl
@[simp] theorem tickRun_sampleCnt (m c : Word) (s : State) : (tickRun m c s).sampleCnt = s.sampleCnt + 1 := rfl
@[simp] theorem tickRun_oscPinc (m c : Word) (s : State) : (tickRun m c s).oscPinc = s.oscPinc := rfl
@[simp] theorem tickRun_oscPhase (m c : Word) (s : State) : (tickRun m c s).oscPhase = advancePhase s.oscPhase s.oscPinc := rfl
@[simp] theorem tickRun_noiseIdx (m c : Word) (s : State) : (tickRun m c s).noiseIdx = advanceNoise s.noiseIdx s.noiseLen := rfl
@[simp] theorem tickRun_gains (m c : Word) (s : State) : (tickRun m c s).gains = s.gains := rfl
@[simp] theorem tickRun_envlp (m c : Word) (s : State) : (tickRun m c s).envlp = s.envlp := rfl
@[simp] theorem tickRun_air (m c : Word) (s : State) : (tickRun m c s).air = s.air := rfl
@[simp] theorem tickRun_bands (m c : Word) (s : State) : (tickRun m c s).bands = advanceBands s.numBands.toNat (tickMix s m c).bands := rfl
@[simp] theorem tickRun_hair (m c : Word) (s : State) : (tickRun m c s).hair = (airSection s (widen m)).hist := rfl
@[simp] theorem tickRun_sine (m c : Word) (s : State) : (tickRun m c s).sine = s.sine := rfl
@[simp] theorem tickRun_wave (m c : Word) (s : State) : (tickRun m c s).wave = s.wave := rfl
@[simp] theorem tickRun_noise (m c : Word) (s : State) : (tickRun m c s).noise = s.noise := rfl
@[simp] theorem tickRun_tableFill (m c : Word) (s : State) : (tickRun m c s).tableFill = s.tableFill := rfl
@[simp] theorem tickRun_offered (m c : Word) (s : State) : (tickRun m c s).offered = s.offered := rfl
@[simp] theorem tickRun_rspReady (m c : Word) (s : State) : (tickRun m c s).rspReady = s.rspReady := rfl
@[simp] theorem tickRun_rst (m c : Word) (s : State) : (tickRun m c s).rst = s.rst := rfl
@[simp] theorem tickRun_rsp (m c : Word) (s : State) : (tickRun m c s).rsp = some ⟨narrow (guardOut (mixerResult s m c)).out, .ok⟩ := rfl

/-! ### setTable and memWrite -/

@[simp] theorem setTable_cfg (s : State) (t : TableId) (tab : Table) : (s.setTable t tab).cfg = s.cfg := by
  cases t <;> rfl
@[simp] theorem memWrite_cfg (s : State) (t : TableId) (i : Nat) (w : Word) : (memWrite s t i w).cfg = s.cfg := by
  cases t <;> rfl
@[simp] theorem setTable_oscSel (s : State) (t : TableId) (tab : Table) : (s.setTable t tab).oscSel = s.oscSel := by
  cases t <;> rfl
@[simp] theorem memWrite_oscSel (s : State) (t : TableId) (i : Nat) (w : Word) : (memWrite s t i w).oscSel = s.oscSel := by
  cases t <;> rfl
@[simp] theorem setTable_status (s : State) (t : TableId) (tab : Table) : (s.setTable t tab).status = s.status := by
  cases t <;> rfl
@[simp] theorem memWrite_status (s : State) (t : TableId) (i : Nat) (w : Word) : (memWrite s t i w).status = s.status := by
  cases t <;> rfl
@[simp] theorem setTable_numBands (s : State) (t : TableId) (tab : Table) : (s.setTable t tab).numBands = s.numBands := by
  cases t <;> rfl
@[simp] theorem memWrite_numBands (s : State) (t : TableId) (i : Nat) (w : Word) : (memWrite s t i w).numBands = s.numBands := by
  cases t <;> rfl
@[simp] theorem setTable_noiseLen (s : State) (t : TableId) (tab : Table) : (s.setTable t tab).noiseLen = s.noiseLen := by
  cases t <;> rfl
@[simp] theorem memWrite_noiseLen (s : State) (t : TableId) (i : Nat) (w : Word) : (memWrite s t i w).noiseLen = s.noiseLen := by
  cases t <;> rfl
@[simp] theorem setTable_sampleCnt (s : State) (t : TableId) (tab : Table) : (s.setTable t tab).sampleCnt = s.sampleCnt := by
  cases t <;> rfl
@[simp] theorem memWrite_sampleCnt (s : State) (t : TableId) (i : Nat) (w : Word) : (memWrite s t i w).sampleCnt = s.sampleCnt := by
  cases t <;> rfl
@[simp] theorem setTable_oscPinc (s : State) (t : TableId) (tab : Table) : (s.setTable t tab).oscPinc = s.oscPinc := by
  cases t <;> rfl
@[simp] theorem memWrite_oscPinc (s : State) (t : TableId) (i : Nat) (w : Word) : (memWrite s t i w).oscPinc = s.oscPinc := by
  cases t <;> rfl
@[simp] theorem setTable_oscPhase (s : State) (t : TableId) (tab : Table) : (s.setTable t tab).oscPhase = s.oscPhase := by
  cases t <;> rfl
@[simp] theorem memWrite_oscPhase (s : State) (t : TableId) (i : Nat) (w : Word) : (memWrite s t i w).oscPhase = s.oscPhase := by
  cases t <;> rfl
@[simp] theorem setTable_noiseIdx (s : State) (t : TableId) (tab : Table) : (s.setTable t tab).noiseIdx = s.noiseIdx := by
  cases t <;> rfl
@[simp] theorem memWrite_noiseIdx (s : State) (t : TableId) (i : Nat) (w : Word) : (memWrite s t i w).noiseIdx = s.noiseIdx := by
  cases t <;> rfl
@[simp] theorem setTable_gains (s : State) (t : TableId) (tab : Table) : (s.setTable t tab).gains = s.gains := by
  cases t <;> rfl
@[simp] theorem memWrite_gains (s : State) (t : TableId) (i : Nat) (w : Word) : (memWrite s t i w).gains = s.gains := by
  cases t <;> rfl
@[simp] theorem setTable_envlp (s : State) (t : TableId) (tab : Table) : (s.setTable t tab).envlp = s.envlp := by
  cases t <;> rfl
@[simp] theorem memWrite_envlp (s : State) (t : TableId) (i : Nat) (w : Word) : (memWrite s t i w).envlp = s.envlp := by
  cases t <;> rfl
@[simp] theorem setTable_air (s : State) (t : TableId) (tab : Table) : (s.setTable t tab).air = s.air := by
  cases t <;> rfl
@[simp] theorem memWrite_air (s : State) (t : TableId) (i : Nat) (w : Word) : (memWrite s t i w).air = s.air := by
  cases t <;> rfl
@[simp] theorem setTable_bands (s : State) (t : TableId) (tab : Table) : (s.setTable t tab).bands = s.bands := by
  cases t <;> rfl
@[simp] theorem memWrite_bands (s : State) (t : TableId) (i : Nat) (w : Word) : (memWrite s t i w).bands = s.bands := by
  cases t <;> rfl
@[simp] theorem setTable_hair (s : State) (t : TableId) (tab : Table) : (s.setTable t tab).hair = s.hair := by
  cases t <;> rfl
@[simp] theorem memWrite_hair (s : State) (t : TableId) (i : Nat) (w : Word) : (memWrite s t i w).hair = s.hair := by
  cases t <;> rfl
@[simp] theorem setTable_tableFill (s : State) (t : TableId) (tab : Table) : (s.setTable t tab).tableFill = s.tableFill := by
  cases t <;> rfl
@[simp] theorem memWrite_tableFill (s : State) (t : TableId) (i : Nat) (w : Word) : (memWrite s t i w).tableFill = s.tableFill := by
  cases t <;> rfl
@[simp] theorem setTable_offered (s : State) (t : TableId) (tab : Table) : (s.setTable t tab).offered = s.offered := by
  cases t <;> rfl
@[simp] theorem memWrite_offered (s : State) (t : TableId) (i : Nat) (w : Word) : (memWrite s t i w).offered = s.offered := by
  cases t <;> rfl
@[simp] theorem setTable_rspReady (s : State) (t : TableId) (tab : Table) : (s.setTable t tab).rspReady = s.rspReady := by
  cases t <;> rfl
@[simp] theorem memWrite_rspReady (s : State) (t : TableId) (i : Nat) (w : Word) : (memWrite s t i w).rspReady = s.rspReady := by
  cases t <;> rfl
@[simp] theorem setTable_rst (s : State) (t : TableId) (tab : Table) : (s.setTable t tab).rst = s.rst := by
  cases t <;> rfl
@[simp] theorem memWrite_rst (s : State) (t : TableId) (i : Nat) (w : Word) : (memWrite s t i w).rst = s.rst := by
  cases t <;> rfl
@[simp] theorem setTable_rsp (s : State) (t : TableId) (tab : Table) : (s.setTable t tab).rsp = s.rsp := by
  cases t <;> rfl
@[simp] theorem memWrite_rsp (s : State) (t : TableId) (i : Nat) (w : Word) : (memWrite s t i w).rsp = s.rsp := by
  cases t <;> rfl
@[simp] theorem setTable_table_same (s : State) (t : TableId) (tab : Table) : (s.setTable t tab).table t = tab := by
  cases t <;> rfl
theorem setTable_table_other (s : State) {t u : TableId} (tab : Table) (h : u ≠ t) :
    (s.setTable t tab).table u = s.table u := by
  cases t <;> cases u <;> first | rfl | exact absurd rfl h

/-! ### writeReg -/

@[simp] theorem writeReg_cfg (s : State) (r : Reg) (w : Word) : (s.writeReg r w).cfg = s.cfg := by
  cases r <;> rfl
@[simp] theorem writeReg_sine (s : State) (r : Reg) (w : Word) : (s.writeReg r w).sine = s.sine := by
  cases r <;> rfl
@[simp] theorem writeReg_wave (s : State) (r : Reg) (w : Word) : (s.writeReg r w).wave = s.wave := by
  cases r <;> rfl
@[simp] theorem writeReg_noise (s : State) (r : Reg) (w : Word) : (s.writeReg r w).noise = s.noise := by
  cases r <;> rfl
@[simp] theorem writeReg_hair (s : State) (r : Reg) (w : Word) : (s.writeReg r w).hair = s.hair := by
  cases r <;> rfl
@[simp] theorem writeReg_tableFill (s : State) (r : Reg) (w : Word) : (s.writeReg r w).tableFill = s.tableFill := by
  cases r <;> rfl
@[simp] theorem writeReg_offered (s : State) (r : Reg) (w : Word) : (s.writeReg r w).offered = s.offered := by
  cases r <;> rfl
@[simp] theorem writeReg_rspReady (s : State) (r : Reg) (w : Word) : (s.writeReg r w).rspReady = s.rspReady := by
  cases r <;> rfl
@[simp] theorem writeReg_rst (s : State) (r : Reg) (w : Word) : (s.writeReg r w).rst = s.rst := by
  cases r <;> rfl
@[simp] theorem writeReg_rsp (s : State) (r : Reg) (w : Word) : (s.writeReg r w).rsp = s.rsp := by
  cases r <;> rfl
@[simp] theorem writeReg_table (s : State) (r : Reg) (w : Word) (t : TableId) : (s.writeReg r w).table t = s.table t := by
  cases t <;> cases r <;> rfl
@[simp] theorem writeReg_run (s : State) (r : Reg) (w : Word) : (s.writeReg r w).status.run = s.status.run := by
  cases r <;> rfl
@[simp] theorem writeReg_slots (s : State) (r : Reg) (w : Word) : (s.writeReg r w).bands.length = s.bands.length := by
  cases r <;> simp [State.writeReg]

/-! ### table, for the updates that touch no table -/

@[simp] theorem respond_table (d : Word) (s : State) (x : TableId) : (respond d s).table x = s.table x := by
  cases x <;> rfl
@[simp] theorem raiseError_table (e : ErrCode) (s : State) (x : TableId) : (raiseError e s).table x = s.table x := by
  cases x <;> rfl
@[simp] theorem accept_table (l : List Command) (s : State) (x : TableId) : (accept l s).table x = s.table x := by
  cases x <;> rfl
@[simp] theorem startRun_table (s : State) (x : TableId) : (startRun s).table x = s.table x := by
  cases x <;> rfl
@[simp] theorem advance_table (s : State) (x : TableId) : (advance s).table x = s.table x := by
  cases x <;> rfl
@[simp] theorem tickRun_table (m c : Word) (s : State) (x : TableId) : (tickRun m c s).table x = s.table x := by
  cases x <;> rfl

/-! ### memRead, for the updates that touch no table -/

/-- A read depends on the table and the fill number alone. -/
theorem memRead_congr {s t : State} {x : TableId} (ht : t.table x = s.table x) (hf : t.tableFill = s.tableFill) (i : Nat) :
    memRead t x i = memRead s x i := by
  simp [memRead, ht, hf]

@[simp] theorem respond_memRead (d : Word) (s : State) (x : TableId) (i : Nat) : memRead (respond d s) x i = memRead s x i :=
  memRead_congr (by simp) (by simp) i
@[simp] theorem raiseError_memRead (e : ErrCode) (s : State) (x : TableId) (i : Nat) : memRead (raiseError e s) x i = memRead s x i :=
  memRead_congr (by simp) (by simp) i
@[simp] theorem accept_memRead (l : List Command) (s : State) (x : TableId) (i : Nat) : memRead (accept l s) x i = memRead s x i :=
  memRead_congr (by simp) (by simp) i
@[simp] theorem startRun_memRead (s : State) (x : TableId) (i : Nat) : memRead (startRun s) x i = memRead s x i :=
  memRead_congr (by simp) (by simp) i
@[simp] theorem advance_memRead (s : State) (x : TableId) (i : Nat) : memRead (advance s) x i = memRead s x i :=
  memRead_congr (by simp) (by simp) i
@[simp] theorem tickRun_memRead (m c : Word) (s : State) (x : TableId) (i : Nat) : memRead (tickRun m c s) x i = memRead s x i :=
  memRead_congr (by simp) (by simp) i
@[simp] theorem writeReg_memRead (s : State) (r : Reg) (w : Word) (x : TableId) (i : Nat) :
    memRead (s.writeReg r w) x i = memRead s x i :=
  memRead_congr (by simp) (by simp) i

/-! ### STATUS -/

@[simp] theorem setError_run (s : Status) (e : ErrCode) : (s.setError e).run = s.run := by cases e <;> rfl
@[simp] theorem setError_nanOut (s : Status) (e : ErrCode) : (s.setError e).nanOut = s.nanOut := by cases e <;> rfl
@[simp] theorem setError_clipOut (s : Status) (e : ErrCode) : (s.setError e).clipOut = s.clipOut := by cases e <;> rfl
@[simp] theorem setError_twice (s : Status) (e : ErrCode) : (s.setError e).setError e = s.setError e := by
  cases e <;> rfl
@[simp] theorem writeOneToClear_run (s : Status) (w : Word) : (s.writeOneToClear w).run = s.run := rfl
@[simp] theorem setGuard_run (s : Status) (n c : Bool) : (s.setGuard n c).run = s.run := rfl
@[simp] theorem setGuard_nanOut (s : Status) (n c : Bool) : (s.setGuard n c).nanOut = (s.nanOut || n) := rfl
@[simp] theorem setGuard_clipOut (s : Status) (n c : Bool) : (s.setGuard n c).clipOut = (s.clipOut || c) := rfl
@[simp] theorem setRun_run (s : Status) (v : Bool) : (s.setRun v).run = v := rfl

end Sys2Proof.Machine
end

