-- ==== Sys2Proof/Laws/Datapath.lean ====
section
/-! SUPPORT. What the band loop and the advance of a TICK do to each slot and to the accumulator, said once. -/

namespace Sys2Proof.Machine

/-- The band loop keeps the number of slots. -/
@[simp] theorem mixBands_length (s : State) (x car : F64) (n : Nat) (bs : List Band) (acc : F64) :
    (mixBands s x car n bs acc).bands.length = bs.length := by
  induction n generalizing bs acc with
  | zero => rfl
  | succ n ih => cases bs <;> simp [mixBands, ih]

/-- Each of the first `n` slots goes through its lane, every later slot is kept. -/
theorem mixBands_getElem? (s : State) (x car : F64) (n : Nat) (bs : List Band) (acc : F64) (b : Nat) :
    (mixBands s x car n bs acc).bands[b]? = if b < n then bs[b]?.map fun y => (lane s x car y).band else bs[b]? := by
  induction n generalizing bs acc b with
  | zero => simp [mixBands]
  | succ n ih =>
    cases bs with
    | nil => simp [mixBands]
    | cons y ys => cases b <;> simp [mixBands, ih]

/-- The accumulator after the band loop: the outputs of the first `n` slots added in ascending order. -/
theorem mixBands_acc (s : State) (x car : F64) (n : Nat) (bs : List Band) (acc : F64) :
    (mixBands s x car n bs acc).acc = ((bs.take n).map fun y => (lane s x car y).out).foldl fadd acc := by
  induction n generalizing bs acc with
  | zero => simp [mixBands]
  | succ n ih => cases bs <;> simp [mixBands, ih]

/-- The advance keeps the number of slots. -/
@[simp] theorem advanceBands_length (n : Nat) (bs : List Band) : (advanceBands n bs).length = bs.length := by
  induction n generalizing bs with
  | zero => rfl
  | succ n ih => cases bs <;> simp [advanceBands, ih]

/-- HET_PHASE of each of the first `n` slots advances, every later slot is kept (42_tick.md R174). -/
theorem advanceBands_getElem? (n : Nat) (bs : List Band) (b : Nat) :
    (advanceBands n bs)[b]? =
      if b < n then bs[b]?.map fun y => { y with hetPhase := advancePhase y.hetPhase y.hetPinc } else bs[b]? := by
  induction n generalizing bs b with
  | zero => simp [advanceBands]
  | succ n ih =>
    cases bs with
    | nil => simp [advanceBands]
    | cons y ys => cases b <;> simp [advanceBands, ih]

/-- A lane touches neither the phase nor the configuration of its slot. -/
@[simp] theorem lane_hetPhase (s : State) (x car : F64) (b : Band) : (lane s x car b).band.hetPhase = b.hetPhase := rfl
@[simp] theorem lane_hetPinc (s : State) (x car : F64) (b : Band) : (lane s x car b).band.hetPinc = b.hetPinc := rfl
@[simp] theorem lane_bp (s : State) (x car : F64) (b : Band) : (lane s x car b).band.bp = b.bp := rfl

/-- A section's next history: its input and its output before what it held (42_tick.md R153). -/
@[simp] theorem bq_hist (k : CoefSet) (h : History) (x : F64) :
    (bq k h x).hist = ⟨x, h.x1, (bq k h x).out, h.y1⟩ := rfl

/-- A running TICK keeps the number of slots. -/
@[simp] theorem tickRun_bands_length (m c : Word) (s : State) : (tickRun m c s).bands.length = s.bands.length := by
  simp [tickRun_bands, tickMix]

end Sys2Proof.Machine
end

