-- ==== Sys2Proof/Laws/Table.lean ====
section
/-! SUPPORT. The laws of table memory: a read after a write, every other entry left alone, the canonical form kept. -/

namespace Sys2Proof.Machine

/-- A read of the entry just written finds the word. -/
@[simp] theorem findEntry_putEntry_same (t : Table) (i : Nat) (w : Word) : findEntry (putEntry t i w) i = some w := by
  induction t with
  | nil => simp [putEntry, findEntry]
  | cons c t ih =>
    obtain ⟨j, v⟩ := c
    simp only [putEntry]
    split
    · simp [findEntry]
    · split
      · simp [findEntry]
      · simp only [findEntry]; simp_all

/-- A write leaves every other entry of a table alone. -/
theorem findEntry_putEntry_other {t : Table} {i k : Nat} (w : Word) (h : k ≠ i) :
    findEntry (putEntry t i w) k = findEntry t k := by
  induction t with
  | nil => simp only [putEntry, findEntry]; simp [h]
  | cons c t ih =>
    obtain ⟨j, v⟩ := c
    simp only [putEntry]
    split
    · next hij => subst hij; simp [findEntry, h]
    · split
      · next hlt =>
        simp only [findEntry, h, if_false]
        by_cases hk : k < i
        · have : k < j := by omega
          have : k ≠ j := by omega
          simp [*]
        · simp [hk]
      · simp only [findEntry, ih]

/-- Writing an entry twice is writing it once. -/
theorem putEntry_twice (t : Table) (i : Nat) (v w : Word) : putEntry (putEntry t i v) i w = putEntry t i w := by
  induction t with
  | nil => simp [putEntry]
  | cons c t ih =>
    obtain ⟨j, u⟩ := c
    by_cases h : i = j
    · subst h; simp [putEntry]
    · by_cases h' : i < j
      · simp [putEntry, h, h']
      · simp [putEntry, h, h', ih]

/-- A write below the bound keeps the canonical form. -/
theorem tableWfFrom_putEntry {t : Table} {lo hi i : Nat} (w : Word) (h : tableWfFrom lo hi t = true) (hlo : lo ≤ i)
    (hhi : i < hi) : tableWfFrom lo hi (putEntry t i w) = true := by
  induction t generalizing lo with
  | nil => simp [putEntry, tableWfFrom, hlo, hhi]
  | cons c t ih =>
    obtain ⟨j, v⟩ := c
    simp only [tableWfFrom, Bool.and_eq_true, decide_eq_true_eq] at h
    obtain ⟨⟨h1, h2⟩, h3⟩ := h
    simp only [putEntry]
    split
    · next hij => subst hij; simp [tableWfFrom, hlo, hhi, h3]
    · split
      · next hne hlt =>
        have : i + 1 ≤ j := hlt
        simp [tableWfFrom, hlo, hhi, h2, h3, this]
      · next hne hlt =>
        have : j + 1 ≤ i := by omega
        simp [tableWfFrom, h1, h2, ih h3 this]

/-- `tableWf` is kept by a write below the table's depth. -/
theorem tableWf_putEntry {t : Table} {hi i : Nat} (w : Word) (h : tableWf hi t = true) (hi' : i < hi) :
    tableWf hi (putEntry t i w) = true :=
  tableWfFrom_putEntry w h (Nat.zero_le _) hi'

/-- A read of the entry just written returns the word. -/
@[simp] theorem memRead_memWrite_same (s : State) (t : TableId) (i : Nat) (w : Word) :
    memRead (memWrite s t i w) t i = w := by
  simp [memRead, memWrite]

/-- A write leaves every other entry of every table alone. -/
theorem memRead_memWrite_other (s : State) {t u : TableId} {i k : Nat} (w : Word) (h : (u, k) ≠ (t, i)) :
    memRead (memWrite s t i w) u k = memRead s u k := by
  by_cases hut : u = t
  · subst hut
    have hk : k ≠ i := fun hk => h (by rw [hk])
    simp [memRead, memWrite, findEntry_putEntry_other w hk]
  · simp [memRead, memWrite, setTable_table_other s _ hut]

/-- A table write below the depth keeps the canonical form of every table. -/
theorem memWrite_wf {s : State} {t : TableId} {i : Nat} (w : Word) (hi : i < depth s.cfg t)
    (h : ∀ u, tableWf (depth s.cfg u) (s.table u) = true) (u : TableId) :
    tableWf (depth s.cfg u) ((memWrite s t i w).table u) = true := by
  by_cases hut : u = t
  · subst hut; simpa [memWrite] using tableWf_putEntry w (h u) hi
  · simpa [memWrite, setTable_table_other s _ hut] using h u

/-- The reset state's tables have the canonical form: nothing is listed. -/
theorem resetOf_tables_wf (cfg : Config) (t : TableId) :
    tableWf (depth cfg t) ((State.resetOf cfg).table t) = true := by
  cases t <;> rfl

end Sys2Proof.Machine
end

