-- ==== Sys2Proof/Laws/Exec.lean ====
section
/-! SUPPORT. What each meaning, the performing of a command and the step can do, said once: the inversion lemmas that
later proofs cite instead of unfolding. -/

namespace Sys2Proof.Machine

/-- An RDREG ends with ERR_ADDR or responds the register its address selects. -/
theorem execRdreg_cases (addr : Nat) (s : State) :
    (selectReg s.cfg addr = none ∧ execRdreg addr s = .next (raiseError .addr s)) ∨
      ∃ r, selectReg s.cfg addr = some r ∧ execRdreg addr s = .next (respond (s.readReg r) s) := by
  cases h : selectReg s.cfg addr <;> simp [execRdreg, h]

/-- A reserved address is the first error of a WRREG. -/
theorem writeError_of_none {s : State} {addr : Nat} (w : Word) (h : selectReg s.cfg addr = none) :
    writeError s addr w = some .addr := by simp [writeError, h]

/-- A WRREG ends with its first error, or writes the register its address selects. -/
theorem execWrreg_cases (addr : Nat) (w : Word) (s : State) :
    (∃ e, writeError s addr w = some e ∧ execWrreg addr w s = .next (raiseError e s)) ∨
      ∃ r, writeError s addr w = none ∧ selectReg s.cfg addr = some r ∧
        execWrreg addr w s = .next (respond 0 (s.writeReg r w)) := by
  cases hr : selectReg s.cfg addr with
  | none =>
    have he := writeError_of_none w hr
    exact .inl ⟨.addr, he, by simp [execWrreg, he]⟩
  | some r =>
    cases he : writeError s addr w with
    | none => exact .inr ⟨r, rfl, rfl, by simp [execWrreg, he, hr]⟩
    | some e => exact .inl ⟨e, rfl, by simp [execWrreg, he]⟩

/-- What a WRREG that passes its checks knows of its register and word. -/
theorem writeError_none {s : State} {addr : Nat} {w : Word} {r : Reg} (h : writeError s addr w = none)
    (hr : selectReg s.cfg addr = some r) :
    r.access ≠ .ro ∧ (r.access = .rwLocked → s.status.run = false) ∧ legalValue s.cfg r w = true := by
  simp only [writeError, hr] at h
  split at h
  · cases h
  · split at h
    · cases h
    · split at h
      · cases h
      · simp_all

/-- An RDTAB ends with ERR_ADDR or responds the entry it selects. -/
theorem execRdtab_cases (tab idx : Nat) (s : State) :
    (selectEntry s.cfg tab idx = none ∧ execRdtab tab idx s = .next (raiseError .addr s)) ∨
      ∃ t i, selectEntry s.cfg tab idx = some (t, i) ∧ execRdtab tab idx s = .next (respond (memRead s t i) s) := by
  cases h : selectEntry s.cfg tab idx with
  | none => simp [execRdtab, h]
  | some p => exact .inr ⟨p.1, p.2, rfl, by simp [execRdtab, h]⟩

/-- A WRTAB ends with ERR_ADDR, with ERR_BUSY while RUN = 1, or writes the entry it selects. -/
theorem execWrtab_cases (tab idx : Nat) (w : Word) (s : State) :
    (selectEntry s.cfg tab idx = none ∧ execWrtab tab idx w s = .next (raiseError .addr s)) ∨
      ∃ t i, selectEntry s.cfg tab idx = some (t, i) ∧
        ((s.status.run = true ∧ execWrtab tab idx w s = .next (raiseError .busy s)) ∨
          (s.status.run = false ∧ execWrtab tab idx w s = .next (respond 0 (memWrite s t i w)))) := by
  cases h : selectEntry s.cfg tab idx with
  | none => simp [execWrtab, h]
  | some p =>
    refine .inr ⟨p.1, p.2, rfl, ?_⟩
    cases hr : s.status.run <;> simp [execWrtab, h, hr]

/-- The entry a TAB and IDX select lies within the table's depth. -/
theorem selectEntry_lt {cfg : Config} {tab idx i : Nat} {t : TableId} (h : selectEntry cfg tab idx = some (t, i)) :
    i < depth cfg t := by
  simp only [selectEntry] at h
  split at h
  · cases h
  · split at h
    · next hlt => cases h; exact hlt
    · cases h

/-- A START ends with ERR_CFG while NUM_BANDS = 0, else clears and runs. -/
theorem execStart_cases (s : State) :
    (s.numBands = 0 ∧ execStart s = .next (raiseError .cfg s)) ∨
      (s.numBands ≠ 0 ∧ execStart s = .next (respond 0 (startRun s))) := by
  by_cases h : s.numBands = 0
  · exact .inl ⟨h, if_pos h⟩
  · exact .inr ⟨h, if_neg h⟩

/-- A TICK responds +0.0 while RUN = 0, else processes one sample. -/
theorem execTick_cases (m c : Word) (s : State) :
    (s.status.run = false ∧ execTick m c s = .next (respond 0 s)) ∨
      (s.status.run = true ∧ execTick m c s = .next (tickRun m c s)) := by
  cases h : s.status.run <;> simp [execTick, h]

/-- The ways a command can end: what the next state is, whichever command it was. -/
inductive Ends (s : State) : State → Prop where
  | raise (e : ErrCode) : Ends s (raiseError e s)
  | answer (d : Word) : Ends s (respond d s)
  | write (addr : Nat) (r : Reg) (w : Word) (h : writeError s addr w = none) (hr : selectReg s.cfg addr = some r) :
      Ends s (respond 0 (s.writeReg r w))
  | table (t : TableId) (i : Nat) (w : Word) (hi : i < depth s.cfg t) (hr : s.status.run = false) :
      Ends s (respond 0 (memWrite s t i w))
  | start (h : s.numBands ≠ 0) : Ends s (respond 0 (startRun s))
  | stop : Ends s (respond 0 { s with status := s.status.setRun false })
  | tick (m c : Word) (h : s.status.run = true) : Ends s (tickRun m c s)

/-- Every command has a next state, and it is one of those of `Ends`. -/
theorem exec_ends (i : Instr) (s : State) : ∃ t, exec i s = .next t ∧ Ends s t := by
  cases i with
  | nop => exact ⟨_, rfl, .answer 0⟩
  | rdreg addr =>
    rcases execRdreg_cases addr s with ⟨-, h⟩ | ⟨r, -, h⟩
    · exact ⟨_, h, .raise .addr⟩
    · exact ⟨_, h, .answer _⟩
  | wrreg addr w =>
    rcases execWrreg_cases addr w s with ⟨e, -, h⟩ | ⟨r, h1, h2, h⟩
    · exact ⟨_, h, .raise e⟩
    · exact ⟨_, h, .write addr r w h1 h2⟩
  | rdtab tab idx =>
    rcases execRdtab_cases tab idx s with ⟨-, h⟩ | ⟨t, i, -, h⟩
    · exact ⟨_, h, .raise .addr⟩
    · exact ⟨_, h, .answer _⟩
  | wrtab tab idx w =>
    rcases execWrtab_cases tab idx w s with ⟨-, h⟩ | ⟨t, i, h0, ⟨-, h⟩ | ⟨hr, h⟩⟩
    · exact ⟨_, h, .raise .addr⟩
    · exact ⟨_, h, .raise .busy⟩
    · exact ⟨_, h, .table t i w (selectEntry_lt h0) hr⟩
  | start =>
    rcases execStart_cases s with ⟨-, h⟩ | ⟨h0, h⟩
    · exact ⟨_, h, .raise .cfg⟩
    · exact ⟨_, h, .start h0⟩
  | stop => exact ⟨_, rfl, .stop⟩
  | tick m c =>
    rcases execTick_cases m c s with ⟨-, h⟩ | ⟨hr, h⟩
    · exact ⟨_, h, .answer 0⟩
    · exact ⟨_, h, .tick m c hr⟩

/-- Performing an accepted command ends as its command does, or with ERR_OPC. -/
theorem perform_ends (c : Command) (s : State) : ∃ t, perform c s = .next t ∧ Ends s t := by
  unfold perform
  cases decode c with
  | ok i => exact exec_ends i s
  | error e => exact ⟨_, rfl, .raise .opc⟩

/-- A step holds the block in reset, stalls, waits, or performs the oldest offered command. -/
theorem step_cases (s : State) :
    (s.rst = true ∧ step s = .next (resetBlock s)) ∨
      (s.rst = false ∧ cmdReady s = false ∧ step s = .next s) ∨
      (cmdReady s = true ∧ s.offered = [] ∧ step s = .next (accept [] s)) ∨
      ∃ c rest, cmdReady s = true ∧ s.offered = c :: rest ∧ step s = perform c (accept rest s) := by
  unfold step
  cases hr : s.rst with
  | true => simp
  | false =>
    cases hc : cmdReady s with
    | false => simp
    | true => cases ho : s.offered <;> simp

end Sys2Proof.Machine
end

