-- ==== Sys2Proof/Laws/Numerics.lean ====
section
/-! SUPPORT. What the fields of an encoded binary64 or binary32 datum are, and which results are NaNs: the lemmas
later proofs cite instead of unfolding the encodings. -/

namespace Sys2Proof.Machine

/-! ### Fields as arithmetic on the datum -/

theorem expoField_eq (d : F64) : expoField d = d.toNat / 2 ^ 52 % 2 ^ 11 := by
  simp [expoField, BitVec.extractLsb'_toNat, Nat.shiftRight_eq_div_pow]

theorem fracField_eq (d : F64) : fracField d = d.toNat % 2 ^ 52 := by
  simp [fracField, BitVec.extractLsb'_toNat]

theorem signBit_eq (d : F64) : signBit d = decide (2 ^ 63 ≤ d.toNat) := by
  simp [signBit, BitVec.msb_eq_decide]

theorem expoField32_eq (w : Word) : expoField32 w = w.toNat / 2 ^ 23 % 2 ^ 8 := by
  simp [expoField32, BitVec.extractLsb'_toNat, Nat.shiftRight_eq_div_pow]

theorem fracField32_eq (w : Word) : fracField32 w = w.toNat % 2 ^ 23 := by
  simp [fracField32, BitVec.extractLsb'_toNat]

theorem signBit32_eq (w : Word) : signBit32 w = decide (2 ^ 31 ≤ w.toNat) := by
  simp [signBit32, BitVec.msb_eq_decide]

theorem expoField_lt (d : F64) : expoField d < 2048 := by rw [expoField_eq]; omega
theorem fracField_lt (d : F64) : fracField d < 2 ^ 52 := by rw [fracField_eq]; omega
theorem expoField32_lt (w : Word) : expoField32 w < 256 := by rw [expoField32_eq]; omega
theorem fracField32_lt (w : Word) : fracField32 w < 2 ^ 23 := by rw [fracField32_eq]; omega

/-- A datum is determined by its three fields. -/
theorem eq_of_fields {a b : F64} (hs : signBit a = signBit b) (he : expoField a = expoField b)
    (hf : fracField a = fracField b) : a = b := by
  apply BitVec.eq_of_toNat_eq
  rw [signBit_eq, signBit_eq, decide_eq_decide] at hs
  rw [expoField_eq, expoField_eq] at he
  rw [fracField_eq, fracField_eq] at hf
  have := a.isLt
  have := b.isLt
  omega

/-! ### The datum of a sign and an encoding -/

/-- The fields of `ofNat 64 (e + sign)` for an encoding `e` below the sign bit. -/
theorem encoded_fields {e : Nat} (neg : Bool) (he : e < 2 ^ 63) :
    signBit (BitVec.ofNat 64 (e + if neg then 2 ^ 63 else 0)) = neg ∧
      expoField (BitVec.ofNat 64 (e + if neg then 2 ^ 63 else 0)) = e / 2 ^ 52 ∧
      fracField (BitVec.ofNat 64 (e + if neg then 2 ^ 63 else 0)) = e % 2 ^ 52 := by
  rw [signBit_eq, expoField_eq, fracField_eq, BitVec.toNat_ofNat]
  cases neg <;> simp <;> omega

/-- The fields of `ofNat 32 (e + sign)` for an encoding `e` below the sign bit. -/
theorem encoded_fields32 {e : Nat} (neg : Bool) (he : e < 2 ^ 31) :
    signBit32 (BitVec.ofNat 32 (e + if neg then 2 ^ 31 else 0)) = neg ∧
      expoField32 (BitVec.ofNat 32 (e + if neg then 2 ^ 31 else 0)) = e / 2 ^ 23 ∧
      fracField32 (BitVec.ofNat 32 (e + if neg then 2 ^ 31 else 0)) = e % 2 ^ 23 := by
  rw [signBit32_eq, expoField32_eq, fracField32_eq, BitVec.toNat_ofNat]
  cases neg <;> simp <;> omega

theorem infEncoding_eq : infEncoding = 2047 * 2 ^ 52 := by decide
theorem infEncoding32_eq : infEncoding32 = 255 * 2 ^ 23 := by decide

theorem min_infEncoding_lt (m : Nat) : min m infEncoding < 2 ^ 63 := by rw [infEncoding_eq]; omega
theorem min_infEncoding32_lt (m : Nat) : min m infEncoding32 < 2 ^ 31 := by rw [infEncoding32_eq]; omega

/-- A rounded value keeps the sign of the real (40_numerics.md R101). -/
@[simp] theorem signBit_round64 (neg : Bool) (n k : Nat) : signBit (round64 neg n k) = neg :=
  (encoded_fields neg (min_infEncoding_lt _)).1

@[simp] theorem signBit32_round32 (neg : Bool) (n k : Nat) : signBit32 (round32 neg n k) = neg :=
  (encoded_fields32 neg (min_infEncoding32_lt _)).1

/-- Rounding never gives a NaN. -/
@[simp] theorem isNaN_round64 (neg : Bool) (n k : Nat) : isNaN (round64 neg n k) = false := by
  obtain ⟨-, he, hf⟩ := encoded_fields neg (min_infEncoding_lt (roundMagnitude 53 n k))
  rw [isNaN, round64, he, hf, Bool.and_eq_false_iff]
  rw [infEncoding_eq]
  simp only [beq_eq_false_iff_ne, bne_eq_false_iff_eq]
  omega

@[simp] theorem isNaN32_round32 (neg : Bool) (n k : Nat) : isNaN32 (round32 neg n k) = false := by
  obtain ⟨-, he, hf⟩ := encoded_fields32 neg (min_infEncoding32_lt (roundMagnitude 24 n k))
  rw [isNaN32, round32, he, hf, Bool.and_eq_false_iff]
  rw [infEncoding32_eq]
  simp only [beq_eq_false_iff_ne, bne_eq_false_iff_eq]
  omega

/-- Rounding gives an infinity exactly where the encoding reaches the infinity's. -/
theorem isInf_round64 (neg : Bool) (n k : Nat) :
    isInf (round64 neg n k) = decide (infEncoding ≤ roundMagnitude 53 n k) := by
  obtain ⟨-, he, hf⟩ := encoded_fields neg (min_infEncoding_lt (roundMagnitude 53 n k))
  rw [isInf, round64, he, hf, infEncoding_eq, Bool.eq_iff_iff]
  simp only [Bool.and_eq_true, beq_iff_eq, decide_eq_true_eq]
  omega

theorem isInf32_round32 (neg : Bool) (n k : Nat) :
    isInf32 (round32 neg n k) = decide (infEncoding32 ≤ roundMagnitude 24 n k) := by
  obtain ⟨-, he, hf⟩ := encoded_fields32 neg (min_infEncoding32_lt (roundMagnitude 24 n k))
  rw [isInf32, round32, he, hf, infEncoding32_eq, Bool.eq_iff_iff]
  simp only [Bool.and_eq_true, beq_iff_eq, decide_eq_true_eq]
  omega

/-! ### Classes of the special values -/

@[simp] theorem isNaN_canonicalNaN : isNaN canonicalNaN = true := by decide
@[simp] theorem isNaN32_canonicalNaN32 : isNaN32 canonicalNaN32 = true := by decide
@[simp] theorem isNaN_infinity (neg : Bool) : isNaN (infinity neg) = false := by cases neg <;> decide
@[simp] theorem isNaN32_infinity32 (neg : Bool) : isNaN32 (infinity32 neg) = false := by cases neg <;> decide
@[simp] theorem isInf_infinity (neg : Bool) : isInf (infinity neg) = true := by cases neg <;> decide
@[simp] theorem isNaN_zero64 (neg : Bool) : isNaN (zero64 neg) = false := by cases neg <;> decide
@[simp] theorem isZero_zero64 (neg : Bool) : isZero (zero64 neg) = true := by cases neg <;> decide

/-- An infinity is no NaN, and a zero is neither. -/
theorem not_isNaN_of_isInf {d : F64} (h : isInf d = true) : isNaN d = false := by
  simp_all [isInf, isNaN]

theorem not_isNaN_of_isZero {d : F64} (h : isZero d = true) : isNaN d = false := by
  simp_all [isZero, isNaN]

theorem not_isInf_of_isZero {d : F64} (h : isZero d = true) : isInf d = false := by
  simp_all [isZero, isInf]

/-- A zero has magnitude 0, and nothing else does. -/
theorem magnitude_eq_zero_iff (d : F64) : magnitude d = 0 ↔ isZero d = true := by
  unfold magnitude isZero
  split
  · next h => simp [h]
  · next h => simp [h, Nat.shiftLeft_eq]

theorem units_eq_zero_iff (d : F64) : units d = 0 ↔ isZero d = true := by
  rw [← magnitude_eq_zero_iff]
  unfold units
  split <;> omega

/-! ### Values determine data -/

/-- A smaller exponent field has a smaller magnitude. -/
theorem magnitude_lt_of_expo_lt {a b : F64} (h : expoField a < expoField b) : magnitude a < magnitude b := by
  have ha := fracField_lt a
  obtain ⟨m, hm⟩ : ∃ m, expoField b = expoField a + 1 + m := ⟨_, (Nat.add_sub_cancel' h).symm⟩
  have hb : (2 ^ 52 + fracField b) * 2 ^ (expoField a + m) = magnitude b := by
    rw [magnitude, if_neg (by omega), Nat.shiftLeft_eq, hm]; congr 2; omega
  have hpow : 2 ^ expoField a ≤ 2 ^ (expoField a + m) := Nat.pow_le_pow_right (by omega) (by omega)
  have hlow : 2 ^ 52 * 2 ^ expoField a ≤ magnitude b :=
    hb ▸ Nat.mul_le_mul (by omega) hpow
  refine lt_of_lt_of_le ?_ hlow
  unfold magnitude
  split
  · next he => rw [he]; omega
  · next he =>
    rw [Nat.shiftLeft_eq, ← Nat.sub_add_cancel (Nat.one_le_iff_ne_zero.mpr he), Nat.pow_succ, Nat.add_sub_cancel]
    have := Nat.two_pow_pos (expoField a - 1)
    calc (2 ^ 52 + fracField a) * 2 ^ (expoField a - 1) < 2 ^ 53 * 2 ^ (expoField a - 1) :=
          Nat.mul_lt_mul_of_pos_right (by omega) this
      _ = 2 ^ 52 * (2 ^ (expoField a - 1) * 2) := by omega

/-- Equal magnitudes have equal exponent and fraction fields. -/
theorem fields_of_magnitude_eq {a b : F64} (h : magnitude a = magnitude b) :
    expoField a = expoField b ∧ fracField a = fracField b := by
  have he : expoField a = expoField b := by
    rcases lt_trichotomy (expoField a) (expoField b) with hl | he | hl
    · exact absurd h (magnitude_lt_of_expo_lt hl).ne
    · exact he
    · exact absurd h (magnitude_lt_of_expo_lt hl).ne'
  refine ⟨he, ?_⟩
  unfold magnitude at h
  rw [he] at h
  split at h
  · exact h
  · rw [Nat.shiftLeft_eq, Nat.shiftLeft_eq] at h
    have := Nat.eq_of_mul_eq_mul_right (Nat.two_pow_pos _) h
    omega

/-- Two data of one value that is not zero are the same datum. -/
theorem eq_of_units {a b : F64} (h : units a = units b) (hb : units b ≠ 0) : a = b := by
  unfold units at h hb
  cases ha : signBit a <;> cases hs : signBit b <;> simp only [ha, hs, if_true, if_false, Bool.false_eq_true] at h hb <;>
    first
    | exact absurd h (by omega)
    | (obtain ⟨h1, h2⟩ := fields_of_magnitude_eq (a := a) (b := b) (by omega)
       exact eq_of_fields (ha.trans hs.symm) h1 h2)

end Sys2Proof.Machine
end

