-- ==== Sys2Proof/Laws/HostMath.lean ====
section
/-! SUPPORT. Accurate host functions exist: every real has a binary64 value that is it up to the last bit. -/

namespace Sys2Proof.Machine

/-- A finite value is what it is. -/
theorem faithful_of_eq {d : F64} (hd : IsFinite d) {r : ℝ} (h : (units d : ℝ) = r) : Faithful d r :=
  ⟨hd.1, fun _ _ => ⟨fun he => by exact_mod_cast h.trans he.symm, fun hb => by linarith [hb.1, hb.2],
    fun hb => by linarith [hb.1, hb.2]⟩⟩

theorem finite_f64 (s : Set F64) : s.Finite := s.toFinite

/-- Every real has a binary64 value that is it up to the last bit. -/
theorem exists_faithful (r : ℝ) : ∃ y, Faithful y r := by
  by_cases hex : ∃ e, IsFinite e ∧ (units e : ℝ) = r
  · obtain ⟨e, he, hr⟩ := hex
    exact ⟨e, faithful_of_eq he hr⟩
  · have hne : ∀ e, IsFinite e → (units e : ℝ) ≠ r := fun e he hr => hex ⟨e, he, hr⟩
    let below : Set F64 := {e | IsFinite e ∧ (units e : ℝ) < r}
    by_cases hb : below.Nonempty
    · obtain ⟨y, hy, hmax⟩ := Set.exists_max_image below units (finite_f64 _) hb
      exact ⟨y, hy.1.1, fun e he => ⟨fun h => absurd h (hne e he),
        fun h => by have := hmax e ⟨he, h.2⟩; have : (units e : ℝ) ≤ units y := by exact_mod_cast this
                    linarith [h.1],
        fun h => by linarith [hy.2, h.1, h.2]⟩⟩
    · obtain ⟨y, hy, hmin⟩ := Set.exists_min_image {e : F64 | IsFinite e} units (finite_f64 _) ⟨0, by decide⟩
      exact ⟨y, hy.1, fun e he => ⟨fun h => absurd h (hne e he), fun h => hb ⟨e, he, h.2⟩,
        fun h => by have := hmin e he; have : (units y : ℝ) ≤ units e := by exact_mod_cast this
                    linarith [h.2]⟩⟩

/-- Some host has accurate functions: `HostMath.Accurate` can be met. -/
theorem exists_accurate : ∃ hm : HostMath, hm.Accurate := by
  choose f hf using exists_faithful
  refine ⟨⟨fun x => if x = 0 then 0 else f (Real.sin (units x / 2 ^ 1074) * 2 ^ 1074), fun x => f _, fun x => f _,
    fun x => f _⟩, fun x _ => ?_, by simp only [if_true], fun x _ => hf _, fun x _ _ => hf _, fun x _ => hf _⟩
  by_cases hx : x = 0
  · have hz : Faithful 0 (Real.sin (units 0 / 2 ^ 1074) * 2 ^ 1074) :=
      faithful_of_eq (by decide) (by rw [show units 0 = 0 by decide, Int.cast_zero, zero_div, Real.sin_zero, zero_mul])
    simpa only [hx, if_true] using hz
  · simpa only [hx, if_false] using hf _

end Sys2Proof.Machine
end

