-- ==== Sys2Proof/Laws/Host.lean ====
section
/-! SUPPORT. What the host's calls do with the commands they issue, and what its functions give where the spec fixes
them to the last bit. -/

namespace Sys2Proof.Machine

/-! ### Issuing commands -/

/-- Commands issued one list after another are those of both lists. -/
theorem execAll_append (is js : List Instr) (s : State) : execAll (is ++ js) s = execAll js (execAll is s) := by
  induction is generalizing s with
  | nil => rfl
  | cons i is ih =>
    obtain ⟨t, h, -⟩ := exec_ends i s
    simp [execAll, h, ih]

/-- The responses to commands issued one list after another. -/
theorem responsesOf_append (is js : List Instr) (s : State) :
    responsesOf (is ++ js) s = responsesOf is s ++ responsesOf js (execAll is s) := by
  induction is generalizing s with
  | nil => rfl
  | cons i is ih =>
    obtain ⟨t, h, -⟩ := exec_ends i s
    simp [responsesOf, execAll, h, ih]

/-- Issuing two lists one after the other is issuing them as one. -/
theorem issue_issue (is js : List Instr) (c : Call) : (c.issue is).issue js = c.issue (is ++ js) := by
  simp [Call.issue, execAll_append, responsesOf_append]

/-- However a command ends, the block offers a response. -/
theorem Ends.responds {s t : State} (h : Ends s t) : t.rsp.isSome = true := by cases h <;> rfl

/-- Issuing nothing changes nothing. -/
@[simp] theorem issue_nil (c : Call) : c.issue [] = c := by simp [Call.issue, execAll, responsesOf]

/-- Every command issued is answered by one response (30_encoding.md R80). -/
theorem responsesOf_length (is : List Instr) (s : State) : (responsesOf is s).length = is.length := by
  induction is generalizing s with
  | nil => rfl
  | cons i is ih =>
    obtain ⟨t, h, he⟩ := exec_ends i s
    obtain ⟨r, hr⟩ := Option.isSome_iff_exists.mp he.responds
    simp [responsesOf, h, hr, ih]

/-! ### Calls, field by field -/

@[simp] theorem begin_host (h : HostState) (s : State) : (Call.begin h s).host = h := rfl
@[simp] theorem begin_block (h : HostState) (s : State) : (Call.begin h s).block = s := rfl
@[simp] theorem begin_issued (h : HostState) (s : State) : (Call.begin h s).issued = [] := rfl
@[simp] theorem begin_responses (h : HostState) (s : State) : (Call.begin h s).responses = [] := rfl
@[simp] theorem begin_rejected (h : HostState) (s : State) : (Call.begin h s).rejected = none := rfl

@[simp] theorem issue_host (is : List Instr) (c : Call) : (c.issue is).host = c.host := rfl
@[simp] theorem issue_block (is : List Instr) (c : Call) : (c.issue is).block = execAll is c.block := rfl
@[simp] theorem issue_issued (is : List Instr) (c : Call) : (c.issue is).issued = c.issued ++ is := rfl
@[simp] theorem issue_responses (is : List Instr) (c : Call) :
    (c.issue is).responses = c.responses ++ responsesOf is c.block := rfl
@[simp] theorem issue_rejected (is : List Instr) (c : Call) : (c.issue is).rejected = c.rejected := rfl

@[simp] theorem keep_host (f : HostState → HostState) (c : Call) : (c.keep f).host = f c.host := rfl
@[simp] theorem keep_block (f : HostState → HostState) (c : Call) : (c.keep f).block = c.block := rfl
@[simp] theorem keep_issued (f : HostState → HostState) (c : Call) : (c.keep f).issued = c.issued := rfl
@[simp] theorem keep_responses (f : HostState → HostState) (c : Call) : (c.keep f).responses = c.responses := rfl
@[simp] theorem keep_rejected (f : HostState → HostState) (c : Call) : (c.keep f).rejected = c.rejected := rfl

/-! ### Reading STATUS.RUN -/

/-- An RDREG of STATUS answers STATUS and changes nothing else (41_commands.md R122). -/
theorem exec_readStatus (s : State) : exec (readNamed .status) s = .next (respond s.status.word s) := rfl

/-- Bit 0 of STATUS as read is RUN (10_state.md R26). -/
theorem status_word_run (st : Status) : st.word[0] = st.run := by
  obtain ⟨a, b, c, d, e, f, g, h⟩ := st
  revert a b c d e f g h
  decide

/-- What the host reads is the block's own run state (43_host_driver.md R218). -/
theorem lastRun_readStatus (c : Call) : (c.issue [readNamed .status]).lastRun = c.block.status.run := by
  simp [Call.lastRun, responsesOf, exec_readStatus, runningOf, status_word_run]

/-- A reconfiguration reads STATUS, then issues its commands, between a STOP and a START if the block is running
(43_host_driver.md R220). -/
theorem reconfigure_issued (is : List Instr) (c : Call) :
    (c.reconfigure is).issued =
      c.issued ++ readNamed .status :: (if c.block.status.run then .stop :: is ++ [.start] else is) := by
  simp only [Call.reconfigure, lastRun_readStatus]
  split <;> simp

@[simp] theorem reconfigure_host (is : List Instr) (c : Call) : (c.reconfigure is).host = c.host := by
  simp only [Call.reconfigure]; split <;> rfl

@[simp] theorem reconfigure_rejected (is : List Instr) (c : Call) : (c.reconfigure is).rejected = c.rejected := by
  simp only [Call.reconfigure]; split <;> rfl

/-! ### Plans performed alone -/

/-- Commands performed alone are issued one after another. -/
theorem perform_commandsAt {p : Place} (hp : p ≠ .afterTick) (is : List Instr) (c : Call) :
    (commandsAt p is).foldl Call.perform c = c.issue is := by
  induction is generalizing c with
  | nil => exact (issue_nil c).symm
  | cons i is ih =>
    have h : c.perform (.command p i id) = c.issue [i] := by cases p <;> first | rfl | exact absurd rfl hp
    show (commandsAt p is).foldl Call.perform (c.perform (.command p i id)) = _
    rw [h, ih, issue_issue]
    rfl

/-- What the host keeps goes with the first command. -/
theorem perform_commands (keep : HostState → HostState) (i : Instr) (is : List Instr) (c : Call) :
    (commands keep (i :: is)).foldl Call.perform c = (c.keep keep).issue (i :: is) := by
  show (commandsAt .anywhere is).foldl Call.perform ((c.issue [i]).keep keep) = _
  rw [perform_commandsAt (by decide)]
  exact issue_issue [i] is (c.keep keep)

/-- On the block, commands performed alone are the commands in order. -/
theorem perform_commands_block (keep : HostState → HostState) (is : List Instr) (c : Call) :
    ((commands keep is).foldl Call.perform c).block = execAll is c.block := by
  cases is with
  | nil => rfl
  | cons i is => rw [perform_commands]; rfl

/-- A STOP ... START sequence performed alone. -/
theorem perform_restartAround (keep : HostState → HostState) (is : List Instr) (c : Call) :
    (restartAround keep is).foldl Call.perform c = (c.keep keep).issue (.stop :: is ++ [.start]) := by
  show (commandsAt .inSequence (is ++ [.start])).foldl Call.perform ((c.issue [.stop]).keep keep) = _
  rw [perform_commandsAt (by decide)]
  exact issue_issue [.stop] (is ++ [.start]) (c.keep keep)

/-- An action that waits for no TICK is its command and then the actions it leads to: what the session does with it, with no
TICK in between, is what performing it alone does. -/
theorem perform_eq_issue {a : Action} (ha : a.place ≠ .afterTick) (c : Call) :
    c.perform a = (a.issue c).2.foldl Call.perform (a.issue c).1 := by
  cases a with
  | command p i keep => cases p <;> first | rfl | exact absurd rfl ha
  | reconfigure is keep =>
    simp only [Action.issue]
    split
    · next h => rw [perform_restartAround, Call.perform, Call.reconfigure]; exact if_pos h
    · next h =>
      have hr : (c.perform (.reconfigure is keep)) = ((c.issue [readNamed .status]).keep keep).issue is := by
        rw [Call.perform, Call.reconfigure]
        exact if_neg h
      rw [hr]
      cases is with
      | nil => rw [issue_nil]; rfl
      | cons i is => rw [perform_commands]; rfl

/-- A band configuration performed alone is rejected with nothing done, or keeps the current band parameters and writes the
plan. -/
theorem configureBands_cases (hm : HostMath) (startHz endHz : F64) (n : Nat) (h : HostState) (s : State) :
    (bandsRejected hm s.cfg h.params startHz endHz n = true ∧
      configureBands hm startHz endHz n h s = ⟨h, s, [], [], some .configuration⟩) ∨
    (bandsRejected hm s.cfg h.params startHz endHz n = false ∧
      configureBands hm startHz endHz n h s = ((Call.begin h s).keep (HostState.setParams fun p =>
        { p with startHz := startHz, endHz := endHz, bandCount := n })).reconfigure
        (writeBands hm h.params startHz endHz n)) := by
  simp only [configureBands, Procedure.alone, Procedure.plan, bandsPlan]
  cases bandsRejected hm s.cfg h.params startHz endHz n
  · exact .inr ⟨rfl, rfl⟩
  · exact .inl ⟨rfl, rfl⟩

/-! ### Sessions -/

/-- A granted command is one of a thread that waits and that the other is not owed, and the thread it passes is owed the
next (43_host_driver.md R224). -/
theorem react_grant {hm : HostMath} {cfg : Config} {x y : Session} {t : Thread}
    (h : x.react hm (.grant t : Event cfg) = some y) :
    x.waits t = true ∧ x.owed ≠ some t.other ∧ y.call.block.bootHeld = true ∧
      y = { x.accept t with owed := if x.waits t.other then some t.other else none } := by
  simp only [Session.react] at h
  split at h
  · next hc => cases h; exact ⟨hc.1, hc.2.1, hc.2.2, rfl⟩
  · cases h

/-- What a thread is owed, no call, no read and no beginning of a block takes away. -/
theorem react_keeps_owed {hm : HostMath} {cfg : Config} {x y : Session} {e : Event cfg} (he : ∀ t, e ≠ .grant t)
    (h : x.react hm e = some y) : y.owed = x.owed := by
  cases e with
  | grant t => exact absurd rfl (he t)
  | call q => simp only [Session.react] at h; split at h <;> cases h; rfl
  | read r => cases h; rfl
  | beginBlock => simp only [Session.react] at h; split at h <;> cases h; rfl

/-- An RDREG of the ENV of a band slot the instance has answers it and changes nothing else
(41_commands.md R122). -/
theorem exec_readEnv {s : State} {b : Nat} (hb : b < s.cfg.maxBands) :
    exec (readNamed (.band b .env)) s = .next (respond (s.band b).env s) := by
  have hsel : selectReg s.cfg (Reg.band b .env).address = some (.band b .env) := by
    have h1 : (0x100 + 16 * b + 12 - 0x100) / 16 = b := by omega
    have h2 : (0x100 + 16 * b + 12) % 16 = 12 := by omega
    have h3 : ¬0x100 + 16 * b + 12 < 0x100 := by omega
    show selectReg s.cfg (0x100 + 16 * b + 12) = _
    simp only [selectReg, h1, h2, h3, hb, if_true, if_false]
    rfl
  show execRdreg _ _ = _
  simp only [execRdreg, hsel]
  rfl

/-- An ENV can be read at any place, whatever is left of the procedure and of the audio block (43_host_driver.md R227): unless
the audio thread is owed the next command, the control thread may be granted its oldest read, which answers the envelope the
block holds and leaves the procedure, the audio block and the tables where they are. -/
theorem grant_reads_env {hm : HostMath} {cfg : Config} {x : Session} {b : Nat} {rest : List Reg}
    (hr : x.reads = .band b .env :: rest) (ho : x.owed ≠ some .audio) (hb : b < x.call.block.cfg.maxBands)
    (hs : x.call.block.bootHeld = true) :
    x.react hm (.grant .control : Event cfg) = some { x with
      call := { x.call with block := respond (x.call.block.band b).env x.call.block }
      reads := rest
      answers := x.answers ++ [⟨(x.call.block.band b).env, .ok⟩]
      owed := if 0 < x.ticksLeft then some .audio else none } := by
  have ha : x.accept .control = { x with
      call := { x.call with block := respond (x.call.block.band b).env x.call.block }
      reads := rest
      answers := x.answers ++ [⟨(x.call.block.band b).env, .ok⟩] } := by
    simp only [Session.accept, hr, Session.read, execAll, responsesOf, exec_readEnv hb]
    rfl
  have ht : (respond (x.call.block.band b).env x.call.block).bootHeld = true := hs
  simp [Session.react, ha, ht, ho, Thread.other, Session.waits, hr]

/-- No thread waits beyond one command of the other (43_host_driver.md R224): after a command of `t` that passed a waiting
command of the other thread, the next granted is the other thread's. -/
theorem grant_is_fair {hm : HostMath} {cfg : Config} {x y z : Session} {t u : Thread}
    (hw : x.waits t.other = true) (h : x.react hm (.grant t : Event cfg) = some y)
    (h' : y.react hm (.grant u : Event cfg) = some z) : u = t.other := by
  obtain ⟨-, -, -, rfl⟩ := react_grant h
  have ho := (react_grant h').2.1
  simp only [hw, if_true] at ho
  cases t <;> cases u <;> first | rfl | exact absurd rfl ho

/-- No audio block begins within a STOP ... START sequence, nor while one waits for the boundary (43_host_driver.md R224). -/
theorem sequence_stands_whole {hm : HostMath} {cfg : Config} {x : Session} {a : Action} {rest : List Action}
    (ht : x.todo = a :: rest) (ha : a.place = .atBoundary ∨ a.place = .inSequence) :
    x.react hm (.beginBlock : Event cfg) = none := by
  rcases ha with ha | ha <;> simp [Session.react, Session.blockMayBegin, ht, ha]

/-! ### Where the spec fixes the host's functions to the last bit -/

/-- 2 to the power +0.0 is 1.0, where the functions are accurate. -/
theorem exp2_zero {hm : HostMath} (h : hm.Accurate) : hm.exp2 0 = one64 := by
  have hone : units one64 = ((1 <<< 1074 : Nat) : Int) := by decide +kernel
  have hr : ((units one64 : Int) : ℝ) = (2 : ℝ) ^ ((units 0 : ℝ) / 2 ^ 1074) * 2 ^ 1074 := by
    rw [hone, show units 0 = 0 by decide, Nat.one_shiftLeft, Int.cast_natCast, Nat.cast_pow, Nat.cast_ofNat,
      Int.cast_zero, zero_div, Real.rpow_zero, one_mul]
  exact eq_of_units (((h.exp2 0 (by decide)).2 one64 (by decide)).1 hr) (by rw [hone]; decide +kernel)

/-- The logarithm of 2.0 is 1.0, where the functions are accurate. -/
theorem log2_two {hm : HostMath} (h : hm.Accurate) : hm.log2 two64 = one64 := by
  have hone : units one64 = ((1 <<< 1074 : Nat) : Int) := by decide +kernel
  have htwo : units two64 = ((2 * 1 <<< 1074 : Nat) : Int) := by decide +kernel
  have hr : ((units one64 : Int) : ℝ) = Real.logb 2 ((units two64 : Int) / 2 ^ 1074) * 2 ^ 1074 := by
    rw [hone, htwo, Nat.one_shiftLeft, Int.cast_natCast, Int.cast_natCast, Nat.cast_mul, Nat.cast_pow, Nat.cast_ofNat,
      mul_div_cancel_right₀ _ (by positivity), Real.logb_self_eq_one (by norm_num), one_mul]
  exact eq_of_units (((h.log2 two64 (by decide) (by decide +kernel)).2 one64 (by decide)).1 hr)
    (by rw [hone]; decide +kernel)

/-- With no detune, the oscillator's increment is that of the base frequency itself (43_host_driver.md R211). -/
theorem oscIncrement_no_detune {hm : HostMath} (h : hm.Accurate) (f fs : F64) :
    oscIncrement hm f 0 fs = hostRoundU32 (fmul (hostDiv (fmul f one64) fs) two32as64) := by
  rw [oscIncrement, show hostDiv 0 cents64 = 0 by decide +kernel, exp2_zero h]

/-- A zero angle, for every depth a table can have. -/
theorem zero_angle {l : Nat} (h1 : 1 ≤ l) (h2 : l ≤ 24) :
    hostDiv (fmul (fmul (fmul two64 pi64) (ofNat64 1)) (ofNat64 0)) (ofNat64 (2 ^ l)) = 0 := by
  interval_cases l <;> decide +kernel

/-- SINE[0] is +0.0 (43_host_driver.md R212). -/
theorem sineWords_zero {hm : HostMath} (h : hm.Accurate) {cfg : Config} (hc : cfg.Legal) :
    (sineWords hm cfg)[0]? = some 0 := by
  have hz : narrow (sineOf hm 1 0 cfg.sineLog2) = 0 := by
    rw [sineOf, zero_angle hc.2.1.1 hc.2.1.2, h.sinZero]
    decide +kernel
  simp [sineWords, hz]

end Sys2Proof.Machine
end

