-- ==== Sys2Proof/Laws/HostBoot.lean ====
section
/-! SUPPORT. `init` meets the boot requirements of 70_reset_and_hazards.md R253: whatever the block held, it leaves it Idle
with every table entry written that a TICK can read. -/

namespace Sys2Proof.Machine

/-! ### What commands keep -/

@[simp] theorem raiseError_run (e : ErrCode) (s : State) : (raiseError e s).status.run = s.status.run := by
  cases e <;> rfl

/-- A written table entry stays written, whatever the command. -/
theorem exec_keeps_written {i : Instr} {s t : State} (h : exec i s = .next t) {x : TableId} {j : Nat}
    (hw : (findEntry (s.table x) j).isSome = true) : (findEntry (t.table x) j).isSome = true := by
  obtain ⟨u, hu, he⟩ := exec_ends i s
  obtain rfl : u = t := by rw [hu] at h; cases h; rfl
  cases he with
  | raise | answer | write | start | tick => simpa using hw
  | stop => cases x <;> exact hw
  | table t k w =>
    rw [respond_table]
    by_cases hx : x = t
    · subst hx
      by_cases hj : j = k
      · simp [memWrite, hj]
      · simpa [memWrite, findEntry_putEntry_other w hj] using hw
    · simpa [memWrite, setTable_table_other s _ hx] using hw

/-- While Idle a command that is no START leaves the block Idle. -/
theorem exec_idle {i : Instr} {s : State} (hi : i ≠ .start) (hr : s.status.run = false) :
    ∃ t, exec i s = .next t ∧ t.status.run = false ∧ t.cfg = s.cfg := by
  cases i with
  | nop => exact ⟨_, rfl, hr, rfl⟩
  | rdreg a =>
    rcases execRdreg_cases a s with ⟨-, h⟩ | ⟨r, -, h⟩ <;> exact ⟨_, h, by simpa using hr, by simp⟩
  | wrreg a w =>
    rcases execWrreg_cases a w s with ⟨e, -, h⟩ | ⟨r, -, -, h⟩ <;> exact ⟨_, h, by simpa using hr, by simp⟩
  | rdtab a j =>
    rcases execRdtab_cases a j s with ⟨-, h⟩ | ⟨t, k, -, h⟩ <;> exact ⟨_, h, by simpa using hr, by simp⟩
  | wrtab a j w =>
    rcases execWrtab_cases a j w s with ⟨-, h⟩ | ⟨t, k, -, ⟨-, h⟩ | ⟨-, h⟩⟩ <;> exact ⟨_, h, by simpa using hr, by simp⟩
  | start => exact absurd rfl hi
  | stop => exact ⟨_, rfl, rfl, rfl⟩
  | tick m c =>
    rcases execTick_cases m c s with ⟨-, h⟩ | ⟨h0, -⟩
    · exact ⟨_, h, by simpa using hr, by simp⟩
    · rw [hr] at h0; cases h0

/-- No command of the list is a START. -/
abbrev NoStart (is : List Instr) : Prop := ∀ i, i ∈ is → i ≠ .start

/-- Commands with no START leave an Idle block Idle, its parameters the same. -/
theorem execAll_idle {is : List Instr} (hi : NoStart is) {s : State} (hr : s.status.run = false) :
    (execAll is s).status.run = false ∧ (execAll is s).cfg = s.cfg := by
  induction is generalizing s with
  | nil => exact ⟨hr, rfl⟩
  | cons i is ih =>
    obtain ⟨t, h, hr', hc⟩ := exec_idle (hi i (by simp)) hr
    rw [execAll, h]
    exact hc ▸ ih (fun j hj => hi j (by simp [hj])) hr'

/-- Entries written stay written under any commands. -/
theorem execAll_keeps_written {is : List Instr} {s : State} {x : TableId} {n : Nat} (h : s.written x n = true) :
    (execAll is s).written x n = true := by
  induction is generalizing s with
  | nil => exact h
  | cons i is ih =>
    obtain ⟨t, ht, -⟩ := exec_ends i s
    rw [execAll, ht]
    refine ih ?_
    simp only [State.written, List.all_eq_true] at h ⊢
    exact fun j hj => exec_keeps_written ht (h j hj)

/-! ### Loading a table -/

/-- A WRTAB of an entry within the depth, while Idle, writes it (41_commands.md R130). -/
theorem exec_wrtab_idle {s : State} {t : TableId} {i : Nat} (w : Word) (hi : i < depth s.cfg t)
    (hr : s.status.run = false) : exec (.wrtab (tabOf t) i w) s = .next (respond 0 (memWrite s t i w)) := by
  have hs : selectEntry s.cfg (tabOf t) i = some (t, i) := by cases t <;> simp [selectEntry, tableOfTab, tabOf, hi]
  show execWrtab _ _ _ _ = _
  simp [execWrtab, hs, hr]

theorem loadFrom_noStart (t : Nat) (i : Nat) (ws : List Word) : NoStart (loadFrom t i ws) := by
  induction ws generalizing i with
  | nil => nofun
  | cons w ws ih => simpa [loadFrom, NoStart] using ih (i + 1)

/-- Loading words from entry `i` on, while Idle, writes the entries up to the last and keeps OSC_SEL. -/
theorem loadFrom_writes {s : State} {t : TableId} {i : Nat} {ws : List Word} (hfit : i + ws.length ≤ depth s.cfg t)
    (hr : s.status.run = false) (h : s.written t i = true) :
    (execAll (loadFrom (tabOf t) i ws) s).written t (i + ws.length) = true ∧
      (execAll (loadFrom (tabOf t) i ws) s).oscSel = s.oscSel := by
  induction ws generalizing s i with
  | nil => exact ⟨h, rfl⟩
  | cons w ws ih =>
    simp only [List.length_cons] at hfit
    have he := exec_wrtab_idle (s := s) (t := t) (i := i) w (by omega) hr
    rw [loadFrom, execAll, he]
    have hw : (respond 0 (memWrite s t i w)).written t (i + 1) = true := by
      simp only [State.written, List.all_eq_true, List.mem_range] at h ⊢
      intro j hj
      by_cases hji : j = i
      · simp [hji, memWrite]
      · exact exec_keeps_written he (h j (by omega))
    have hfit' : i + 1 + ws.length ≤ depth (respond 0 (memWrite s t i w)).cfg t := by
      rw [respond_cfg, memWrite_cfg]
      omega
    obtain ⟨h1, h2⟩ := ih hfit' (by simpa using hr) hw
    refine ⟨?_, by simpa using h2⟩
    rw [List.length_cons, show i + (ws.length + 1) = i + 1 + ws.length by omega]
    exact h1

/-- LOADTAB of as many words as the table has entries, while Idle, writes the first of them all. -/
theorem loadTab_writes {s : State} {t : TableId} {ws : List Word} (hfit : ws.length ≤ depth s.cfg t)
    (hr : s.status.run = false) :
    (execAll (loadTab (tabOf t) ws) s).written t ws.length = true ∧ (execAll (loadTab (tabOf t) ws) s).oscSel = s.oscSel := by
  simpa [loadTab] using loadFrom_writes (i := 0) (by simpa using hfit) hr (by simp [State.written])

/-! ### The commands of init -/

theorem writeCoefs_noStart (reg : CoefHalf → Reg) (k : Coefs) : NoStart (writeCoefs reg k) := by
  simp [NoStart, writeCoefs, writeCoef, writeNamed]

theorem configureFrom_noStart (hm : HostMath) (p : HostParams) (b : Nat) (cs : List F64) :
    NoStart (configureFrom hm p b cs) := by
  induction cs generalizing b with
  | nil => nofun
  | cons c cs ih =>
    simp only [NoStart, configureFrom, configureBand, List.mem_append, List.mem_singleton]
    rintro i ((h | rfl) | h)
    · exact writeCoefs_noStart _ _ i h
    · nofun
    · exact ih _ i h

theorem writeBands_noStart (hm : HostMath) (p : HostParams) (startHz endHz : F64) (n : Nat) :
    NoStart (writeBands hm p startHz endHz n) := by
  simp only [NoStart, writeBands, List.mem_cons]
  rintro i (rfl | h)
  · nofun
  · exact configureFrom_noStart _ _ _ _ i h

theorem selectOscillator_noStart (hm : HostMath) {cfg : Config} (p : HostParams) (o : Oscillator cfg) :
    NoStart (selectOscillator hm p o) := by
  cases o <;> simp only [NoStart, selectOscillator, selectSource, List.mem_append, List.mem_cons, List.not_mem_nil, or_false]
  case sawtooth => rintro i (rfl | rfl) <;> nofun
  all_goals
    rintro i (h | rfl | rfl)
    · exact loadFrom_noStart _ _ _ i h
    · nofun
    · nofun

theorem writeSections_noStart (hm : HostMath) (cfg : Config) (p : HostParams) : NoStart (writeSections hm cfg p) := by
  simp only [NoStart, writeSections, List.mem_append]
  rintro i (((h | h) | h) | h)
  · exact loadFrom_noStart _ _ _ i h
  · exact writeCoefs_noStart _ _ i h
  · exact writeCoefs_noStart _ _ i h
  · revert i
    simp [writeGains, writeNamed]

/-- Setting an oscillator up while Idle leaves WAVE written whole, or OSC_SEL = 1 (70_reset_and_hazards.md R253). -/
theorem selectOscillator_loads (hm : HostMath) (p : HostParams) {s : State} {cfg : Config} (hcfg : s.cfg = cfg)
    (o : Oscillator cfg) (hr : s.status.run = false) :
    (execAll (selectOscillator hm p o) s).oscSel = true ∨
      (execAll (selectOscillator hm p o) s).written .wave (depth cfg .wave) = true := by
  subst hcfg
  have key : ∀ (ws : List Word) (is : List Instr), ws.length = depth s.cfg .wave →
      (execAll (loadTab (tabOf .wave) ws ++ is) s).written .wave (depth s.cfg .wave) = true := fun ws is hl => by
    rw [execAll_append, ← hl]
    exact execAll_keeps_written (loadTab_writes hl.le hr).1
  cases o with
  | harmonics => exact .inr (key _ _ (by simp [waveWords, depth]))
  | sawtooth => exact .inl rfl
  | sawtoothTable period fills => exact .inr (key _ _ fills)

/-- Loading a noise ring while Idle writes its entries, sets NOISE_LEN to their number and keeps OSC_SEL. -/
theorem loadNoise_loads {s : State} {cfg : Config} (hcfg : s.cfg = cfg) (ring : NoiseRing cfg) (hc : cfg.Legal)
    (hr : s.status.run = false) :
    (execAll (loadNoise ring) s).written .noise (execAll (loadNoise ring) s).noiseLen.toNat = true ∧
      (execAll (loadNoise ring) s).oscSel = s.oscSel ∧ (execAll (loadNoise ring) s).status.run = false ∧
      (execAll (loadNoise ring) s).cfg = cfg := by
  subst hcfg
  obtain ⟨h1, h2⟩ := loadTab_writes ring.fits hr
  obtain ⟨h3, h4⟩ := execAll_idle (is := loadTab (tabOf .noise) ring.words) (loadFrom_noStart _ 0 ring.words) hr
  have hdepth : depth s.cfg .noise ≤ 2 ^ 24 := Nat.pow_le_pow_right (by omega) hc.2.2.2.2
  have hlen : (BitVec.ofNat 32 ring.words.length).toNat = ring.words.length := by
    rw [BitVec.toNat_ofNat, Nat.mod_eq_of_lt]
    have := ring.fits
    omega
  have he : exec (writeNamed .noiseLen (BitVec.ofNat 32 ring.words.length)) (execAll (loadTab (tabOf .noise) ring.words) s) =
      .next (respond 0 { execAll (loadTab (tabOf .noise) ring.words) s with
        noiseLen := BitVec.ofNat 32 ring.words.length }) := by
    have hlegal : legalValue (execAll (loadTab (tabOf .noise) ring.words) s).cfg .noiseLen
        (BitVec.ofNat 32 ring.words.length) = true := by
      simp only [legalValue, hlen, h4, decide_eq_true_eq]
      exact ⟨ring.nonempty, ring.fits⟩
    have hsel : selectReg (execAll (loadTab (tabOf .noise) ring.words) s).cfg Reg.noiseLen.address = some .noiseLen := rfl
    show execWrreg _ _ _ = _
    simp [execWrreg, writeError, hsel, hlegal, Reg.access, h3, State.writeReg]
  rw [loadNoise, execAll_append, execAll, he]
  exact ⟨hlen.symm ▸ h1, h2, h3, h4⟩

theorem setUp_noStart (hm : HostMath) {cfg : Config} (p : HostParams) (o : Oscillator cfg) (ring : NoiseRing cfg) :
    NoStart (setUp hm p o ring) := by
  simp only [NoStart, setUp, loadNoise, List.mem_append, List.mem_singleton]
  rintro i ((h | h) | (h | rfl))
  · exact writeSections_noStart _ _ _ i h
  · exact selectOscillator_noStart _ _ _ i h
  · exact loadFrom_noStart _ _ _ i h
  · nofun

/-- What `init` issues after its band configuration leaves an Idle block loaded. -/
theorem setUp_loads (hm : HostMath) (p : HostParams) {s : State} {cfg : Config} (hcfg : s.cfg = cfg)
    (o : Oscillator cfg) (ring : NoiseRing cfg) (hc : cfg.Legal) (hr : s.status.run = false) :
    (execAll (setUp hm p o ring) s).loaded = true ∧ (execAll (setUp hm p o ring) s).status.run = false := by
  subst hcfg
  rw [setUp, execAll_append, execAll_append]
  obtain ⟨hr1, hc1⟩ := execAll_idle (writeSections_noStart hm s.cfg p) hr
  have hsine : (execAll (writeSections hm s.cfg p) s).written .sine (depth s.cfg .sine) = true := by
    have hl : (sineWords hm s.cfg).length = depth s.cfg .sine := by simp [sineWords, depth]
    rw [writeSections, List.append_assoc, List.append_assoc, execAll_append, ← hl]
    exact execAll_keeps_written (loadTab_writes hl.le hr).1
  obtain ⟨hr2, hc2⟩ := execAll_idle (selectOscillator_noStart hm p o) hr1
  obtain ⟨hn, ho, hr3, hc3⟩ := loadNoise_loads (hc2.trans hc1) ring hc hr2
  refine ⟨?_, hr3⟩
  have hwave := selectOscillator_loads hm p hc1 o hr1
  simp only [State.loaded, Bool.and_eq_true, Bool.or_eq_true, hc3]
  exact ⟨⟨execAll_keeps_written (execAll_keeps_written hsine), hwave.imp (ho.trans ·) execAll_keeps_written⟩, hn⟩

/-! ### The session through init -/

/-- An action that leaves an Idle block Idle: a command that is no START, or a reconfiguration without one. -/
def Action.staysIdle : Action → Prop
  | .command _ i _ => i ≠ .start
  | .reconfigure is _ => NoStart is

theorem commandsAt_staysIdle {p : Place} {is : List Instr} (h : NoStart is) :
    ∀ a, a ∈ commandsAt p is → a.staysIdle := by
  simp only [commandsAt, List.mem_map]
  rintro a ⟨i, hi, rfl⟩
  exact h i hi

theorem commands_staysIdle {keep : HostState → HostState} {is : List Instr} (h : NoStart is) :
    ∀ a, a ∈ commands keep is → a.staysIdle := by
  cases is with
  | nil => nofun
  | cons i is =>
    simp only [commands, List.mem_cons]
    rintro a (rfl | ha)
    · exact h i (by simp)
    · exact commandsAt_staysIdle (fun j hj => h j (by simp [hj])) a ha

/-- Such actions performed alone leave an Idle block Idle, its parameters the same. -/
theorem perform_idle {as : List Action} (ha : ∀ a, a ∈ as → a.staysIdle) {c : Call} (hr : c.block.status.run = false) :
    (as.foldl Call.perform c).block.status.run = false ∧ (as.foldl Call.perform c).block.cfg = c.block.cfg := by
  induction as generalizing c with
  | nil => exact ⟨hr, rfl⟩
  | cons a as ih =>
    have step : (c.perform a).block.status.run = false ∧ (c.perform a).block.cfg = c.block.cfg := by
      have h1 := ha a (by simp)
      cases a with
      | command p i keep =>
        have hone : NoStart [i] := fun j hj => List.mem_singleton.mp hj ▸ h1
        cases p with
        | afterTick =>
          have ht := execAll_idle (is := [.tick c.host.modulatorSample
            (loopedSample c.host.carrier c.host.carrierPos)]) (by simp [NoStart]) hr
          have hi := execAll_idle hone ht.1
          exact ⟨hi.1, hi.2.trans ht.2⟩
        | anywhere | atBoundary | inSequence => exact execAll_idle hone hr
      | reconfigure is keep =>
        have hidle : (c.keep keep).reconfigure is = (c.keep keep).issue (readNamed .status :: is) := by
          simp [Call.reconfigure, lastRun_readStatus, hr, issue_issue]
        rw [Call.perform, hidle]
        refine execAll_idle (fun i hi => ?_) hr
        rcases List.mem_cons.mp hi with rfl | hi
        · nofun
        · exact h1 i hi
    obtain ⟨h2, h3⟩ := ih (fun b hb => ha b (by simp [hb])) step.1
    exact ⟨h2, h3.trans step.2⟩

/-- The band configuration of a plan has no START of its own. -/
theorem bandsPlan_staysIdle (hm : HostMath) (cfg : Config) (p : HostParams) (startHz endHz : F64) (n : Nat) :
    ∀ a, a ∈ (bandsPlan hm cfg p startHz endHz n).actions → a.staysIdle := by
  unfold bandsPlan
  split
  · nofun
  · simp only [List.mem_singleton]
    rintro a rfl
    exact writeBands_noStart _ _ _ _ _

/-- `init` performed alone, unless it rejects its configuration, leaves the block Idle and loaded
(70_reset_and_hazards.md R253). -/
theorem init_loads (hm : HostMath) (sampleRate : F64) (h : HostState) {s : State} (o : Oscillator s.cfg)
    (ring : NoiseRing s.cfg) (hc : s.cfg.Legal)
    (hok : ((Procedure.init sampleRate o ring).plan hm h.params).rejected = none) :
    ((Procedure.init sampleRate o ring).alone hm h s).block.loaded = true ∧
      ((Procedure.init sampleRate o ring).alone hm h s).block.status.run = false := by
  revert hok
  simp only [Procedure.alone, Procedure.plan, initPlan, Plan.alone]
  split
  · intro _
    rw [List.foldl_append, List.foldl_append, perform_commands]
    have hstop := execAll_idle (is := clrStat) (s := respond 0 { s with status := s.status.setRun false })
      (by simp [NoStart, clrStat, writeNamed]) rfl
    obtain ⟨hr, hcfg⟩ := perform_idle (bandsPlan_staysIdle hm s.cfg { h.params with fs := sampleRate } h.params.startHz
      h.params.endHz h.params.bandCount) (c := (({ Call.begin h s with rejected := none }).keep
        (HostState.setParams fun q => { q with fs := sampleRate })).issue (.stop :: clrStat)) hstop.1
    have key := setUp_loads hm (HostParams.choose o { h.params with fs := sampleRate }) (hcfg.trans hstop.2) o ring hc hr
    rw [perform_commands_block]
    exact key
  · nofun

end Sys2Proof.Machine
end

