-- ==== Sys2Proof/Laws/PerInstr.lean ====
section
/-! SUPPORT. Statements made of every command, one lemma per constructor: the words of a well-formed command select
the row of the opcode map that bears its mnemonic (30_encoding.md R87). -/

namespace Sys2Proof.Laws.EncodingSelectsRow

/-- The row of the opcode map with the command's mnemonic selects its encoded word. -/
def Statement (i : Instr) : Prop :=
  i.wellFormed = true → ∃ r ∈ opcodeRows, r.mnemonic = i.mnemonic ∧ r.selects (encode i).cmd = true

theorem formatR_selects (op : BitVec 4) (addr : Nat) : formatR op addr &&& 0xFFFF0000 = (op ++ 0#12) ++ 0#16 := by
  have h : (0xFFFF0000 : Word) = BitVec.allOnes 16 ++ 0#16 := by decide
  rw [formatR, h, BitVec.and_append, BitVec.and_allOnes, BitVec.and_zero]

theorem formatT_selects (op : BitVec 4) (tab idx : Nat) :
    formatT op tab idx &&& 0xF0000000 = (op ++ 0#4) ++ 0#24 := by
  have h : (0xF0000000 : Word) = (BitVec.allOnes 4 ++ 0#4) ++ 0#24 := by decide
  rw [formatT, h, BitVec.and_append, BitVec.and_append, BitVec.and_allOnes, BitVec.and_zero, BitVec.and_zero]

theorem nop : Statement .nop := fun _ => 
  ⟨⟨"NOP", 0x00000000, 0xFFFFFFFF⟩, by simp [opcodeRows], rfl, by decide⟩

theorem rdreg (addr : Nat) : Statement (.rdreg addr) := fun _ =>
  ⟨⟨"RDREG", 0x10000000, 0xFFFF0000⟩, by simp [opcodeRows], rfl, by
    simp only [OpcodeRow.selects, encode, formatR_selects]; decide⟩

theorem wrreg (addr : Nat) (w : Word) : Statement (.wrreg addr w) := fun _ =>
  ⟨⟨"WRREG", 0x20000000, 0xFFFF0000⟩, by simp [opcodeRows], rfl, by
    simp only [OpcodeRow.selects, encode, formatR_selects]; decide⟩

theorem rdtab (tab idx : Nat) : Statement (.rdtab tab idx) := fun _ =>
  ⟨⟨"RDTAB", 0x30000000, 0xF0000000⟩, by simp [opcodeRows], rfl, by
    simp only [OpcodeRow.selects, encode, formatT_selects]; decide⟩

theorem wrtab (tab idx : Nat) (w : Word) : Statement (.wrtab tab idx w) := fun _ =>
  ⟨⟨"WRTAB", 0x40000000, 0xF0000000⟩, by simp [opcodeRows], rfl, by
    simp only [OpcodeRow.selects, encode, formatT_selects]; decide⟩

theorem start : Statement .start := fun _ =>
  ⟨⟨"START", 0x50000000, 0xFFFFFFFF⟩, by simp [opcodeRows], rfl, by decide⟩

theorem stop : Statement .stop := fun _ =>
  ⟨⟨"STOP", 0x60000000, 0xFFFFFFFF⟩, by simp [opcodeRows], rfl, by decide⟩

theorem tick (m c : Word) : Statement (.tick m c) := fun _ =>
  ⟨⟨"TICK", 0x70000000, 0xFFFFFFFF⟩, by simp [opcodeRows], rfl, by
    show OpcodeRow.selects _ (formatZ 7) = true; decide⟩

end Sys2Proof.Laws.EncodingSelectsRow
end

