-- ==== Sys2Proof/Tests/Slice0.lean ====
section
/-! SUPPORT. The model's own tests, each a named theorem about one step or one operation on small states, and for every
statement with hypotheses a witness that meets them. Expected values are those of 95_test_vectors.md, or worked by hand
from the rule a docstring names. -/

namespace Sys2Proof.Machine

-- One test after the other: the kernel evaluations below, waiting for one another, would each hold a thread and its stack.
set_option Elab.async false

/-! ### Small states -/

/-- The small example block right after reset (95_test_vectors.md section 0). -/
def small : State := State.resetOf Config.small

/-- The state an outcome lands in. -/
def landing : Host.Outcome State Fault Refusal → State
  | .next t => t
  | .fault _ => State.reset
  | .refused _ => State.reset

/-- The response an outcome gives. -/
def answer (o : Host.Outcome State Fault Refusal) : Option Response := (landing o).rsp

/-- An identity section. -/
def identityCoefs : CoefSet := { CoefSet.reset with b0 := ⟨0, 0x3FF00000⟩ }

/-- One identity band, identity envelope filter, SINE and NOISE of constants: the response is the modulator's
magnitude times the noise, as in program P3 of 95_test_vectors.md. -/
def running : State :=
  { small with
    status := { Status.reset with run := true }
    numBands := 1
    noiseLen := 3
    oscSel := true
    gains := { Gains.reset with ana := 0x3F800000, het := 0x3F800000, noise := 0x3F800000, osc := 0 }
    envlp := identityCoefs
    bands := [{ Band.reset with bp := identityCoefs, hetPinc := 0x40000000 }, Band.reset]
    sine := [(0, 0x3F800000), (1, 0x3F800000)]
    noise := [(0, 0x3F800000), (2, 0x3F000000)] }

/-- Program P1 of 95_test_vectors.md before step 51: the state its steps 1 to 50 leave, worked from its tables. -/
def beforeStep51 : State :=
  { small with
    status := { Status.reset with run := true }
    numBands := 2
    sampleCnt := 1
    oscPinc := 0x40000000
    oscPhase := 0x40000000
    noiseIdx := 1
    gains := { Gains.reset with ana := 0x3F800000, het := 0x3F800000 }
    envlp := { CoefSet.reset with b0 := ⟨0, 0x3FE00000⟩, a1 := ⟨0, 0xBFE00000⟩ }
    bands := [
      { Band.reset with
        bp := identityCoefs, hetPinc := 0x40000000, hetPhase := 0x40000000
        ha1 := ⟨0x3FD0000000000000, 0, 0x3FD0000000000000, 0⟩
        ha2 := ⟨0x3FD0000000000000, 0, 0x3FD0000000000000, 0⟩ },
      { Band.reset with
        bp := { CoefSet.reset with b0 := ⟨0, 0x3FE00000⟩ }, hetPinc := 0xC0000000, hetPhase := 0xC0000000
        ha1 := ⟨0x3FD0000000000000, 0, 0x3FC0000000000000, 0⟩
        ha2 := ⟨0x3FC0000000000000, 0, 0x3FB0000000000000, 0⟩ }]
    sine := [(0, 0), (1, 0x3F800000), (2, 0), (3, 0xBF800000)]
    wave := [(0, 0), (1, 0x3F000000), (2, 0), (3, 0xBF000000)]
    noise := [(0, 0x3F000000), (1, 0xBF000000), (2, 0x3E800000), (3, 0xBE800000)] }

/-! ### Well-formedness and decoding -/

/-- Each check of wellFormed refuses a term just beyond its field, and takes the field's largest value. -/
theorem test_wellFormed_smoke :
    (Instr.rdreg 0x10000).wellFormed = false ∧ (Instr.rdreg 0xFFFF).wellFormed = true ∧
    (Instr.wrreg 0x10000 0).wellFormed = false ∧ (Instr.wrreg 0xFFFF 0).wellFormed = true ∧
    (Instr.rdtab 16 0).wellFormed = false ∧ (Instr.rdtab 0 0x1000000).wellFormed = false ∧
    (Instr.rdtab 15 0xFFFFFF).wellFormed = true ∧
    (Instr.wrtab 16 0 0).wellFormed = false ∧ (Instr.wrtab 0 0x1000000 0).wellFormed = false ∧
    (Instr.wrtab 15 0xFFFFFF 0).wellFormed = true ∧
    Instr.nop.wellFormed = true ∧ Instr.start.wellFormed = true ∧ Instr.stop.wellFormed = true ∧
    (Instr.tick 0 0).wellFormed = true := by decide

/-- 30_encoding.md R81, R87: the format Z words. -/
theorem test_decode_formatZ :
    decode ⟨0x00000000, 7, 7⟩ = .ok .nop ∧ decode ⟨0x50000000, 7, 7⟩ = .ok .start ∧
    decode ⟨0x60000000, 7, 7⟩ = .ok .stop ∧
    decode ⟨0x70000000, 0x3F000000, 0xBE800000⟩ = .ok (.tick 0x3F000000 0xBE800000) := by decide

/-- 95_test_vectors.md L2.2: the format R words. -/
theorem test_decode_formatR :
    decode ⟨0x1000FFFF, 7, 7⟩ = .ok (.rdreg 0xFFFF) ∧ decode ⟨0x100002FC, 0, 0⟩ = .ok (.rdreg 0x02FC) ∧
    decode ⟨0x20000027, 0xBFE00000, 7⟩ = .ok (.wrreg 0x0027 0xBFE00000) := by decide

/-- 95_test_vectors.md L2.2: the format T words. -/
theorem test_decode_formatT :
    decode ⟨0x3201FFFF, 7, 7⟩ = .ok (.rdtab 2 0x1FFFF) ∧ decode ⟨0x33000000, 0, 0⟩ = .ok (.rdtab 3 0) ∧
    decode ⟨0x4F000000, 0x3F000000, 7⟩ = .ok (.wrtab 15 0 0x3F000000) ∧
    decode ⟨0x41FFFFFF, 1, 0⟩ = .ok (.wrtab 1 0xFFFFFF 1) := by decide

/-- 95_test_vectors.md L2.2: the illegal words, each refused by name. -/
theorem test_decode_illegal :
    decode ⟨0x00000001, 0, 0⟩ = .error .nonzeroZeroField ∧ decode ⟨0x0FFFFFFF, 0, 0⟩ = .error .nonzeroZeroField ∧
    decode ⟨0x10010003, 0, 0⟩ = .error .nonzeroZeroField ∧ decode ⟨0x28000000, 0, 0⟩ = .error .nonzeroZeroField ∧
    decode ⟨0x50000001, 0, 0⟩ = .error .nonzeroZeroField ∧ decode ⟨0x6F000000, 0, 0⟩ = .error .nonzeroZeroField ∧
    decode ⟨0x70000100, 0, 0⟩ = .error .nonzeroZeroField ∧ decode ⟨0x80000000, 0, 0⟩ = .error .reservedOpcode ∧
    decode ⟨0x9ABCDEF0, 0, 0⟩ = .error .reservedOpcode ∧ decode ⟨0xFFFFFFFF, 0, 0⟩ = .error .reservedOpcode := by
  decide

/-- 95_test_vectors.md L2.2: the assembler's encodings (30_encoding.md R92). -/
theorem test_encode_words :
    encode (.wrreg 0x0101 0x3FF00000) = ⟨0x20000101, 0x3FF00000, 0⟩ ∧
    encode (.wrtab 1 1 0x3F000000) = ⟨0x41000001, 0x3F000000, 0⟩ ∧ encode (.rdtab 2 3) = ⟨0x32000003, 0, 0⟩ ∧
    encode (.tick 0x3F000000 0xBE800000) = ⟨0x70000000, 0x3F000000, 0xBE800000⟩ ∧
    clrStat.map encode = [⟨0x20000003, 0x000000FE, 0⟩] := by decide

/-- The bits of a table row: cmd in bits 31..0, arg0 in 63..32, arg1 in 95..64, those above nbits 0. -/
theorem test_decodeTableWord :
    decodeTableWord 32 0x1000010C = some (.rdreg 0x010C) ∧
    decodeTableWord 96 0xBE8000003F00000070000000 = some (.tick 0x3F000000 0xBE800000) ∧
    decodeTableWord 32 0xBE8000003F00000070000000 = some (.tick 0 0) ∧ decodeTableWord 32 0xF0000000 = none := by
  decide

/-! ### One step of each command -/

/-- 41_commands.md R121. -/
theorem test_nop : landing (exec .nop running) = { running with rsp := some ⟨0, .ok⟩ } := by decide

/-- 95_test_vectors.md P2 steps 1, 2, 7, 8 and 9. -/
theorem test_rdreg :
    answer (exec (.rdreg 0x0000) small) = some ⟨0x564F4331, .ok⟩ ∧
    answer (exec (.rdreg 0x0001) small) = some ⟨0x02020202, .ok⟩ ∧
    answer (exec (.rdreg 0x000A) small) = some ⟨0, .err .addr⟩ ∧
    answer (exec (.rdreg 0x0120) small) = some ⟨0, .err .addr⟩ ∧
    answer (exec (.rdreg 0x010D) small) = some ⟨0, .err .addr⟩ := by decide

/-- 10_state.md R34 to R40: registers at their addresses (95_test_vectors.md P1 steps 55 to 61, and R46). -/
theorem test_rdreg_addresses :
    answer (exec (.rdreg 0x010A) beforeStep51) = some ⟨0x40000000, .ok⟩ ∧
    answer (exec (.rdreg 0x011B) beforeStep51) = some ⟨0xC0000000, .ok⟩ ∧
    answer (exec (.rdreg 0x0111) beforeStep51) = some ⟨0x3FE00000, .ok⟩ ∧
    answer (exec (.rdreg 0x0027) beforeStep51) = some ⟨0xBFE00000, .ok⟩ ∧
    answer (exec (.rdreg 0x0014) beforeStep51) = some ⟨0x3DCCCCCD, .ok⟩ ∧
    answer (exec (.rdreg 0x0006) beforeStep51) = some ⟨1, .ok⟩ := by decide

/-- 95_test_vectors.md P2 steps 10, 13, 14 and 16: ERR_RO, ERR_CFG, OK and ERR_BUSY. -/
theorem test_wrreg :
    landing (exec (.wrreg 0x0000 0) small) = raiseError .ro small ∧
    landing (exec (.wrreg 0x0004 3) small) = raiseError .cfg small ∧
    landing (exec (.wrreg 0x0004 1) small) = { small with numBands := 1, rsp := some ⟨0, .ok⟩ } ∧
    landing (exec (.wrreg 0x0004 2) running) = raiseError .busy running := by decide

/-- 95_test_vectors.md P2 steps 25 to 27: write-1-to-clear of STATUS. -/
theorem test_wrreg_status :
    (landing (exec (.wrreg 0x0003 6) { small with status := ⟨true, true, true, true, true, true, false, false⟩ })).status.word
      = 0x00000039 := by decide

/-- 41_commands.md R129: an entry written reads back, an index at the depth ends with ERR_ADDR. -/
theorem test_rdtab :
    answer (exec (.rdtab 0 3) beforeStep51) = some ⟨0xBF800000, .ok⟩ ∧
    answer (exec (.rdtab 0 4) beforeStep51) = some ⟨0, .err .addr⟩ := by decide

/-- 41_commands.md R130: the list of entries stays in rising order, and an entry written again is replaced. -/
theorem test_wrtab :
    (landing (exec (.wrtab 2 1 7) { running with status := Status.reset })).noise =
      [(0, 0x3F800000), (1, 7), (2, 0x3F000000)] ∧
    (landing (exec (.wrtab 2 2 7) { running with status := Status.reset })).noise = [(0, 0x3F800000), (2, 7)] := by
  decide

/-- 41_commands.md R131: the dynamic state is cleared, the configuration kept. -/
theorem test_start :
    landing (exec .start beforeStep51) =
      { beforeStep51 with
        sampleCnt := 0, oscPhase := 0, noiseIdx := 0, rsp := some ⟨0, .ok⟩
        bands := [
          { Band.reset with bp := identityCoefs, hetPinc := 0x40000000 },
          { Band.reset with bp := { CoefSet.reset with b0 := ⟨0, 0x3FE00000⟩ }, hetPinc := 0xC0000000 }] } := by
  decide

/-- 95_test_vectors.md P2 step 12. -/
theorem test_start_without_bands : landing (exec .start small) = raiseError .cfg small := by decide

/-- 41_commands.md R132. -/
theorem test_stop :
    landing (exec .stop running) = { running with status := Status.reset, rsp := some ⟨0, .ok⟩ } := by decide

/-- 95_test_vectors.md P1 step 51. -/
theorem test_tick_program1_step51 :
    answer (exec (.tick 0x3F000000 0) beforeStep51) = some ⟨0x3DF4CCCD, .ok⟩ := by decide +kernel

/-- 95_test_vectors.md P3 steps 58 to 60: an output of 3.0 is clamped to 1.0 and CLIP_OUT is set. -/
theorem test_tick_clips :
    answer (exec (.tick 0x3F400000 0) { running with gains := { running.gains with out := 0x40800000 } }) =
      some ⟨0x3F800000, .ok⟩ ∧
    (landing (exec (.tick 0x3F400000 0) { running with gains := { running.gains with out := 0x40800000 } })).status.word =
      0x00000081 := by decide +kernel

/-! ### Numerics (95_test_vectors.md L2.1) -/

theorem test_widen :
    widen 0x00000001 = 0x36A0000000000000 ∧ widen 0xFF800000 = 0xFFF0000000000000 ∧
    widen 0x7F800001 = 0x7FF8000000000000 ∧ widen 0x3DCCCCCD = 0x3FB99999A0000000 ∧
    widen 0x80000000 = 0x8000000000000000 := by decide +kernel

theorem test_narrow :
    narrow 0x3FF0000010000000 = 0x3F800000 ∧ narrow 0x3FF0000030000000 = 0x3F800002 ∧
    narrow 0x47EFFFFFEFFFFFFF = 0x7F7FFFFF ∧ narrow 0x47EFFFFFF0000000 = 0x7F800000 ∧
    narrow 0x3690000000000000 = 0x00000000 ∧ narrow 0x36A8000000000000 = 0x00000002 := by decide +kernel

theorem test_fmul :
    fmul 0x3FB999999999999A 0x4008000000000000 = 0x3FD3333333333334 ∧ fmul 0 0x7FF0000000000000 = canonicalNaN ∧
    fmul 0x8000000000000001 0x3FE0000000000000 = 0x8000000000000000 ∧
    fmul 0x7FE0000000000000 0x4000000000000000 = 0x7FF0000000000000 := by decide +kernel

theorem test_fadd :
    fadd 0x3FB999999999999A 0x3FC999999999999A = 0x3FD3333333333334 ∧ fadd one64 minusOne64 = 0 ∧
    fadd 0x8000000000000000 0x8000000000000000 = 0x8000000000000000 ∧
    fadd one64 0x3CB8000000000000 = 0x3FF0000000000002 ∧
    fsub 0x8000000000000000 0 = 0x8000000000000000 := by decide +kernel

theorem test_saw :
    saw 0 = minusOne64 ∧ saw 1 = 0xBFEFFFFFFFC00000 ∧ saw 0x80000000 = 0 ∧ saw 0xFFFFFFFF = 0x3FEFFFFFFFC00000 := by
  decide +kernel

theorem test_guard :
    guardOut 0x3FF0000000000001 = ⟨one64, false, true⟩ ∧ guardOut one64 = ⟨one64, false, false⟩ ∧
    guardOut 0xFFF0000000000000 = ⟨minusOne64, false, true⟩ ∧ guardOut canonicalNaN = ⟨0, true, false⟩ ∧
    guardOut 0x8000000000000000 = ⟨0x8000000000000000, false, false⟩ := by decide +kernel

/-- The increment of a quarter of the sample rate is a quarter turn (43_host_driver.md R210). -/
theorem test_hetIncrement : hetIncrement 0x40C7700000000000 0x40E7700000000000 = 0x40000000 := by decide +kernel

/-! ### The host driver -/

/-- The pole test of 43_host_driver.md R209 on words of 95_test_vectors.md L2.6: the 1000 Hz bandpass, the 5 Hz lowpass
and the 1 Hz bandpass at Q = 10 are stable. -/
theorem test_poles_of_binary64 :
    poleTest ⟨0, 0, 0, 0xBFFDC854389C37D9, 0x3FEC143CF09872E6⟩ = true ∧
    poleTest ⟨0, 0, 0, 0xBFFFFC356FFECE8F, 0x3FEFF86BC5DCDC53⟩ = true ∧
    poleTest ⟨0, 0, 0, 0xBFFFFFF2419C8FA1, 0x3FEFFFE48C6C1606⟩ = true := by decide +kernel

/-- The 1 Hz bandpass at Q = 10 with a1 and a2 rounded to binary32 fails it (43_host_driver.md R209). -/
theorem test_poles_of_binary32 :
    poleTest ⟨0, 0, 0, widen (narrow 0xBFFFFFF2419C8FA1), widen (narrow 0x3FEFFFE48C6C1606)⟩ = false := by
  decide +kernel

/-- Functions of no host, with which a plan doubles its frequency: evaluated, not accurate. -/
def doubling : HostMath := ⟨fun _ => one64, fun _ => 0, fun _ => one64, fun _ => two64⟩

/-- A host at 48000 Hz, its streams bound to short buffers. -/
def host : HostState where
  params := HostParams.withDefaults {
    fs := 0x40E7700000000000, bandQ := one64, startHz := 0x4059000000000000, endHz := 0x4079000000000000
    bandCount := 2, envCutoff := 0, envQ := 0, airCutoff := 0, airQ := 0, detune := 0, harmonics := 1, wnorm := one64
    gains := Gains.reset, sawtoothBoost := 0x3F000000, waveform := .sawtooth, wavePeriod := none, rampTicks := 2, blockSize := 2
    playback := .loop }
  carrier := [0x3F000000]
  carrierPos := 0
  modulator := [0x3F000000, 0xBF000000]
  modulatorPos := 1

/-- 43_host_driver.md R202, R220: a NaN frequency is rejected (log entry 26) with no command, as is startFreq = endFreq;
100 Hz to 400 Hz in two doublings is accepted, to 60000 Hz in ten it is not, its last centers lying above fs/2. -/
theorem test_configureBands_checks :
    bandsRejected doubling Config.small host.params canonicalNaN 0x4079000000000000 2 = true ∧
    bandsRejected doubling Config.small host.params 0x4079000000000000 0x4079000000000000 2 = true ∧
    bandsRejected doubling Config.small host.params 0x4059000000000000 0x4079000000000000 2 = false ∧
    bandsRejected doubling Config.standard host.params 0x4059000000000000 0x40ED4C0000000000 10 = true := by
  decide +kernel

/-- 43_host_driver.md R221, R223: an empty buffer gives STOP alone and SourceUnavailableError. -/
theorem test_changeParams_empty :
    let c := (Procedure.changeParams (cfg := Config.small) (some (.mono [])) (some (.mono [1])) one64 none).alone
      doubling host running
    c.issued = [.stop] ∧ c.errors = [.sourceUnavailable] := by decide +kernel

/-- 43_host_driver.md R221, R223: the streams are bound anew at position 0, and START with NUM_BANDS = 0 is reported as
ConfigurationError. -/
theorem test_changeParams_start :
    let c := (Procedure.changeParams (cfg := Config.small) (some (.mono [5])) (some (.mono [6])) one64 none).alone
      doubling host small
    c.errors = [.configuration] ∧
      c.host = { host with carrier := [5], carrierPos := 0, modulator := [6], modulatorPos := 0 } := by decide +kernel

/-- 43_host_driver.md R217, R219: the default OSC_BOOST is the block's 1.0, and a setter's value is the one that `init`
writes; with a sawtooth in use it is the sawtooth's (log entry 37). -/
theorem test_boost_constants :
    host.params.gainsInUse = Gains.reset ∧ (host.params.setGain .boost 7).gainsInUse.boost = 7 ∧
    (({ host.params with waveform := .sawtooth }).setGain .boost 7).gainsInUse = { Gains.reset with boost := 7 } ∧
    ({ host.params with waveform := .sawtooth }).gainsInUse.boost = 0x3F000000 ∧
    boostsFit host.params .sawtooth = true ∧
    boostsFit { host.params with sawtoothBoost := 0x3F800000 } .sawtooth = false := by
  decide +kernel

/-- 43_host_driver.md R213: the naive sawtooth is two writes, without a restart (log entry 33). -/
theorem test_chooseOscillator_sawtooth :
    ((Procedure.chooseOscillator (cfg := Config.small) .sawtooth).alone doubling host running).issued =
      [.wrreg 0x0002 1, .wrreg 0x0016 0x3F000000] := by decide +kernel

/-- 43_host_driver.md R213: the period of WAVE comes with the boost constant of the waveform it was loaded as, whatever was
chosen after it, and not before one is loaded. -/
theorem test_usePeriod :
    let q : Procedure Config.small := .usePeriod
    let saw := host.params.choose (cfg := Config.small) (.sawtoothTable [1, 2, 3, 4] rfl)
    let naive := (host.params.choose (cfg := Config.small) .harmonics).choose (cfg := Config.small) .sawtooth
    q.allowed host.params 0 = false ∧ q.allowed saw 0 = true ∧ q.allowed naive 0 = true ∧
    (q.alone doubling { host with params := saw } running).issued = [.wrreg 0x0002 0, .wrreg 0x0016 0x3F000000] ∧
    (q.alone doubling { host with params := naive } running).issued = [.wrreg 0x0002 0, .wrreg 0x0016 0x3F800000] := by
  decide +kernel

/-- 43_host_driver.md R225: from the present 1.0 down without a change of sign; once OUT_GAIN is 0.0, of either sign, or a
NaN, all steps are 0.0. -/
theorem test_isRamp :
    isRamp host.params 0x3F800000 [0x3F000000, 0] = true ∧ isRamp host.params 0x3F800000 [0xBF000000, 0] = false ∧
    isRamp host.params 0x3F000000 [0x3F000000, 0] = false ∧ isRamp host.params 0xBF800000 [0xBF000000, 0] = true ∧
    isRamp host.params 0x3F800000 [0] = false ∧ isRamp host.params 0x3F800000 [0x3F000000, 0x3E800000] = false ∧
    [0, 0x80000000, 0x7FC00000].map (isRamp host.params · [0x3F000000, 0]) = [false, false, false] ∧
    [0, 0x80000000, 0x7FC00000].map (isRamp host.params · [0, 0]) = [true, true, true] := by decide +kernel

/-- The mnemonics of the commands a list of events issues since the last call, none where an event is excluded. -/
def issuedIn (s : State) (es : List (Event Config.small)) : Option (List String) :=
  ((Session.begin host s).run doubling es).map (·.call.issued.map Instr.mnemonic)

/-- 43_host_driver.md R224, R226: a gain write between the two TICKs of a block, each stream looping. -/
theorem test_session_interleaves :
    ((Session.begin host beforeStep51).run (cfg := Config.small) doubling
      [.call (.setGain .out 0), .beginBlock, .grant .audio, .grant .control, .grant .audio]).map (·.call.issued) =
      some [.tick 0xBF000000 0x3F000000, .wrreg 0x0019 0, .tick 0x3F000000 0x3F000000] := by decide +kernel

/-- 43_host_driver.md R224: neither thread's command passes a waiting one of the other twice. -/
theorem test_session_is_fair :
    issuedIn beforeStep51 [.call (.chooseOscillator .sawtooth), .beginBlock, .grant .control, .grant .control] = none ∧
    issuedIn beforeStep51 [.call (.chooseOscillator .sawtooth), .beginBlock, .grant .audio, .grant .audio] = none ∧
    issuedIn beforeStep51
      [.call (.chooseOscillator .sawtooth), .beginBlock, .grant .control, .grant .audio, .grant .control] =
      some ["WRREG", "TICK", "WRREG"] := by decide +kernel

/-- 43_host_driver.md R220, R224: a TICK passes between the commands of a band configuration while Idle. -/
theorem test_session_idle_configuration :
    issuedIn { beforeStep51 with status := Status.reset }
      [.call (.configureBands 0x4059000000000000 0x4079000000000000 2), .beginBlock, .grant .control, .grant .audio,
        .grant .control] = some ["RDREG", "TICK", "WRREG"] := by decide +kernel

/-- 43_host_driver.md R221, R224: a STOP ... START sequence waits for the end of a block, and no block begins before its
end. -/
theorem test_session_sequence :
    let q : Event Config.small := .call (.changeParams (some (.mono [5])) (some (.mono [6])) one64 none)
    issuedIn beforeStep51 [.beginBlock, q, .grant .control] = none ∧ issuedIn beforeStep51 [q, .beginBlock] = none ∧
    issuedIn beforeStep51 [q, .grant .control, .beginBlock] = none ∧
    issuedIn beforeStep51 [q, .grant .control, .grant .control, .grant .control, .beginBlock, .grant .audio] =
      some ["STOP", "WRREG", "START", "TICK"] := by decide +kernel

/-- 43_host_driver.md R225: each write of the ramp stands between two TICKs, and STOP after them. -/
theorem test_session_fadeOut :
    issuedIn beforeStep51 [.call (.fadeOut [0x3F000000, 0]), .beginBlock, .grant .control] = none ∧
    issuedIn { beforeStep51 with gains := { Gains.reset with out := 0 } } [.call (.fadeOut [0x3F000000, 0])] = none ∧
    issuedIn beforeStep51
      [.call (.fadeOut [0x3F000000, 0]), .beginBlock, .grant .audio, .grant .control, .grant .audio, .grant .control,
        .beginBlock, .grant .audio, .grant .control] = some ["TICK", "WRREG", "TICK", "WRREG", "TICK", "STOP"] := by
  decide +kernel

/-- 43_host_driver.md R227: ENV is read while a sequence waits for its boundary, within the sequence, and between the writes of
a ramp. The first ENV is that of the state, the one after START +0.0. -/
theorem test_session_reads :
    let read : Event Config.small := .read (.band 0 .env)
    let s := { beforeStep51 with bands := beforeStep51.bands.map fun b => { b with env := 0x3F000000 } }
    (((Session.begin host s).run (cfg := Config.small) doubling
      [.beginBlock, .call (.changeParams (some (.mono [5])) (some (.mono [6])) one64 none), read, .grant .control,
        .grant .audio, .grant .audio, .grant .control, .grant .control, .grant .control, read, .grant .control]).map
        fun x => (x.call.issued.map Instr.mnemonic, x.answers)) =
      some (["TICK", "TICK", "STOP", "WRREG", "START"], [⟨0x3F000000, .ok⟩, ⟨0, .ok⟩]) ∧
    ((Session.begin host s).run doubling
      [.call (.fadeOut [0x3F000000, 0]), .beginBlock, read, .grant .control, .grant .audio, read, .grant .control]).map
        (·.answers.length) = some 2 := by decide +kernel

/-- 70_reset_and_hazards.md R253: no START on unwritten tables, unless NUM_BANDS = 0 makes it fail; with SINE and the
noise ring written a START needs no WAVE while OSC_SEL = 1. -/
theorem test_bootHeld :
    (execAll [.start] { small with numBands := 1 }).bootHeld = false ∧ (execAll [.start] small).bootHeld = true ∧
    (execAll [.start] { beforeStep51 with status := Status.reset }).bootHeld = true ∧
    (execAll [.start] { beforeStep51 with status := Status.reset, wave := [] }).bootHeld = false ∧
    (execAll [.start] { beforeStep51 with status := Status.reset, wave := [], oscSel := true }).bootHeld = true := by
  decide +kernel

/-! ### Witnesses: each statement's hypotheses are met -/

/-- Meets the invariant in a running state. -/
theorem witness_running_inv : running.Inv :=
  ⟨by decide, by decide, by decide, by decide, by decide, by decide, fun t => by cases t <;> decide⟩

/-- ResetMeetsTheInvariant, ResetValuesOfEveryRegister, ParamsReportTheInstanceAndNeverChange: legal instances at both
ends of every range. -/
theorem witness_legal :
    Config.Legal ⟨1, 1, 1, 1⟩ ∧ Config.Legal ⟨255, 24, 24, 24⟩ ∧ Config.Legal Config.standard ∧
    (State.resetOf Config.small).cfg.Legal := by decide

/-- DecodeOfEncodeIsTheCommand and the per-command lemmas: each field at its largest value. -/
theorem witness_wellFormed :
    (Instr.wrreg 0xFFFF 0xFFFFFFFF).wellFormed = true ∧ (Instr.wrtab 15 0xFFFFFF 0xFFFFFFFF).wellFormed = true := by
  decide

/-- EncodeOfDecodeIsTheWord. -/
theorem witness_decode : decode ⟨0x4FFFFFFF, 1, 2⟩ = .ok (.wrtab 15 0xFFFFFF 1) := by decide

/-- StepRunsTheDecodedCommand: a state whose host offers a command, with and without a response to take. -/
theorem witness_step :
    let s := { small with offered := [⟨0x50000000, 0, 0⟩], rsp := some ⟨0, .ok⟩ }
    s.rst = false ∧ (s.rsp = none ∨ s.rspReady = true) ∧ s.offered = ⟨0x50000000, 0, 0⟩ :: [] ∧
      decode ⟨0x50000000, 0, 0⟩ = .ok .start ∧ (small.rsp = none ∨ small.rspReady = true) := by decide

/-- IllegalWordsEndWithErrOpc: OP 8 and 15, a ZERO field of format Z and of format R that is not zero. -/
theorem witness_illegal :
    (∀ w ∈ [(0x80000000 : Word), 0xF0000000], 8 ≤ w.toNat / 2 ^ 28) ∧
    (∀ w ∈ [(0x00000001 : Word), 0x58000000, 0x60000001, 0x70000100],
      (w.toNat / 2 ^ 28 = 0 ∨ w.toNat / 2 ^ 28 = 5 ∨ w.toNat / 2 ^ 28 = 6 ∨ w.toNat / 2 ^ 28 = 7) ∧
        w.toNat % 2 ^ 28 ≠ 0) ∧
    (∀ w ∈ [(0x10010000 : Word), 0x28000000],
      (w.toNat / 2 ^ 28 = 1 ∨ w.toNat / 2 ^ 28 = 2) ∧ w.toNat % 2 ^ 28 / 2 ^ 16 ≠ 0) ∧
    ({ small with offered := [⟨0x80000000, 0, 0⟩] }).offered = ⟨0x80000000, 0, 0⟩ :: [] := by simp

/-- ResetInputRestoresResetValues and ChannelStallsAndWaits. -/
theorem witness_channel :
    ({ running with rst := true }).rst = true ∧ small.rst = false ∧ small.offered = [] ∧
    ({ small with rsp := some ⟨7, .ok⟩, rspReady := false }).rsp = some ⟨7, .ok⟩ ∧
    ({ small with rsp := some ⟨7, .ok⟩, rspReady := false }).rspReady = false ∧ small.rsp = none := by decide

/-- ErrorsLeaveOnlyTheirStickyBit: a command that ends with an error. -/
theorem witness_error :
    perform ⟨0x20000004, 3, 0⟩ small = .next (raiseError .cfg small) ∧
      (raiseError .cfg small).rsp = some ⟨0, .err .cfg⟩ := ⟨rfl, rfl⟩

/-- ErrorPriorityExamples. -/
theorem witness_priority : running.status.run = true ∧ running.cfg.maxBands = 2 := by decide

/-- RunChangesOnlyByStartAndStop: RUN set by START and cleared by STOP. -/
theorem witness_run_changes :
    perform ⟨0x50000000, 0, 0⟩ { small with numBands := 1 } =
      .next (landing (perform ⟨0x50000000, 0, 0⟩ { small with numBands := 1 })) ∧
    (landing (perform ⟨0x50000000, 0, 0⟩ { small with numBands := 1 })).status.run ≠ small.status.run ∧
    perform ⟨0x60000000, 0, 0⟩ running = .next (landing (perform ⟨0x60000000, 0, 0⟩ running)) ∧
    (landing (perform ⟨0x60000000, 0, 0⟩ running)).status.run ≠ running.status.run :=
  ⟨rfl, by decide, rfl, by decide⟩

/-- A state with every sticky bit set. -/
def allSticky : State := { small with status := ⟨false, true, true, true, true, true, true, true⟩ }

/-- StickyBitsAreClearedOnlyByStatusWrites, at the lowest and the highest sticky bit. -/
theorem witness_sticky_cleared :
    perform ⟨0x20000003, 0xFE, 0⟩ allSticky = .next (landing (perform ⟨0x20000003, 0xFE, 0⟩ allSticky)) ∧
    (∀ k ∈ [1, 7], allSticky.status.word.getLsbD k = true ∧
      (landing (perform ⟨0x20000003, 0xFE, 0⟩ allSticky)).status.word.getLsbD k = false) :=
  ⟨rfl, by decide⟩

/-- GuardFlagsAreSetOnlyByTicks: a TICK that sets NAN_OUT, and one that sets CLIP_OUT. -/
theorem witness_guard_flags :
    perform ⟨0x70000000, 0x7FC00000, 0⟩ running = .next (tickRun 0x7FC00000 0 running) ∧
    ((tickRun 0x7FC00000 0 running).status.nanOut = true ∧ running.status.nanOut = false) ∧
    perform ⟨0x70000000, 0x40400000, 0⟩ running = .next (tickRun 0x40400000 0 running) ∧
    ((tickRun 0x40400000 0 running).status.clipOut = true ∧ running.status.clipOut = false) :=
  ⟨rfl, by decide +kernel, rfl, by decide +kernel⟩

/-- RdregRespondsTheRegister, ReadOnlyWritesEndWithErrRo, LockedWritesEndWithErrBusy and WrregStoresTheWord: registers
of each class, the last band slot among them. -/
theorem witness_registers :
    (∀ r ∈ [Reg.id, .params, .sampleCnt, .oscPhase, .noiseIdx, .band 1 .hetPhase, .band 1 .env],
      r.mapped small.cfg = true ∧ r.readOnly = true) ∧
    (∀ r ∈ [Reg.envlp ⟨.b0, false⟩, .air ⟨.a2, true⟩, .band 1 (.bp ⟨.b2, false⟩), .band 0 .hetPinc],
      r.mapped running.cfg = true ∧ r.mapped small.cfg = true ∧ r.plainLocked = true) ∧
    Reg.numBands.mapped running.cfg = true ∧ Reg.noiseLen.mapped running.cfg = true ∧ running.status.run = true ∧
    (∀ r ∈ [Reg.gain .ana, .gain .out, .oscPinc], r.mapped small.cfg = true ∧ r.plainRw = true) ∧
    small.bands.length = small.cfg.maxBands ∧ small.status.run = false := by decide

/-- ReservedAddressesEndWithErrAddr: both ends of every reserved range, on an example of two band slots. -/
theorem witness_reserved :
    (∀ a ∈ [0x000A, 0x000F, 0x001A, 0x001F, 0x002A, 0x002F, 0x003A, 0x00FF, 0x010D, 0x010F, 0x011D, 0x011F, 0x0120,
      0xFFFF], ReservedAddress Config.small a) ∧
    (∀ a ∈ [0x0009, 0x0010, 0x0019, 0x0020, 0x0029, 0x0030, 0x0039, 0x0100, 0x010C, 0x0110, 0x011C],
      ¬ReservedAddress Config.small a) := by decide

/-- EveryAddressIsReservedOrOneRegister: both outcomes at the bounds of the address space and of the band slots. -/
theorem witness_addresses :
    (0xFFFF ≤ 0xFFFF ∧ ReservedAddress Config.small 0xFFFF) ∧
    (0x011C ≤ 0xFFFF ∧ ¬ReservedAddress Config.small 0x011C ∧ (Reg.band 1 .env).mapped Config.small = true ∧
      (Reg.band 1 .env).address = 0x011C) ∧
    (¬ReservedAddress Config.small 0 ∧ Reg.id.address = 0) ∧
    ((Reg.band 1 (.bp ⟨.a2, true⟩)).address = 0x0119 ∧ (Reg.air ⟨.b0, false⟩).address = 0x0030) := by
  decide

/-- CheckedWritesStoreOnlyLegalWords: both bounds of both ranges, and the words just outside them. -/
theorem witness_checked :
    small.status.run = false ∧ small.cfg.maxBands = 2 ∧ 2 ^ small.cfg.noiseLog2 = 4 ∧
    answer (exec (.wrreg 0x0004 1) small) = some ⟨0, .ok⟩ ∧ answer (exec (.wrreg 0x0004 2) small) = some ⟨0, .ok⟩ ∧
    answer (exec (.wrreg 0x0004 0) small) = some ⟨0, .err .cfg⟩ ∧
    answer (exec (.wrreg 0x0004 3) small) = some ⟨0, .err .cfg⟩ ∧
    answer (exec (.wrreg 0x0005 1) small) = some ⟨0, .ok⟩ ∧ answer (exec (.wrreg 0x0005 4) small) = some ⟨0, .ok⟩ ∧
    answer (exec (.wrreg 0x0005 0) small) = some ⟨0, .err .cfg⟩ ∧
    answer (exec (.wrreg 0x0005 5) small) = some ⟨0, .err .cfg⟩ ∧
    running.status.run = true ∧ answer (exec (.wrreg 0x0005 5) running) = some ⟨0, .err .busy⟩ := by decide

/-- LaterRwWriteReplacesEarlier: a gain, OSC_PINC and CTRL. -/
theorem witness_later_write :
    (Reg.gain .out).plainRw = true ∧ Reg.oscPinc.plainRw = true ∧
    exec (.wrreg (Reg.gain .out).address 5) running =
      .next (landing (exec (.wrreg (Reg.gain .out).address 5) running)) ∧
    exec (.wrreg Reg.ctrl.address 1) running = .next (landing (exec (.wrreg Reg.ctrl.address 1) running)) :=
  ⟨rfl, rfl, rfl, rfl⟩

/-- ParamsReportTheInstanceAndNeverChange and StepKeepsTheInvariant: a step, from a state that meets the invariant. -/
theorem witness_step_next :
    (small.withFetchWord 32 0x60000000).Inv ∧
    step (small.withFetchWord 32 0x60000000) = .next (landing (step (small.withFetchWord 32 0x60000000))) :=
  ⟨⟨by decide, by decide, by decide, by decide, by decide, by decide, fun t => by cases t <;> decide⟩, rfl⟩

/-- RdtabRespondsTheEntry, WrtabStoresTheWord and TableErrors: the first index, the last one and the depth of each
table, and the bounds of the unknown TAB values. -/
theorem witness_tables :
    (∀ t ∈ [TableId.sine, .wave, .noise], 0 < depth small.cfg t ∧ 3 < depth small.cfg t ∧ depth small.cfg t ≤ 4) ∧
    small.status.run = false ∧ running.status.run = true ∧ 0 < depth running.cfg .sine ∧
    answer (exec (.rdtab 3 0) small) = some ⟨0, .err .addr⟩ ∧
    answer (exec (.wrtab 15 0 0) running) = some ⟨0, .err .addr⟩ := by decide

/-- OnlyWrtabChangesATableEntry: a command that is no WRTAB of the entry. -/
theorem witness_other_entry :
    perform ⟨0x40000001, 5, 0⟩ small = .next (respond 0 (memWrite small .sine 1 5)) ∧
    (∀ w, decode ⟨0x40000001, 5, 0⟩ ≠ .ok (.wrtab (tabOf .sine) 0 w)) :=
  ⟨rfl, fun w h => by
    have d : decode ⟨0x40000001, 5, 0⟩ = .ok (.wrtab 0 1 5) := rfl
    rw [d, Except.ok.injEq, Instr.wrtab.injEq] at h
    exact absurd h.2.1 (by decide)⟩

/-- StartClearsTheDynamicState, RestartIsStart and SilenceBeginsAtStartAndLasts. -/
theorem witness_start :
    running.numBands ≠ 0 ∧ small.numBands = 0 ∧ (running.status.run = true → running.numBands ≠ 0) ∧
    (small.status.run = true → small.numBands ≠ 0) ∧
    exec .stop running = .next (landing (exec .stop running)) ∧
    exec .start running = .next (landing (exec .start running)) :=
  ⟨by decide, by decide, by decide, by decide, rfl, rfl⟩

/-- EveryCommandButTickIsIdempotent. -/
theorem witness_idempotent :
    (∀ m c, Instr.wrtab 0 1 5 ≠ .tick m c) ∧
    exec (.wrtab 0 1 5) small = .next (landing (exec (.wrtab 0 1 5) small)) :=
  ⟨fun _ _ => nofun, rfl⟩

/-- IdleTickOnlyResponds, RunningTickAdvancesTheBlock, RunningTickWorksEachLane and TickRespondsASampleInRange: an idle
state, a running one, an active slot, a slot from NUM_BANDS on, and another slot replaced. -/
theorem witness_tick :
    small.status.run = false ∧ running.status.run = true ∧
    exec (.tick 0x3F000000 0) running = .next (tickRun 0x3F000000 0 running) ∧
    0 < running.bands.length ∧ 0 < running.numBands.toNat ∧ running.numBands.toNat ≤ 1 ∧
    (1 ≠ 0 ∧ exec (.tick 0x3F000000 0) { running with bands := running.bands.set 1 { Band.reset with env := 9 } } =
      .next (tickRun 0x3F000000 0 { running with bands := running.bands.set 1 { Band.reset with env := 9 } })) :=
  ⟨rfl, rfl, rfl, by decide, by decide, by decide, by decide, rfl⟩

/-- The bound of GuardClampsToUnitRange as a number the kernel computes by a shift. -/
theorem units_of_one : (2 ^ 1074 : Int) = ((1 <<< 1074 : Nat) : Int) := by
  rw [Nat.one_shiftLeft]; exact (Nat.cast_pow 2 1074).symm

/-- GuardClampsToUnitRange: a NaN, a value above 1.0, one below -1.0, and both bounds. -/
theorem witness_guard :
    isNaN canonicalNaN = true ∧
    (isNaN 0x3FF0000000000001 = false ∧ (2 ^ 1074 : Int) < units 0x3FF0000000000001) ∧
    (isNaN 0xBFF0000000000001 = false ∧ units 0xBFF0000000000001 < -(2 ^ 1074 : Int)) ∧
    (isNaN one64 = false ∧ -(2 ^ 1074 : Int) ≤ units one64 ∧ units one64 ≤ (2 ^ 1074 : Int)) ∧
    (isNaN minusOne64 = false ∧ -(2 ^ 1074 : Int) ≤ units minusOne64 ∧ units minusOne64 ≤ (2 ^ 1074 : Int)) := by
  rw [units_of_one]; decide +kernel

/-- SilenceInSilenceOut and SilenceBeginsAtStartAndLasts: a silent running state, each zero modulator. -/
theorem witness_silent :
    running.status.run = true ∧ running.Silent ∧
    exec (.tick 0 0x3F800000) running = .next (tickRun 0 0x3F800000 running) ∧
    exec (.tick 0x80000000 0x3F800000) running = .next (tickRun 0x80000000 0x3F800000 running) :=
  ⟨rfl, by decide, rfl, rfl⟩

/-- UnselectedTableEntriesAreNotRead: NOISE entries beside NOISE_IDX, the first beyond the length among them, OSC_SEL = 1,
and OSC_SEL = 0 with the entries next to those of OSC_PHASE and, in SINE, of the active bands. -/
theorem witness_unread_entries :
    (running.status.run = true ∧ running.Inv ∧ running.noiseLen.toNat ≤ 3 ∧ 3 ≠ running.noiseIdx.toNat ∧
      running.oscSel = true) ∧
    (beforeStep51.status.run = true ∧ beforeStep51.Inv ∧ beforeStep51.oscSel = false ∧
      (∀ j ∈ [0, 2], j ≠ (beforeStep51.oscPhase.extractLsb' (32 - beforeStep51.cfg.waveLog2)
        beforeStep51.cfg.waveLog2).toNat) ∧
      ∀ j ∈ [0, 2], ∀ b, b < beforeStep51.numBands.toNat →
        j ≠ ((beforeStep51.band b).hetPhase.extractLsb' (32 - beforeStep51.cfg.sineLog2)
          beforeStep51.cfg.sineLog2).toNat) :=
  ⟨⟨rfl, witness_running_inv, by decide, by decide, rfl⟩,
    ⟨rfl, ⟨by decide, by decide, by decide, by decide, by decide, by decide, fun t => by cases t <;> decide⟩, rfl,
      by decide, by decide⟩⟩

/-- InactiveSlotsHaveNoInfluence: slot 1 of a running state of one active band. -/
theorem witness_inactive :
    running.numBands.toNat ≤ 1 ∧
    exec (.tick 0x3F000000 0) running = .next (tickRun 0x3F000000 0 running) ∧
    exec (.tick 0x3F000000 0) { running with bands := running.bands.set 1 { Band.reset with hetPinc := 9 } } =
      .next (tickRun 0x3F000000 0 { running with bands := running.bands.set 1 { Band.reset with hetPinc := 9 } }) :=
  ⟨by decide, rfl, rfl⟩

/-- A coefficient set with 1.0 at one place and zeros of both signs elsewhere. -/
def unitCoefs (c : Coef) : CoefSet :=
  let pick := fun d => if d = c then ⟨0, 0x3FF00000⟩ else ⟨0, 0x80000000⟩
  ⟨pick .b0, pick .b1, pick .b2, pick .a1, pick .a2⟩

/-- SectionCornerCases: a finite history of five different values, each unit set giving its term, and a NaN. -/
theorem witness_section :
    (IsFinite 0x4014000000000000 ∧ FiniteHistory ⟨one64, two64, 0x4008000000000000, 0x4010000000000000⟩) ∧
    (isZero (Pair.value ⟨0, 0x80000000⟩) = true ∧ isZero (Pair.value ⟨0, 0⟩) = true ∧
      Pair.value ⟨0, 0x3FF00000⟩ = one64) ∧
    ([Coef.b0, .b1, .b2, .a1, .a2].map fun c =>
      (bq (unitCoefs c) ⟨one64, two64, 0x4008000000000000, 0x4010000000000000⟩ 0x4014000000000000).out) =
      [0x4014000000000000, one64, two64, 0xC008000000000000, 0xC010000000000000] ∧
    (bq identityCoefs History.zero 0x8000000000000000).out = 0 ∧
    isNaN canonicalNaN = true ∧ isNaN (Pair.value ⟨0, 0x7FF80000⟩) = true ∧
    isNaN (⟨0, 0, 0, canonicalNaN⟩ : History).y2 = true := by decide +kernel

/-- NaNsStayCanonical: a state with a canonical NaN in a history, and its step. -/
theorem witness_canonical :
    ({ running with hair := ⟨canonicalNaN, 0, canonicalNaN, 0⟩ }).CanonicalNaNs ∧
    step ({ running with hair := ⟨canonicalNaN, 0, canonicalNaN, 0⟩ }) =
      .next (landing (step { running with hair := ⟨canonicalNaN, 0, canonicalNaN, 0⟩ })) := ⟨by decide, rfl⟩

/-- RoundingIsToNearestEven: the magnitudes next to the overflow threshold, on each side. -/
theorem witness_rounding :
    overflow64 - 1 < overflow64 * 2 ^ 0 ∧ overflow64 * 2 ^ 0 ≤ overflow64 ∧
    overflow32 - 1 < overflow32 * 2 ^ 0 ∧ overflow32 * 2 ^ 0 ≤ overflow32 ∧
    isInf (round64 false (overflow64 - 1) 0) = false ∧ isInf (round64 true overflow64 0) = true := by decide +kernel

/-- FmulRoundsTheExactProduct: each clause. -/
theorem witness_fmul :
    (isInf 0xFFF0000000000000 = true ∧ isZero 0 = true) ∧
    (isNaN 0x7FF0000000000000 = false ∧ isNaN minusOne64 = false ∧ isInf 0x7FF0000000000000 = true ∧
      isZero minusOne64 = false) ∧
    (isNaN 0 = false ∧ isInf 0 = false ∧ units minusOne64 * units 0 = 0) ∧
    (units one64 * units minusOne64).natAbs < overflow64 * 2 ^ 1074 ∧
    overflow64 * 2 ^ 1074 ≤ (units 0x7FE0000000000000 * units 0x4000000000000000).natAbs := by decide +kernel

/-- FaddRoundsTheExactSum: each clause. -/
theorem witness_fadd :
    (isInf 0x7FF0000000000000 = true ∧ isInf 0xFFF0000000000000 = true ∧
      signBit 0x7FF0000000000000 ≠ signBit 0xFFF0000000000000) ∧
    (isNaN one64 = false ∧ isInf one64 = false) ∧ units one64 + units minusOne64 = 0 ∧
    units one64 + units one64 ≠ 0 ∧ (units one64 + units one64).natAbs < overflow64 ∧
    overflow64 ≤ (units 0x7FEFFFFFFFFFFFFF + units 0x7FEFFFFFFFFFFFFF).natAbs := by decide +kernel

/-- NaNsPropagateCanonically, WidenIsExact and NarrowRoundsToNearestEven: a NaN, an infinity, a subnormal. -/
theorem witness_classes :
    isNaN32 0xFFC00001 = true ∧ isInf32 0xFF800000 = true ∧
    (isNaN32 0x80000001 = false ∧ isInf32 0x80000001 = false) ∧ isNaN 0xFFF0000000000001 = true := by decide

/-- 2^925 as a number the kernel computes by a shift. -/
theorem unit32_in_units : (2 ^ 925 : Nat) = 1 <<< 925 := (Nat.one_shiftLeft 925).symm

/-- NarrowRoundsToNearestEven: the data next to the overflow threshold, on each side, an infinity, and a negative datum
that rounds to a zero. -/
theorem witness_narrow :
    (isNaN 0x47EFFFFFEFFFFFFF = false ∧ (units 0x47EFFFFFEFFFFFFF).natAbs < overflow32 * 2 ^ 925) ∧
    (isNaN 0x47EFFFFFF0000000 = false ∧ overflow32 * 2 ^ 925 ≤ (units 0x47EFFFFFF0000000).natAbs) ∧
    (isNaN 0xFFF0000000000000 = false ∧ overflow32 * 2 ^ 925 ≤ (units 0xFFF0000000000000).natAbs) ∧
    (isNaN 0x8000000000000001 = false ∧ (units 0x8000000000000001).natAbs < overflow32 * 2 ^ 925) := by
  rw [unit32_in_units]; decide +kernel

/-- PhaseIndexIsTheTopBits: both bounds of the table sizes. -/
theorem witness_phaseIndex :
    phaseIndex 0xC0000000 1 = 1 ∧ phaseIndex 0xC0000000 2 = 3 ∧ phaseIndex 0x12345678 12 = 0x123 ∧
    phaseIndex 0x12345678 24 = 0x123456 := by decide

/-- SetBqSetsTheCoefficients and LoadTabLoadsTheEntries: the last slot, a whole table, and both ends of the TAB values
that name no table. -/
theorem witness_pseudo :
    small.status.run = false ∧ 1 < small.cfg.maxBands ∧ small.bands.length = small.cfg.maxBands ∧
    [(1 : Word), 2, 3, 4].length ≤ depth small.cfg .wave ∧
    (∀ tab ∈ [3, 15], 3 ≤ tab ∧ tab ≤ 15 ∧ responsesOf (loadTab tab [7]) small = [⟨0, .err .addr⟩]) := by decide

/-- BandPlanAndItsChecks: the rejected calls of 95_test_vectors.md L1.1; a growing plan, its last consecutive centers
finite; a configuration accepted. -/
theorem witness_band_plan :
    (hostLe 0 0 = true ∧ hostLe 0x4059000000000000 0x4059000000000000 = true ∧ 0 < 1 ∧ Config.standard.maxBands < 33) ∧
    (flt one64 (doubling.exp2 0) = true ∧ IsFinite 0x4059000000000000 ∧ flt 0 0x4059000000000000 = true ∧
      1 ≤ expoField 0x4059000000000000 ∧
      generateBands doubling 0x4059000000000000 0x4079000000000000 2 = [0x4059000000000000, 0x4069000000000000] ∧
      isInf 0x4059000000000000 = false) := by decide +kernel

theorem witness_bands_accepted :
    (configureBands doubling 0x4059000000000000 0x4079000000000000 2 host small).rejected = none := by
  rcases configureBands_cases doubling 0x4059000000000000 0x4079000000000000 2 host small with h | h
  · exact absurd h.1 (by decide +kernel)
  · rw [h.2, reconfigure_rejected]; rfl

/-- BandPlanAndItsChecks: accurate functions, and an octave in one band and in 255. -/
theorem witness_accurate_plan :
    ∃ hm : HostMath, hm.Accurate ∧ ∀ n ∈ [1, 255],
      let octaves := hostDiv (hostDiv (fmul 0x4092C00000000000
        (hm.log2 (hostDiv 0x4069000000000000 0x4059000000000000))) (ofNat64 n)) 0x4092C00000000000
      IsFinite octaves ∧ hostLe 0x3D50000000000000 octaves = true := by
  obtain ⟨hm, h⟩ := exists_accurate
  refine ⟨hm, h, ?_⟩
  rw [show hostDiv 0x4069000000000000 0x4059000000000000 = two64 by decide +kernel, log2_two h]
  decide +kernel

end Sys2Proof.Machine
end

section
/-! PROOFS. The statements of 10_state.md on reserved addresses (R41) and on ID and PARAMS (R23, R24). -/

namespace Sys2Proof.Machine

/-! ### Which addresses select no register (10_state.md R41; 30_encoding.md R84) -/

theorem gainOfOffset_eq_none_iff (k : Nat) : gainOfOffset k = none ↔ 10 ≤ k :=
  match k with
  | 0 | 1 | 2 | 3 | 4 | 5 | 6 | 7 | 8 | 9 => by decide
  | k + 10 => iff_of_true rfl (Nat.le_add_left 10 k)

theorem coefOfOffset_eq_none_iff (k : Nat) : coefOfOffset k = none ↔ 10 ≤ k :=
  match k with
  | 0 | 1 | 2 | 3 | 4 | 5 | 6 | 7 | 8 | 9 => by decide
  | k + 10 => iff_of_true rfl (Nat.le_add_left 10 k)

theorem bandRegOfOffset_eq_none_iff (k : Nat) : bandRegOfOffset k = none ↔ 13 ≤ k := by
  unfold bandRegOfOffset
  split_ifs
  case neg => simp only [Option.map_eq_none_iff, coefOfOffset_eq_none_iff]; omega
  all_goals simp only [false_iff]; omega

theorem selectGlobal_eq_none_iff (a : Nat) :
    selectGlobal a = none ↔
      (0x0A ≤ a ∧ a < 0x10) ∨ (0x1A ≤ a ∧ a < 0x20) ∨ (0x2A ≤ a ∧ a < 0x30) ∨ 0x3A ≤ a := by
  unfold selectGlobal
  split_ifs
  · interval_cases a <;> decide
  · simp only [Option.map_eq_none_iff, gainOfOffset_eq_none_iff]; omega
  · simp only [Option.map_eq_none_iff, coefOfOffset_eq_none_iff]; omega
  · simp only [Option.map_eq_none_iff, coefOfOffset_eq_none_iff]; omega
  · simp only [true_iff]; omega

theorem selectReg_of_global (cfg : Config) {a : Nat} (h : a < 0x100) : selectReg cfg a = selectGlobal a := if_pos h

theorem selectReg_band_eq_none_iff (cfg : Config) {a : Nat} (h : 0x100 ≤ a) :
    selectReg cfg a = none ↔ 0x100 + 16 * cfg.maxBands ≤ a ∨ 13 ≤ a % 16 := by
  rw [selectReg, if_neg (by omega)]
  dsimp only
  split_ifs with hb
  · simp only [Option.map_eq_none_iff, bandRegOfOffset_eq_none_iff]; omega
  · simp only [true_iff]; omega

/-- What R41 lists selects no register, for any number of band slots. -/
theorem selectReg_of_reserved {cfg : Config} {a : Nat} (h : ReservedAddress cfg a) : selectReg cfg a = none := by
  rcases Nat.lt_or_ge a 0x100 with hg | hb
  · rw [selectReg_of_global cfg hg, selectGlobal_eq_none_iff]; omega
  · rw [selectReg_band_eq_none_iff cfg hb]; omega

theorem execRdreg_of_none {s : State} {a : Nat} (h : selectReg s.cfg a = none) :
    execRdreg a s = .next (raiseError .addr s) := by
  simp [execRdreg, h]

theorem execWrreg_of_error {s : State} {a : Nat} {w : Word} {e : ErrCode} (h : writeError s a w = some e) :
    execWrreg a w s = .next (raiseError e s) := by
  simp [execWrreg, h]

/-- Settles O17: a reserved address selects no register, which is the one error of RDREG and the first of WRREG. -/
theorem reservedAddressesEndWithErrAddr : Obligations.ReservedAddressesEndWithErrAddr := by
  intro s a w h
  have hnone := selectReg_of_reserved h
  exact ⟨execRdreg_of_none hnone, execWrreg_of_error (writeError_of_none w hnone)⟩

/-! ### The parameters of an instance never change -/

/-- However a command ends, the parameters stand. -/
theorem Ends.cfg_eq {s t : State} (h : Ends s t) : t.cfg = s.cfg := by
  cases h with
  | raise e => exact raiseError_cfg e s
  | answer d => exact respond_cfg d s
  | write addr r w _ _ => rw [respond_cfg, writeReg_cfg]
  | table t i w _ _ => rw [respond_cfg, memWrite_cfg]
  | start _ => rw [respond_cfg, startRun_cfg]
  | stop => exact respond_cfg 0 _
  | tick m c _ => exact tickRun_cfg m c s

theorem perform_keeps_cfg {c : Command} {s t : State} (h : perform c s = .next t) : t.cfg = s.cfg := by
  obtain ⟨u, hu, hends⟩ := perform_ends c s
  obtain rfl : u = t := by simpa [hu] using h
  exact hends.cfg_eq

@[simp] theorem resetBlock_cfg (s : State) : (resetBlock s).cfg = s.cfg := rfl

/-- A step, the reset input's included, keeps the parameters of the instance. -/
theorem step_keeps_cfg {s t : State} (h : step s = .next t) : t.cfg = s.cfg := by
  rcases step_cases s with ⟨-, hs⟩ | ⟨-, -, hs⟩ | ⟨-, -, hs⟩ | ⟨c, rest, -, -, hs⟩ <;> rw [hs] at h
  case inr.inr.inr => rw [perform_keeps_cfg h, accept_cfg]
  all_goals cases h; simp

/-! ### The bytes of PARAMS (10_state.md R24) -/

theorem toNat_append_byte {n : Nat} (x : BitVec n) (y : BitVec 8) : (x ++ y).toNat = x.toNat * 256 + y.toNat := by
  rw [BitVec.toNat_append, ← Nat.shiftLeft_add_eq_or_of_lt y.isLt, Nat.shiftLeft_eq]

/-- PARAMS as a number in base 256, of the parameters modulo 256. -/
theorem paramsWord_toNat (cfg : Config) :
    (paramsWord cfg).toNat =
      ((cfg.noiseLog2 % 256 * 256 + cfg.waveLog2 % 256) * 256 + cfg.sineLog2 % 256) * 256 + cfg.maxBands % 256 := by
  simp only [paramsWord, toNat_append_byte, BitVec.toNat_ofNat, Nat.reducePow]

/-- Settles O26: the bytes of PARAMS are those of `paramsWord_toNat`, and no step changes the parameters. -/
theorem paramsReportTheInstanceAndNeverChange : Obligations.ParamsReportTheInstanceAndNeverChange := by
  refine ⟨fun s => rfl, fun s t h => ?_, by decide, by decide, fun s hs => ?_⟩
  · have hcfg := step_keeps_cfg h
    exact ⟨congrArg paramsWord hcfg, hcfg⟩
  · obtain ⟨hbands, hsine, hwave, hnoise⟩ := hs
    have hword : (s.readReg .params).toNat = _ := paramsWord_toNat s.cfg
    omega

end Sys2Proof.Machine
end

section
/-! PROOFS. The statements of 30_encoding.md on the opcode map (R87) and on illegal command words (R88, R89). -/

namespace Sys2Proof

/-! ### The fields of a command word as numbers -/

theorem wordField_eq (v : Word) (lo len : Nat) : wordField v lo len = v.toNat / 2 ^ lo % 2 ^ len := by
  rw [wordField, BitVec.extractLsb'_toNat, Nat.shiftRight_eq_div_pow]

theorem wordField_len_zero (v : Word) (lo : Nat) : wordField v lo 0 = 0 := by
  rw [wordField_eq, pow_zero, Nat.mod_one]

/-- OP is the top field of the word, so no bit above it is cut off. -/
theorem wordField_op (v : Word) : wordField v 28 4 = v.toNat / 2 ^ 28 := by
  have hv := v.isLt
  rw [wordField_eq]
  omega

/-- The ZERO field is all that stands between OP and the `free` low bits. -/
theorem wordField_zeroField (v : Word) {free : Nat} (h : free ≤ 28) :
    wordField v free (28 - free) = v.toNat % 2 ^ 28 / 2 ^ free := by
  have hsplit : 2 ^ 28 = 2 ^ free * 2 ^ (28 - free) := by rw [← pow_add, Nat.add_sub_cancel' h]
  rw [wordField_eq, hsplit, Nat.mod_mul_right_div_self]

/-! ### Selecting a row is a check of OP and of the ZERO field (30_encoding.md R81-R83, R87) -/

/-- The row of the mnemonic `m` with OP `op`, the `free` low bits carrying operands and the bits between them ZERO. -/
def formatRow (m : String) (op free : Nat) : OpcodeRow := ⟨m, BitVec.ofNat 32 (op * 2 ^ 28), BitVec.allOnes 32 <<< free⟩

theorem opcodeRows_eq_formatRows :
    opcodeRows =
      [formatRow "NOP" 0 0, formatRow "RDREG" 1 16, formatRow "WRREG" 2 16, formatRow "RDTAB" 3 28,
       formatRow "WRTAB" 4 28, formatRow "START" 5 0, formatRow "STOP" 6 0, formatRow "TICK" 7 0] := by
  decide

/-- Masking off the low bits of a word rounds it down to a multiple of their weight. -/
theorem toNat_and_highMask (w : Word) (free : Nat) :
    (w &&& BitVec.allOnes 32 <<< free).toNat = w.toNat / 2 ^ free * 2 ^ free := by
  have hle := Nat.div_mul_le_self w.toNat (2 ^ free)
  rw [← BitVec.shiftLeft_ushiftRight, BitVec.toNat_shiftLeft, BitVec.toNat_ushiftRight, Nat.shiftRight_eq_div_pow,
    Nat.shiftLeft_eq, Nat.mod_eq_of_lt (hle.trans_lt w.isLt)]

/-- A number rounded down is a multiple of 2 ^ 28 exactly when the bits from `free` up to 28 are zero. -/
theorem div_mul_eq_mul_iff {n op free : Nat} (h : free ≤ 28) :
    n / 2 ^ free * 2 ^ free = op * 2 ^ 28 ↔ n / 2 ^ 28 = op ∧ n % 2 ^ 28 / 2 ^ free = 0 := by
  have hround : n / 2 ^ free * 2 ^ free = n / 2 ^ 28 * 2 ^ 28 + n % 2 ^ 28 / 2 ^ free * 2 ^ free := by
    have hdvd : 2 ^ free ∣ n / 2 ^ 28 * 2 ^ 28 := (pow_dvd_pow 2 h).mul_left _
    conv_lhs => rw [← Nat.div_add_mod' n (2 ^ 28), Nat.add_div_of_dvd_right hdvd, add_mul, Nat.div_mul_cancel hdvd]
  have hle := Nat.div_mul_le_self (n % 2 ^ 28) (2 ^ free)
  have hzero : n % 2 ^ 28 / 2 ^ free * 2 ^ free = 0 ↔ n % 2 ^ 28 / 2 ^ free = 0 := by simp
  rw [hround, ← hzero]
  omega

theorem formatRow_selects_iff (m : String) {op free : Nat} (hop : op < 2 ^ 4) (hfree : free ≤ 28) (w : Word) :
    (formatRow m op free).selects w = true ↔ w.toNat / 2 ^ 28 = op ∧ w.toNat % 2 ^ 28 / 2 ^ free = 0 := by
  rw [← div_mul_eq_mul_iff hfree, ← toNat_and_highMask, OpcodeRow.selects, beq_iff_eq, ← BitVec.toNat_inj, formatRow,
    BitVec.toNat_ofNat, Nat.mod_eq_of_lt (by omega)]

/-! ### What the decoder checks -/

/-- OP of a command (30_encoding.md R87). -/
def Instr.op : Instr → Nat
  | .nop => 0
  | .rdreg _ => 1
  | .wrreg _ _ => 2
  | .rdtab _ _ => 3
  | .wrtab _ _ _ => 4
  | .start => 5
  | .stop => 6
  | .tick _ _ => 7

/-- How many low bits of the command word carry operands: none in format Z, ADDR in format R, TAB and IDX in format T
(30_encoding.md R81-R83). -/
def Instr.freeBits : Instr → Nat
  | .rdreg _ => 16
  | .wrreg _ _ => 16
  | .rdtab _ _ => 28
  | .wrtab _ _ _ => 28
  | _ => 0

theorem Instr.op_lt (i : Instr) : i.op < 2 ^ 4 := by cases i <;> simp [Instr.op]

theorem Instr.freeBits_le (i : Instr) : i.freeBits ≤ 28 := by cases i <;> simp [Instr.freeBits]

/-- The opcode map has the row of every command. -/
theorem formatRow_mem_opcodeRows (i : Instr) : formatRow i.mnemonic i.op i.freeBits ∈ opcodeRows := by
  rw [opcodeRows_eq_formatRows]
  cases i <;> simp [Instr.mnemonic, Instr.op, Instr.freeBits]

theorem requireZero_eq_ok_iff {v : Word} {lo len : Nat} {i j : Instr} :
    requireZero v lo len i = .ok j ↔ wordField v lo len = 0 ∧ i = j := by
  unfold requireZero
  split_ifs with h <;> simp [h]

/-- A word decodes only to a command whose OP it bears, and only with a ZERO field that is zero. -/
theorem decode_ok_fields {c : Command} {i : Instr} (h : decode c = .ok i) :
    c.cmd.toNat / 2 ^ 28 = i.op ∧ c.cmd.toNat % 2 ^ 28 / 2 ^ i.freeBits = 0 := by
  rw [← wordField_op, ← wordField_zeroField _ i.freeBits_le]
  unfold decode at h
  split at h
  case h_4 hop | h_5 hop => cases h; exact ⟨hop, wordField_len_zero _ _⟩
  case h_9 => cases h
  case h_1 hop | h_2 hop | h_3 hop | h_6 hop | h_7 hop | h_8 hop =>
    obtain ⟨hzero, rfl⟩ := requireZero_eq_ok_iff.mp h
    exact ⟨hop, hzero⟩

/-- A word that decodes selects the row of its command. -/
theorem decode_ok_selects {c : Command} {i : Instr} (h : decode c = .ok i) :
    (formatRow i.mnemonic i.op i.freeBits).selects c.cmd = true :=
  (formatRow_selects_iff _ i.op_lt i.freeBits_le _).mpr (decode_ok_fields h)

/-- A word that selects a row decodes to a command of its mnemonic. -/
theorem decode_of_selects {c : Command} {r : OpcodeRow} (hr : r ∈ opcodeRows) (hsel : r.selects c.cmd = true) :
    ∃ i, decode c = .ok i ∧ i.mnemonic = r.mnemonic := by
  simp only [opcodeRows_eq_formatRows, List.mem_cons, List.not_mem_nil, or_false] at hr
  rcases hr with rfl | rfl | rfl | rfl | rfl | rfl | rfl | rfl
  all_goals
    rw [formatRow_selects_iff _ (by decide) (by decide), ← wordField_op, ← wordField_zeroField _ (by decide)] at hsel
    obtain ⟨hop, hzero⟩ := hsel
    simp [decode, hop, requireZero, hzero, Instr.mnemonic, formatRow]

/-- No two rows of the opcode map bear one mnemonic. -/
theorem eq_of_mnemonic_eq {r r' : OpcodeRow} (hr : r ∈ opcodeRows) (hr' : r' ∈ opcodeRows)
    (h : r.mnemonic = r'.mnemonic) : r = r' :=
  List.inj_on_of_nodup_map (f := OpcodeRow.mnemonic) (by decide) hr hr' h

/-- Settles O3: selecting a row and decoding to its mnemonic imply each other, and a word decodes to one command. -/
theorem decodeFollowsTheOpcodeMap : Obligations.DecodeFollowsTheOpcodeMap := by
  refine ⟨fun c r hr => ⟨decode_of_selects hr, ?_⟩, fun w r hr r' hr' hsel hsel' => ?_⟩
  · rintro ⟨i, hdec, hmnem⟩
    rw [eq_of_mnemonic_eq hr (formatRow_mem_opcodeRows i) hmnem.symm]
    exact decode_ok_selects hdec
  · obtain ⟨i, hdec, hmnem⟩ := decode_of_selects (c := ⟨w, 0, 0⟩) hr hsel
    obtain ⟨j, hdec', hmnem'⟩ := decode_of_selects (c := ⟨w, 0, 0⟩) hr' hsel'
    obtain rfl : i = j := by rwa [hdec, Except.ok.injEq] at hdec'
    exact eq_of_mnemonic_eq hr hr' (hmnem.symm.trans hmnem')

end Sys2Proof

namespace Sys2Proof.Machine

/-! ### Illegal command words (30_encoding.md R88, R89) -/

theorem perform_of_error {c : Command} {e : DecodeError} (h : decode c = .error e) (s : State) :
    perform c s = .next (raiseError .opc s) := by
  rw [perform, h]

theorem cmdReady_iff (s : State) : cmdReady s = true ↔ s.rst = false ∧ (s.rsp = none ∨ s.rspReady = true) := by
  simp [cmdReady]

theorem step_of_cmdReady {s : State} {c : Command} {rest : List Command} (h : cmdReady s = true)
    (ho : s.offered = c :: rest) : step s = perform c (accept rest s) := by
  obtain ⟨hrst, -⟩ := (cmdReady_iff s).mp h
  simp [step, hrst, h, ho]

/-- Settles O6: a command that decodes has the OP and the ZERO field of `decode_ok_fields`, which the hypothesis
excludes for each command; what does not decode only raises ERR_OPC. -/
theorem illegalWordsEndWithErrOpc : Obligations.IllegalWordsEndWithErrOpc := by
  intro s c rest hrst hrsp ho hillegal
  have hstep := step_of_cmdReady ((cmdReady_iff s).mpr ⟨hrst, hrsp⟩) ho
  cases hdec : decode c with
  | ok i =>
    obtain ⟨hop, hzero⟩ := decode_ok_fields hdec
    cases i <;> simp only [Instr.op, Instr.freeBits] at hop hzero <;> omega
  | error e => exact hstep.trans (perform_of_error hdec _)

end Sys2Proof.Machine
end


section
/-! PROOFS. What roundTiesToEven gives in a format of any precision (40_numerics.md R101): the model's `roundShift` and
`roundMagnitude`, which both formats of the block share. -/

namespace Sys2Proof.Machine

/-! ### Rounding to an integer -/

/-- `roundShift` keeps or raises the quotient by `2^k` as the remainder lies below or above half, and takes the even one of
the two at half. -/
theorem roundShift_cases (n k : Nat) : ∃ r, n = n / 2 ^ k * 2 ^ k + r ∧ r < 2 ^ k ∧
    ((2 * r < 2 ^ k ∧ roundShift n k = n / 2 ^ k) ∨
      (2 ^ k < 2 * r ∧ roundShift n k = n / 2 ^ k + 1) ∨
      (2 * r = 2 ^ k ∧ roundShift n k = n / 2 ^ k + n / 2 ^ k % 2)) := by
  have hdiv : n = n / 2 ^ k * 2 ^ k + n % 2 ^ k := (Nat.div_add_mod' n _).symm
  have hrem : n - n / 2 ^ k * 2 ^ k = n % 2 ^ k := by omega
  refine ⟨n % 2 ^ k, hdiv, Nat.mod_lt _ (Nat.two_pow_pos k), ?_⟩
  simp only [roundShift, Nat.shiftRight_eq_div_pow, Nat.shiftLeft_eq, Nat.one_mul, hrem]
  split
  · exact .inl ⟨‹_›, rfl⟩
  · split
    · exact .inr (.inl ⟨‹_›, rfl⟩)
    · exact .inr (.inr ⟨by omega, rfl⟩)

/-- How far `m` scaled by `2^k` lies from `n`. -/
def gap (n k m : Nat) : Nat := ((m * 2 ^ k : Nat) - (n : Int)).natAbs

/-- Rounding `n * 2^-k` to `v`, of encoding `c`, is right as far as `x` goes: `x` is no other value, or it is farther
away, or it is as far and `c` is the even one (40_numerics.md R101). -/
def Prefers (n k c v x : Nat) : Prop := x = v ∨ gap n k v < gap n k x ∨ (gap n k v = gap n k x ∧ c % 2 = 0)

theorem Prefers.gap_le {n k c v x : Nat} (h : Prefers n k c v x) : gap n k v ≤ gap n k x := by
  rcases h with rfl | h | h <;> omega

theorem roundShift_prefers (n k m : Nat) : Prefers n k (roundShift n k) (roundShift n k) m := by
  obtain ⟨r, hn, hr, hcases⟩ := roundShift_cases n k
  generalize n / 2 ^ k = q at hn hcases
  have hnext : (q + 1) * 2 ^ k = q * 2 ^ k + 2 ^ k := Nat.succ_mul q _
  have hother : m ≤ q ∧ m * 2 ^ k ≤ q * 2 ^ k ∧ (m * 2 ^ k = q * 2 ^ k → m = q) ∨
      q + 1 ≤ m ∧ (q + 1) * 2 ^ k ≤ m * 2 ^ k ∧ (m * 2 ^ k = (q + 1) * 2 ^ k → m = q + 1) := by
    have hcancel : ∀ x, m * 2 ^ k = x * 2 ^ k → m = x := fun x => Nat.eq_of_mul_eq_mul_right (Nat.two_pow_pos k)
    rcases Nat.lt_or_ge q m with h | h
    · exact .inr ⟨h, Nat.mul_le_mul_right _ h, hcancel _⟩
    · exact .inl ⟨h, Nat.mul_le_mul_right _ h, hcancel _⟩
  unfold Prefers gap
  rcases hcases with ⟨hlow, hR⟩ | ⟨hhigh, hR⟩ | ⟨htie, hR⟩
  · rw [hR]; omega
  · rw [hR]; omega
  · rcases Nat.mod_two_eq_zero_or_one q with hq | hq
    · rw [hR, hq, Nat.add_zero]; omega
    · rw [hR, hq]; omega

theorem lt_scaled_of_lt {a b : Nat} (k : Nat) (h : a < b) : a * 2 ^ k < b * 2 ^ k :=
  Nat.mul_lt_mul_of_pos_right h (Nat.two_pow_pos k)

theorem roundShift_le {n k m : Nat} (h : n ≤ m * 2 ^ k) : roundShift n k ≤ m := by
  by_contra hlt
  have hscaled := lt_scaled_of_lt k (Nat.lt_of_not_ge hlt)
  have hm := (roundShift_prefers n k m).gap_le
  unfold gap at hm
  omega

theorem le_roundShift {n k m : Nat} (h : m * 2 ^ k ≤ n) : m ≤ roundShift n k := by
  by_contra hlt
  have hscaled := lt_scaled_of_lt k (Nat.lt_of_not_ge hlt)
  have hm := (roundShift_prefers n k m).gap_le
  unfold gap at hm
  omega

theorem roundShift_multiple (m k : Nat) : roundShift (m * 2 ^ k) k = m :=
  Nat.le_antisymm (roundShift_le le_rfl) (le_roundShift le_rfl)

/-! ### The magnitudes of a format with `f` fraction bits and no largest exponent -/

/-- The magnitude that an encoding without sign stands for, in units of the smallest subnormal: a significand, below
`2^(f+1)`, scaled by a power of two. -/
def encodedMagnitude (f e : Nat) : Nat := (e - (e / 2 ^ f - 1) * 2 ^ f) * 2 ^ (e / 2 ^ f - 1)

/-- Every encoding is a significand beside a scale, with the leading bit set unless the scale is 1. -/
theorem exists_significand (f e : Nat) :
    ∃ s R, e = s * 2 ^ f + R ∧ (s = 0 ∨ 2 ^ f ≤ R) ∧ R < 2 ^ (f + 1) := by
  have hdiv : e / 2 ^ f * 2 ^ f + e % 2 ^ f = e := Nat.div_add_mod' e _
  have hmod := Nat.mod_lt e (Nat.two_pow_pos f)
  cases h : e / 2 ^ f with
  | zero => exact ⟨0, e, by omega, .inl rfl, by rw [h] at hdiv; omega⟩
  | succ s =>
    rw [h, Nat.succ_mul] at hdiv
    exact ⟨s, 2 ^ f + e % 2 ^ f, by omega, .inr (by omega), by omega⟩

/-- The significand `2^(f+1)` is the one that carries into the next binade. -/
theorem encodedMagnitude_significand {f s R : Nat} (hlo : s = 0 ∨ 2 ^ f ≤ R) (hhi : R ≤ 2 ^ (f + 1)) :
    encodedMagnitude f (s * 2 ^ f + R) = R * 2 ^ s := by
  have hpos := Nat.two_pow_pos f
  rw [Nat.pow_succ] at hhi
  have hquot : (s * 2 ^ f + R) / 2 ^ f = s + R / 2 ^ f := by
    rw [Nat.add_comm, Nat.add_mul_div_right _ _ hpos, Nat.add_comm]
  rcases Nat.lt_or_eq_of_le hhi with hlt | rfl
  · have hscale : s + R / 2 ^ f - 1 = s := by
      rcases Nat.lt_or_ge R (2 ^ f) with hR | hR
      · rw [Nat.div_eq_of_lt hR]; omega
      · rw [Nat.div_eq_of_lt_le (k := 1) (by omega) (by omega)]; omega
    rw [encodedMagnitude, hquot, hscale, Nat.add_sub_cancel_left]
  · have hscale : s + 2 ^ f * 2 / 2 ^ f - 1 = s + 1 := by rw [Nat.mul_div_cancel_left _ hpos]; omega
    have hcarry : s * 2 ^ f + 2 ^ f * 2 - (s + 1) * 2 ^ f = 2 ^ f := by rw [Nat.succ_mul]; omega
    rw [encodedMagnitude, hquot, hscale, hcarry, Nat.pow_succ, Nat.mul_assoc, Nat.mul_comm 2]

theorem encodedMagnitude_strictMono (f : Nat) : StrictMono (encodedMagnitude f) := by
  refine strictMono_nat_of_lt_succ fun e => ?_
  obtain ⟨s, R, rfl, hlo, hhi⟩ := exists_significand f e
  rw [Nat.add_assoc, encodedMagnitude_significand hlo hhi.le, encodedMagnitude_significand (by omega) hhi]
  exact lt_scaled_of_lt s R.lt_succ_self

/-- From the least significand of scale `2^s` on, every magnitude is a multiple of `2^s`. -/
theorem encodedMagnitude_lt_or_multiple (f s e : Nat) :
    encodedMagnitude f e < 2 ^ f * 2 ^ s ∨ ∃ m, encodedMagnitude f e = m * 2 ^ s := by
  obtain ⟨t, R, rfl, hlo, hhi⟩ := exists_significand f e
  rw [encodedMagnitude_significand hlo hhi.le]
  rcases Nat.lt_or_ge t s with hts | hst
  · left
    calc R * 2 ^ t < 2 ^ (f + 1) * 2 ^ t := lt_scaled_of_lt t hhi
      _ = 2 ^ f * 2 ^ (t + 1) := by rw [Nat.pow_succ, Nat.pow_succ, Nat.mul_assoc, Nat.mul_comm 2]
      _ ≤ 2 ^ f * 2 ^ s := Nat.mul_le_mul_left _ (Nat.pow_le_pow_right (by omega) hts)
  · right
    obtain ⟨d, rfl⟩ := Nat.exists_eq_add_of_le' hst
    exact ⟨R * 2 ^ d, by rw [Nat.pow_add, Nat.mul_assoc]⟩

/-! ### Rounding to a significand -/

/-- The scale that leaves `f + 1` bits of `n * 2^-k` before the point, or all of them in the subnormal range. -/
def roundScale (f n k : Nat) : Nat := Nat.log2 (n >>> k) + 1 - (f + 1)

theorem roundMagnitude_eq (f n k : Nat) :
    roundMagnitude (f + 1) n k = roundScale f n k * 2 ^ f + roundShift n (k + roundScale f n k) := by
  simp only [roundMagnitude, roundScale, Nat.shiftLeft_eq, Nat.add_sub_cancel]

/-- The real to round lies in the binade of its scale. -/
theorem roundScale_bounds (f n k : Nat) :
    (roundScale f n k = 0 ∨ 2 ^ f * 2 ^ (k + roundScale f n k) ≤ n) ∧ n < 2 ^ (f + 1) * 2 ^ (k + roundScale f n k) := by
  have hdiv : n >>> k = n / 2 ^ k := Nat.shiftRight_eq_div_pow n k
  constructor
  · rcases Nat.eq_zero_or_pos (roundScale f n k) with h0 | hpos
    · exact .inl h0
    · right
      have hlog : f + roundScale f n k = Nat.log2 (n >>> k) := by unfold roundScale at *; omega
      have hne : n >>> k ≠ 0 := fun h0 => by rw [h0, Nat.log2_zero] at hlog; omega
      have hself : 2 ^ (f + roundScale f n k) ≤ n / 2 ^ k := by
        rw [hlog, ← hdiv]; exact Nat.log2_self_le hne
      calc 2 ^ f * 2 ^ (k + roundScale f n k) = 2 ^ (f + roundScale f n k) * 2 ^ k := by
            rw [← Nat.pow_add, ← Nat.pow_add]; congr 1; omega
        _ ≤ n / 2 ^ k * 2 ^ k := Nat.mul_le_mul_right _ hself
        _ ≤ n := Nat.div_mul_le_self n _
  · have hlt : n / 2 ^ k < 2 ^ (f + 1 + roundScale f n k) := by
      rw [← hdiv]
      exact Nat.lt_of_lt_of_le Nat.lt_log2_self
        (Nat.pow_le_pow_right (by omega) (by unfold roundScale; omega))
    calc n < 2 ^ (f + 1 + roundScale f n k) * 2 ^ k := (Nat.div_lt_iff_lt_mul (Nat.two_pow_pos k)).mp hlt
      _ = 2 ^ (f + 1) * 2 ^ (k + roundScale f n k) := by rw [← Nat.pow_add, ← Nat.pow_add]; congr 1; omega

/-- The magnitude of the rounded encoding is the integer that the scaled real rounds to, scaled back. -/
theorem encodedMagnitude_roundMagnitude (f n k : Nat) : encodedMagnitude f (roundMagnitude (f + 1) n k) =
    roundShift n (k + roundScale f n k) * 2 ^ roundScale f n k := by
  obtain ⟨hlo, hhi⟩ := roundScale_bounds f n k
  rw [roundMagnitude_eq]
  exact encodedMagnitude_significand (hlo.imp_right le_roundShift) (roundShift_le hhi.le)

theorem gap_scaled (n k s m : Nat) : gap n k (m * 2 ^ s) = gap n (k + s) m := by
  rw [gap, gap, Nat.mul_assoc, ← Nat.pow_add, Nat.add_comm s k]

/-- roundTiesToEven in a format with no largest exponent. A magnitude that is no multiple of the scale lies below the
whole binade of the real. -/
theorem roundMagnitude_prefers {f : Nat} (hf : 1 ≤ f) (n k e : Nat) :
    Prefers n k (roundMagnitude (f + 1) n k) (encodedMagnitude f (roundMagnitude (f + 1) n k))
      (encodedMagnitude f e) := by
  have hround := roundShift_prefers n (k + roundScale f n k)
  have hparity : roundMagnitude (f + 1) n k % 2 = roundShift n (k + roundScale f n k) % 2 := by
    obtain ⟨g, rfl⟩ := Nat.exists_eq_add_of_le' hf
    rw [roundMagnitude_eq, Nat.pow_succ, ← Nat.mul_assoc]; omega
  obtain ⟨hlo, -⟩ := roundScale_bounds f n k
  rw [encodedMagnitude_roundMagnitude, Prefers, hparity, gap_scaled]
  generalize roundScale f n k = s at *
  rcases encodedMagnitude_lt_or_multiple f s e with hbelow | ⟨m, hm⟩
  · rcases hlo with rfl | hbinade
    · simpa [Prefers] using hround (encodedMagnitude f e)
    · have hscaled := lt_scaled_of_lt k hbelow
      have hcorner := (hround (2 ^ f)).gap_le
      rw [Nat.mul_assoc, ← Nat.pow_add, Nat.add_comm s k] at hscaled
      have : gap n (k + s) (2 ^ f) < gap n k (encodedMagnitude f e) := by unfold gap; omega
      omega
  · rw [hm, gap_scaled]
    exact (hround m).imp_left (congrArg (· * 2 ^ s))

/-- A real whose significand fits in `f + 1` bits is rounded to itself. -/
theorem roundMagnitude_exact {f m s k : Nat} (hm : m < 2 ^ (f + 1)) :
    encodedMagnitude f (roundMagnitude (f + 1) (m * 2 ^ (s + k)) k) = m * 2 ^ s := by
  rw [encodedMagnitude_roundMagnitude]
  obtain ⟨hlo, -⟩ := roundScale_bounds f (m * 2 ^ (s + k)) k
  generalize roundScale f (m * 2 ^ (s + k)) k = t at *
  have hts : t ≤ s := by
    by_contra hst
    have hbinade : m * 2 ^ (s + k) < 2 ^ f * 2 ^ (k + t) :=
      calc m * 2 ^ (s + k) < 2 ^ (f + 1) * 2 ^ (s + k) := lt_scaled_of_lt _ hm
        _ = 2 ^ f * 2 ^ (k + (s + 1)) := by rw [← Nat.pow_add, ← Nat.pow_add]; congr 1; omega
        _ ≤ 2 ^ f * 2 ^ (k + t) := Nat.mul_le_mul_left _ (Nat.pow_le_pow_right (by omega) (by omega))
    omega
  obtain ⟨d, rfl⟩ := Nat.exists_eq_add_of_le' hts
  have hn : m * 2 ^ (d + t + k) = m * 2 ^ d * 2 ^ (k + t) := by
    rw [Nat.mul_assoc, ← Nat.pow_add]; congr 2; omega
  rw [hn, roundShift_multiple, Nat.mul_assoc, ← Nat.pow_add]

/-! ### Overflow -/

/-- The encoding above all those of scale at most `2^(s+1)`, as an infinity's is. -/
theorem encodedMagnitude_above (f s : Nat) : encodedMagnitude f ((s + 3) * 2 ^ f) = 4 * 2 ^ f * 2 ^ s := by
  rw [show (s + 3) * 2 ^ f = (s + 1) * 2 ^ f + 2 ^ (f + 1) by ring,
    encodedMagnitude_significand (.inr (Nat.pow_le_pow_right (by omega) (by omega))) le_rfl]
  ring

/-- The largest magnitude of scale `2^(s+1)`. -/
theorem encodedMagnitude_last (f s : Nat) :
    encodedMagnitude f ((s + 3) * 2 ^ f - 1) = (4 * 2 ^ f - 2) * 2 ^ s := by
  have hpos := Nat.two_pow_pos f
  have hsplit : (s + 3) * 2 ^ f = (s + 1) * 2 ^ f + 2 * 2 ^ f := by ring
  rw [hsplit, Nat.add_sub_assoc (by omega), encodedMagnitude_significand (.inr (by omega)) (by rw [Nat.pow_succ]; omega),
    Nat.pow_succ', ← Nat.mul_assoc, Nat.sub_mul, Nat.mul_right_comm]

/-- A real whose significand and scale both fit does not overflow. -/
theorem roundMagnitude_lt_above {f m s t : Nat} (k : Nat) (hm : m < 2 ^ (f + 1)) (hs : s ≤ t + 1) :
    roundMagnitude (f + 1) (m * 2 ^ (s + k)) k < (t + 3) * 2 ^ f := by
  rw [← (encodedMagnitude_strictMono f).lt_iff_lt, roundMagnitude_exact hm, encodedMagnitude_above]
  calc m * 2 ^ s < 2 ^ (f + 1) * 2 ^ s := lt_scaled_of_lt s hm
    _ ≤ 2 ^ (f + 1) * 2 ^ (t + 1) := Nat.mul_le_mul_left _ (Nat.pow_le_pow_right (by omega) hs)
    _ = 4 * 2 ^ f * 2 ^ t := by ring

/-- Where a format of largest scale `2^(s+1)` overflows: rounding reaches the encoding above it exactly from half way
between the two magnitudes on, the tie going up as the largest encoding is odd. -/
theorem above_le_roundMagnitude_iff {f : Nat} (hf : 1 ≤ f) (s n k : Nat) :
    (s + 3) * 2 ^ f ≤ roundMagnitude (f + 1) n k ↔ (4 * 2 ^ f - 1) * 2 ^ s * 2 ^ k ≤ n := by
  have hprefer := roundMagnitude_prefers hf n k
  have habove := hprefer ((s + 3) * 2 ^ f)
  have hlast := (hprefer ((s + 3) * 2 ^ f - 1)).gap_le
  have hmono := encodedMagnitude_strictMono f
  have heven : (s + 3) * 2 ^ f % 2 = 0 := by
    obtain ⟨g, rfl⟩ := Nat.exists_eq_add_of_le' hf
    rw [Nat.pow_succ, ← Nat.mul_assoc]; omega
  have hunit : 0 < 2 ^ s * 2 ^ k ∧ 2 ^ s * 2 ^ k ≤ 2 ^ f * (2 ^ s * 2 ^ k) :=
    ⟨by positivity, Nat.le_mul_of_pos_left _ (Nat.two_pow_pos f)⟩
  have hscaledAbove : encodedMagnitude f ((s + 3) * 2 ^ f) * 2 ^ k = 4 * (2 ^ f * (2 ^ s * 2 ^ k)) := by
    rw [encodedMagnitude_above]; ring
  have hscaledLast : encodedMagnitude f ((s + 3) * 2 ^ f - 1) * 2 ^ k =
      4 * (2 ^ f * (2 ^ s * 2 ^ k)) - 2 * (2 ^ s * 2 ^ k) := by
    rw [encodedMagnitude_last, Nat.mul_assoc, Nat.sub_mul, Nat.mul_assoc]
  rw [Nat.mul_assoc, Nat.sub_mul, Nat.one_mul, Nat.mul_assoc]
  constructor
  · intro hreach
    have hscaled := Nat.mul_le_mul_right (2 ^ k) (hmono.monotone hreach)
    unfold gap at hlast
    omega
  · intro hover
    by_contra hbelow
    rcases Nat.lt_or_eq_of_le (Nat.le_sub_one_of_lt (Nat.lt_of_not_ge hbelow)) with hlt | heq
    · have hscaled := lt_scaled_of_lt k (hmono hlt)
      unfold gap at hlast
      omega
    · have hne := hmono (Nat.lt_of_not_ge hbelow)
      rw [heq] at hne habove
      unfold Prefers gap at habove
      omega

end Sys2Proof.Machine
end


section
/-! PROOFS. Rounding to binary64 (40_numerics.md R101, R115): roundTiesToEven below the overflow threshold, an infinity
from there on, and the real itself where binary64 holds it. -/

namespace Sys2Proof.Machine

/-! ### The encoding of a datum without its sign -/

theorem magnitude_eq (d : F64) : magnitude d = encodedMagnitude 52 (d.toNat % 2 ^ 63) := by
  have hfrac := fracField_lt d
  have henc : d.toNat % 2 ^ 63 = expoField d * 2 ^ 52 + fracField d := by rw [expoField_eq, fracField_eq]; omega
  rw [magnitude, henc]
  split
  · next h =>
    rw [h, encodedMagnitude_significand (.inl rfl) (by omega), Nat.pow_zero, Nat.mul_one]
  · next h =>
    have hlead : expoField d * 2 ^ 52 + fracField d = (expoField d - 1) * 2 ^ 52 + (2 ^ 52 + fracField d) := by omega
    rw [hlead, encodedMagnitude_significand (.inr (Nat.le_add_right _ _)) (by omega), Nat.shiftLeft_eq]

theorem round64_toNat (neg : Bool) (n k : Nat) :
    (round64 neg n k).toNat % 2 ^ 63 = min (roundMagnitude 53 n k) infEncoding := by
  have := min_infEncoding_lt (roundMagnitude 53 n k)
  rw [round64, BitVec.toNat_ofNat]
  cases neg with
  | false => rw [if_neg Bool.false_ne_true]; omega
  | true => rw [if_pos rfl]; omega

theorem units_eq_signed (d : F64) : units d = signed (signBit d) (magnitude d) := rfl

theorem natAbs_signed (neg : Bool) (n : Nat) : (signed neg n).natAbs = n := by cases neg <;> simp [signed]

theorem signed_mul (neg : Bool) (m n : Nat) : signed neg (m * n) = signed neg m * n := by
  cases neg <;> simp [signed]

/-! ### Below and from the overflow threshold -/

theorem infEncoding_eq_above : infEncoding = (2044 + 3) * 2 ^ 52 := infEncoding_eq

/-- The threshold is half way between the largest finite magnitude and the infinity's. -/
theorem overflow64_eq : overflow64 = (4 * 2 ^ 52 - 1) * 2 ^ 2044 := by decide +kernel

theorem infEncoding_le_roundMagnitude_iff (n k : Nat) :
    infEncoding ≤ roundMagnitude 53 n k ↔ overflow64 * 2 ^ k ≤ n := by
  rw [infEncoding_eq_above, overflow64_eq]
  exact above_le_roundMagnitude_iff (by decide) 2044 n k

theorem isInf_round64_iff (neg : Bool) (n k : Nat) : isInf (round64 neg n k) = true ↔ overflow64 * 2 ^ k ≤ n := by
  rw [isInf_round64, decide_eq_true_eq, infEncoding_le_roundMagnitude_iff]

theorem isFinite_round64 {neg : Bool} {n k : Nat} (h : n < overflow64 * 2 ^ k) : IsFinite (round64 neg n k) :=
  ⟨isNaN_round64 .., Bool.eq_false_iff.mpr fun hinf => absurd ((isInf_round64_iff ..).mp hinf) (Nat.not_le.mpr h)⟩

theorem round64_toNat_of_lt {neg : Bool} {n k : Nat} (h : n < overflow64 * 2 ^ k) :
    (round64 neg n k).toNat % 2 ^ 63 = roundMagnitude 53 n k := by
  rw [round64_toNat, Nat.min_eq_left]
  have := infEncoding_le_roundMagnitude_iff n k
  omega

theorem units_round64 {neg : Bool} {n k : Nat} (h : n < overflow64 * 2 ^ k) :
    units (round64 neg n k) = signed neg (encodedMagnitude 52 (roundMagnitude 53 n k)) := by
  rw [units_eq_signed, signBit_round64, magnitude_eq, round64_toNat_of_lt h]

theorem fracField_round64_parity {neg : Bool} {n k : Nat} (h : n < overflow64 * 2 ^ k) :
    fracField (round64 neg n k) % 2 = roundMagnitude 53 n k % 2 := by
  rw [← round64_toNat_of_lt (neg := neg) h, fracField_eq]
  omega

theorem gap_signed (neg : Bool) (n k m : Nat) : (signed neg m * 2 ^ k - signed neg n).natAbs = gap n k m := by
  rw [gap, Nat.cast_mul, Nat.cast_pow, Nat.cast_two]
  cases neg with
  | false => rfl
  | true => simp only [signed, if_true, Int.neg_mul]; omega

theorem gap_signed_not (neg : Bool) (n k m : Nat) :
    (signed (!neg) m * 2 ^ k - signed neg n).natAbs = m * 2 ^ k + n := by
  rw [← Int.natCast_inj, Nat.cast_add, Nat.cast_mul, Nat.cast_pow, Nat.cast_two]
  have hpos : (0 : Int) ≤ m * 2 ^ k := by positivity
  cases neg with
  | false => simp only [signed, Bool.not_false, if_true, Bool.false_eq_true, if_false, Int.neg_mul]; omega
  | true => simp only [signed, Bool.not_true, if_true, Bool.false_eq_true, if_false]; omega

/-- Below the threshold `round64` is roundTiesToEven (40_numerics.md R101). A value of the other sign is as far from the
real as 0 and more, so what holds of 0 holds of it. -/
theorem round64_isNearestEven {neg : Bool} {n k : Nat} (h : n < overflow64 * 2 ^ k) :
    IsNearestEven64 (round64 neg n k) (signed neg n) k := by
  refine ⟨(isFinite_round64 h).1, (isFinite_round64 h).2, fun e _ _ => ?_⟩
  have hprefer : ∀ x, Prefers n k (roundMagnitude 53 n k) (encodedMagnitude 52 (roundMagnitude 53 n k))
    (encodedMagnitude 52 x) := roundMagnitude_prefers (f := 52) (by decide) n k
  rw [fracField_round64_parity h, units_round64 h, gap_signed, units_eq_signed e]
  generalize encodedMagnitude 52 (roundMagnitude 53 n k) = v at *
  by_cases hs : signBit e = neg
  · have he := hprefer (e.toNat % 2 ^ 63)
    rw [← magnitude_eq] at he
    rw [hs, gap_signed]
    refine ⟨he.gap_le, fun htie hne => ?_⟩
    rcases he with heq | hlt | ⟨-, heven⟩
    · exact absurd (heq ▸ rfl) hne
    · omega
    · exact heven
  · have hzero : Prefers n k _ v 0 := hprefer 0
    have hgap : gap n k 0 = n := by simp [gap]
    have hle := hzero.gap_le
    rw [Bool.eq_not_of_ne hs, gap_signed_not]
    refine ⟨by omega, fun htie hne => ?_⟩
    have hscaled : magnitude e * 2 ^ k = 0 := by omega
    have hmag : magnitude e = 0 := by simpa using hscaled
    rcases hzero with heq | hlt | ⟨-, heven⟩
    · exact absurd (by rw [hmag, ← heq]; cases neg <;> rfl) hne
    · omega
    · exact heven

/-! ### Reals that binary64 holds -/

/-- A real whose significand fits in 53 bits, and whose scale in the exponent, is rounded to itself. -/
theorem round64_exact {neg : Bool} {n k s : Nat} {m : Int} (hn : signed neg n = m * 2 ^ (s + k))
    (hm : m.natAbs < 2 ^ 53) (hs : s ≤ 2045) :
    IsFinite (round64 neg n k) ∧ units (round64 neg n k) = m * 2 ^ s := by
  have habs : n = m.natAbs * 2 ^ (s + k) := by
    rw [← natAbs_signed neg n, hn, Int.natAbs_mul, Int.natAbs_pow]; rfl
  have hfinite : n < overflow64 * 2 ^ k := by
    rw [← Nat.not_le, ← infEncoding_le_roundMagnitude_iff, Nat.not_le, infEncoding_eq_above, habs]
    exact roundMagnitude_lt_above k hm hs
  have hexact : encodedMagnitude 52 (roundMagnitude 53 n k) = m.natAbs * 2 ^ s := by
    rw [habs]; exact roundMagnitude_exact hm
  refine ⟨isFinite_round64 hfinite, ?_⟩
  have hpos : (2 ^ k : Int) ≠ 0 := by positivity
  apply mul_right_cancel₀ hpos
  rw [units_round64 hfinite, hexact, mul_assoc, ← pow_add, ← hn, habs, pow_add, ← Nat.mul_assoc, signed_mul neg _ (2 ^ k)]
  push_cast
  rfl

theorem round64_zero (neg : Bool) (k : Nat) : round64 neg 0 k = zero64 neg := by
  have hscale : roundScale 52 0 k = 0 := by simp [roundScale]
  have hshift : roundShift 0 k = 0 := by simpa using roundShift_multiple 0 k
  have hmag : roundMagnitude 53 0 k = 0 := by
    rw [roundMagnitude_eq 52, hscale, Nat.add_zero, hshift]; rfl
  rw [round64, hmag]
  cases neg <;> rfl

end Sys2Proof.Machine
end


section
/-! PROOFS. The statements of 40_numerics.md on fmul (R102), fadd, fneg and fsub (R103), u32_to_f64 (R118), the
sawtooth (R110) and the table index of a phase (R111). -/

namespace Sys2Proof.Machine

/-! ### fmul (40_numerics.md R102) -/

theorem units_mul (a b : F64) : units a * units b = signed (signBit a ^^ signBit b) (magnitude a * magnitude b) := by
  rw [units_eq_signed, units_eq_signed]
  cases signBit a <;> cases signBit b <;> simp [signed]

theorem natAbs_units_mul (a b : F64) : (units a * units b).natAbs = magnitude a * magnitude b := by
  rw [units_mul, natAbs_signed]

theorem fmul_of_invalid {a b : F64}
    (h : isNaN a = true ∨ isNaN b = true ∨ (isInf a = true ∧ isZero b = true) ∨ (isZero a = true ∧ isInf b = true)) :
    fmul a b = canonicalNaN := by
  by_cases hnan : (isNaN a || isNaN b) = true
  · exact if_pos hnan
  · have hinvalid : (isInf a && isZero b || isZero a && isInf b) = true := by simp_all
    rw [fmul, if_neg hnan, if_pos hinvalid]

theorem not_isZero_of_isInf {d : F64} (h : isInf d = true) : isZero d = false := by
  simp_all [isInf, isZero]

theorem fmul_of_isInf {a b : F64} (ha : isNaN a = false) (hb : isNaN b = false)
    (h : isInf a = true ∧ isZero b = false ∨ isInf b = true ∧ isZero a = false) :
    fmul a b = infinity (signBit a ^^ signBit b) := by
  rcases h with ⟨hinf, hz⟩ | ⟨hinf, hz⟩
  · simp [fmul, ha, hb, hinf, hz, not_isZero_of_isInf hinf]
  · simp [fmul, ha, hb, hinf, hz, not_isZero_of_isInf hinf]

/-- A product of finite operands is rounded once, a zero product to the zero of its sign. -/
theorem fmul_of_isFinite {a b : F64} (ha : IsFinite a) (hb : IsFinite b) :
    fmul a b = round64 (signBit a ^^ signBit b) (magnitude a * magnitude b) 1074 := by
  obtain ⟨hna, hia⟩ := ha
  obtain ⟨hnb, hib⟩ := hb
  by_cases hzero : magnitude a * magnitude b = 0
  · simp [fmul, hna, hnb, hia, hib, hzero, round64_zero]
  · simp only [fmul, hna, hnb, hia, hib, if_neg hzero, Bool.or_self, Bool.false_and, Bool.and_false, Bool.false_eq_true,
      if_false]

theorem signBit_infinity (neg : Bool) : signBit (infinity neg) = neg := by cases neg <;> rfl

/-- Settles O51: the clauses are the branches of `fmul`, the last one `round64_isNearestEven`. -/
theorem fmulRoundsTheExactProduct : Obligations.FmulRoundsTheExactProduct := by
  intro a b
  refine ⟨fmul_of_invalid, fun ha hb hinf => ?_, fun hna hnb hia hib => ?_⟩
  · rw [fmul_of_isInf ha hb hinf]
    exact ⟨isInf_infinity _, signBit_infinity _⟩
  · rw [fmul_of_isFinite ⟨hna, hia⟩ ⟨hnb, hib⟩, natAbs_units_mul, units_mul]
    refine ⟨signBit_round64 .., fun hzero => ?_, round64_isNearestEven, (isInf_round64_iff ..).mpr⟩
    rw [← units_mul, ← Int.natAbs_eq_zero, natAbs_units_mul] at hzero
    rw [hzero, round64_zero, isZero_zero64]

/-! ### fadd, fneg and fsub (40_numerics.md R103) -/

theorem fadd_of_invalid {a b : F64}
    (h : isNaN a = true ∨ isNaN b = true ∨ (isInf a = true ∧ isInf b = true ∧ signBit a ≠ signBit b)) :
    fadd a b = canonicalNaN := by
  by_cases hnan : (isNaN a || isNaN b) = true
  · exact if_pos hnan
  · have hopposite : (isInf a && isInf b && (signBit a != signBit b)) = true := by simp_all
    rw [fadd, if_neg hnan, if_pos hopposite]

theorem fadd_of_isInf_left {a b : F64} (hb : isNaN b = false) (ha : isInf a = true)
    (hs : isInf b = true → signBit a = signBit b) : fadd a b = a := by
  have hna := not_isNaN_of_isInf ha
  cases hib : isInf b with
  | false => simp [fadd, hna, hb, ha, hib]
  | true => simp [fadd, hna, hb, ha, hs hib]

theorem fadd_of_isInf_right {a b : F64} (hna : isNaN a = false) (hia : isInf a = false) (hb : isInf b = true) :
    fadd a b = b := by
  simp [fadd, hna, hia, not_isNaN_of_isInf hb, hb]

/-- The sign of a sum of finite operands: an exact zero is negative only as a sum of two negative zeros. -/
def sumSign (a b : F64) : Bool :=
  if units a + units b = 0 then isZero a && isZero b && signBit a && signBit b else decide (units a + units b < 0)

/-- A sum of finite operands is rounded once, with the sum's sign. -/
theorem fadd_of_isFinite {a b : F64} (ha : IsFinite a) (hb : IsFinite b) :
    fadd a b = round64 (sumSign a b) (units a + units b).natAbs 0 := by
  obtain ⟨hna, hia⟩ := ha
  obtain ⟨hnb, hib⟩ := hb
  by_cases hzero : units a + units b = 0
  · simp [fadd, sumSign, hna, hnb, hia, hib, hzero, round64_zero]
  · simp [fadd, sumSign, hna, hnb, hia, hib, hzero]

theorem signed_sumSign (a b : F64) : signed (sumSign a b) (units a + units b).natAbs = units a + units b := by
  by_cases hzero : units a + units b = 0
  · rw [hzero]; cases sumSign a b <;> rfl
  · rw [sumSign, if_neg hzero, signed]
    split
    · next hneg => rw [decide_eq_true_eq] at hneg; omega
    · next hpos => rw [decide_eq_true_eq] at hpos; omega

theorem eq_negZero_iff (d : F64) : d = 0x8000000000000000 ↔ isZero d = true ∧ signBit d = true := by
  constructor
  · rintro rfl; decide
  · rintro ⟨hz, hs⟩
    rw [isZero, Bool.and_eq_true, beq_iff_eq, beq_iff_eq] at hz
    obtain ⟨he, hf⟩ := hz
    exact eq_of_fields hs he hf

theorem fadd_of_sum_zero {a b : F64} (ha : IsFinite a) (hb : IsFinite b) (hzero : units a + units b = 0) :
    fadd a b = if a = 0x8000000000000000 ∧ b = 0x8000000000000000 then 0x8000000000000000 else 0 := by
  rw [fadd_of_isFinite ha hb, hzero, Int.natAbs_zero, round64_zero, sumSign, if_pos hzero, zero64]
  refine if_congr ?_ rfl rfl
  rw [eq_negZero_iff, eq_negZero_iff, Bool.and_eq_true, Bool.and_eq_true, Bool.and_eq_true]
  tauto

theorem expoField_fneg (a : F64) : expoField (fneg a) = expoField a := by
  simp [expoField, fneg, BitVec.extractLsb'_xor]

theorem fracField_fneg (a : F64) : fracField (fneg a) = fracField a := by
  simp [fracField, fneg, BitVec.extractLsb'_xor]

theorem isNaN_fneg (a : F64) : isNaN (fneg a) = isNaN a := by
  rw [isNaN, isNaN, expoField_fneg, fracField_fneg]

/-- Settles O52: the clauses are the branches of `fadd`, the last one `round64_isNearestEven`. -/
theorem faddRoundsTheExactSum : Obligations.FaddRoundsTheExactSum := by
  intro a b
  refine ⟨fadd_of_invalid, fadd_of_isInf_left, fadd_of_isInf_right, fun hna hnb hia hib => ?_, rfl, rfl, fun hnan => ?_⟩
  · have ha : IsFinite a := ⟨hna, hia⟩
    have hb : IsFinite b := ⟨hnb, hib⟩
    refine ⟨fadd_of_sum_zero ha hb, ?_⟩
    rw [fadd_of_isFinite ha hb]
    refine ⟨fun hne => by rw [signBit_round64, sumSign, if_neg hne], fun hlt => ?_,
      fun hle => (isInf_round64_iff ..).mpr (by omega)⟩
    have hnearest := round64_isNearestEven (neg := sumSign a b) (n := (units a + units b).natAbs) (k := 0) (by omega)
    rwa [signed_sumSign] at hnearest
  · rw [← isNaN_fneg b] at hnan
    exact fadd_of_invalid (by tauto)

/-! ### The sawtooth (40_numerics.md R110, R118) -/

theorem fmul_exact {a b : F64} (ha : IsFinite a) (hb : IsFinite b) {m : Int} {s : Nat}
    (h : units a * units b = m * 2 ^ (s + 1074)) (hm : m.natAbs < 2 ^ 53) (hs : s ≤ 2045) :
    IsFinite (fmul a b) ∧ units (fmul a b) = m * 2 ^ s := by
  rw [fmul_of_isFinite ha hb]
  exact round64_exact ((units_mul a b).symm.trans h) hm hs

theorem fadd_exact {a b : F64} (ha : IsFinite a) (hb : IsFinite b) {m : Int} {s : Nat}
    (h : units a + units b = m * 2 ^ s) (hm : m.natAbs < 2 ^ 53) (hs : s ≤ 2045) :
    IsFinite (fadd a b) ∧ units (fadd a b) = m * 2 ^ s := by
  rw [fadd_of_isFinite ha hb]
  exact round64_exact ((signed_sumSign a b).trans h) hm hs

theorem signed_shiftLeft (neg : Bool) (n s : Nat) : signed neg (n <<< s) = signed neg n * 2 ^ s := by
  rw [Nat.shiftLeft_eq, signed_mul, Nat.cast_pow, Nat.cast_two]

theorem u32ToF64_exact (u : Word) : IsFinite (u32ToF64 u) ∧ units (u32ToF64 u) = u.toNat * 2 ^ 1074 :=
  round64_exact (k := 0) (signed_shiftLeft false u.toNat 1074) (by have := u.isLt; omega) (by decide)

theorem units_twoToMinus31 : units twoToMinus31 = 2 ^ 1043 := by decide +kernel

theorem units_fneg_one64 : units (fneg one64) = -(2 ^ 31 * 2 ^ 1043) := by decide +kernel

/-- The scaled phase is exact: its significand is the phase. -/
theorem scaledPhase_exact (p : Word) : IsFinite (fmul (u32ToF64 p) twoToMinus31) ∧
    units (fmul (u32ToF64 p) twoToMinus31) = p.toNat * 2 ^ 1043 := by
  obtain ⟨hfinite, hunits⟩ := u32ToF64_exact p
  refine fmul_exact hfinite (by decide) ?_ (by have := p.isLt; omega) (by decide)
  rw [hunits, units_twoToMinus31, pow_add, mul_assoc, mul_comm (2 ^ 1074)]

/-- The sawtooth is exact: its significand is the distance of the phase from the middle. -/
theorem saw_exact (p : Word) : IsFinite (saw p) ∧ units (saw p) = ((p.toNat : Int) - 2 ^ 31) * 2 ^ 1043 := by
  obtain ⟨hfinite, hunits⟩ := scaledPhase_exact p
  refine fadd_exact hfinite (by decide) ?_ (by have := p.isLt; omega) (by decide)
  rw [hunits, units_fneg_one64, sub_mul, sub_eq_add_neg]

/-- Settles O56: each operation of `saw` is exact, as its significand fits in 53 bits. -/
theorem sawtoothIsExact : Obligations.SawtoothIsExact := by
  refine ⟨fun u => ?_, round64_zero false 0, fun p => ?_⟩
  · obtain ⟨⟨hnan, hinf⟩, hunits⟩ := u32ToF64_exact u
    exact ⟨hnan, hinf, hunits⟩
  · obtain ⟨⟨hnan, hinf⟩, hunits⟩ := saw_exact p
    exact ⟨rfl, hnan, hinf, hunits⟩

/-! ### The table index of a phase (40_numerics.md R111) -/

/-- Settles O57: the bits from `32 - l` on are all the bits that `p >> (32 - l)` leaves, so the extract cuts none off. -/
theorem phaseIndexIsTheTopBits : Obligations.PhaseIndexIsTheTopBits := by
  intro p l _ hl
  have hlt : phaseIndex p l < 2 ^ l := by
    rw [phaseIndex, Nat.shiftRight_eq_div_pow, Nat.div_lt_iff_lt_mul (Nat.two_pow_pos _), ← Nat.pow_add,
      Nat.add_sub_cancel' (by omega)]
    exact p.isLt
  refine ⟨?_, hlt⟩
  rw [BitVec.extractLsb'_toNat]
  exact (Nat.mod_eq_of_lt hlt).symm

end Sys2Proof.Machine
end


section
/-! PROOFS. The statements of 41_commands.md on WRREG to STATUS (R125), CTRL (R126), NUM_BANDS (R127) and NOISE_LEN
(R128). -/

namespace Sys2Proof.Machine

/-! ### How a WRREG of a mapped register ends (41_commands.md R124) -/

/-- A run-locked register is busy while RUN = 1, whatever the word. -/
theorem execWrreg_of_busy {s : State} {a : Nat} {r : Reg} (w : Word) (hr : selectReg s.cfg a = some r)
    (hlocked : r.access = .rwLocked) (hrun : s.status.run = true) :
    execWrreg a w s = .next (raiseError .busy s) :=
  execWrreg_of_error (by simp [writeError, hr, hlocked, hrun])

/-- A register that is neither read-only nor busy refuses an illegal word. -/
theorem execWrreg_of_illegal {s : State} {a : Nat} {w : Word} {r : Reg} (hr : selectReg s.cfg a = some r)
    (hro : r.access ≠ .ro) (hfree : r.access = .rwLocked → s.status.run = false)
    (hillegal : legalValue s.cfg r w = false) : execWrreg a w s = .next (raiseError .cfg s) :=
  execWrreg_of_error (by simp +contextual [writeError, hr, hro, hfree, hillegal])

/-- A register that is neither read-only nor busy takes a legal word. -/
theorem execWrreg_of_legal {s : State} {a : Nat} {w : Word} {r : Reg} (hr : selectReg s.cfg a = some r)
    (hro : r.access ≠ .ro) (hfree : r.access = .rwLocked → s.status.run = false)
    (hlegal : legalValue s.cfg r w = true) : execWrreg a w s = .next (respond 0 (s.writeReg r w)) := by
  have hnone : writeError s a w = none := by simp +contextual [writeError, hr, hro, hfree, hlegal]
  simp [execWrreg, hnone, hr]

/-! ### STATUS bit by bit (10_state.md R26; 41_commands.md R125) -/

/-- The bits of STATUS, from RUN in bit 0 up. -/
def Status.bits (st : Status) : List Bool :=
  [st.run, st.eOpc, st.eAddr, st.eRo, st.eBusy, st.eCfg, st.nanOut, st.clipOut]

theorem status_word_eq_bits (st : Status) : st.word = (BitVec.ofBoolListLE st.bits).setWidth 32 := by
  obtain ⟨a, b, c, d, e, f, g, h⟩ := st
  revert a b c d e f g h
  decide

theorem status_word_getLsbD (st : Status) {k : Nat} (hk : k < 32) : st.word.getLsbD k = st.bits.getD k false := by
  rw [status_word_eq_bits, BitVec.getLsbD_setWidth, decide_eq_true hk, Bool.true_and, BitVec.getLsbD_ofBoolListLE]

/-- Writing 1 to bits 7:1 clears them in the word that STATUS reads as. -/
theorem writeOneToClear_word (st : Status) (w : Word) :
    (st.writeOneToClear w).word = st.word &&& ~~~(w &&& 0x000000FE) := by
  apply BitVec.eq_of_getLsbD_eq
  intro k hk
  rw [BitVec.getLsbD_and, BitVec.getLsbD_not, BitVec.getLsbD_and, status_word_getLsbD _ hk, status_word_getLsbD _ hk]
  match k with
  | 0 | 1 | 2 | 3 | 4 | 5 | 6 | 7 => simp [Status.bits, Status.writeOneToClear]
  | k + 8 => simp [Status.bits]

/-- Settles O22: STATUS is never locked and takes any word, and its write is `writeOneToClear_word`. -/
theorem statusWriteIsWriteOneToClear : Obligations.StatusWriteIsWriteOneToClear := by
  intro s w
  have hexec : execWrreg 0x0003 w s = .next (respond 0 (s.writeReg .status w)) :=
    execWrreg_of_legal rfl (by decide) (fun hlocked => by cases hlocked) rfl
  exact ⟨_, hexec, rfl, writeOneToClear_word s.status w, writeReg_run s .status w⟩

/-! ### CTRL, NUM_BANDS and NOISE_LEN (41_commands.md R126-R128) -/

theorem ofNat_bit_zero (w : Word) : BitVec.ofNat 32 (w.getLsbD 0).toNat = w &&& 1 := by
  have hand : w &&& 1 = (BitVec.ofBool (w.getLsbD 0)).setWidth 32 := BitVec.and_one_eq_setWidth_ofBool_getLsbD
  rw [hand]
  cases w.getLsbD 0 <;> rfl

/-- Settles O23: CTRL is never locked and takes any word, and it reads as the one bit kept. -/
theorem ctrlWriteKeepsBitZero : Obligations.CtrlWriteKeepsBitZero := by
  intro s w
  have hexec : execWrreg 0x0002 w s = .next (respond 0 (s.writeReg .ctrl w)) :=
    execWrreg_of_legal rfl (by decide) (fun hlocked => by cases hlocked) rfl
  exact ⟨_, hexec, rfl, ofNat_bit_zero w⟩

/-- Settles O24: both registers are run-locked, and `legalValue` holds of the words in their range. -/
theorem checkedWritesStoreOnlyLegalWords : Obligations.CheckedWritesStoreOnlyLegalWords := by
  refine fun s w => ⟨fun hrun a ha => ?_, fun hidle => ⟨fun hin => ?_, fun hout => ?_, fun hin => ?_, fun hout => ?_⟩⟩
  · rcases ha with rfl | rfl
    · exact execWrreg_of_busy (r := .numBands) w rfl rfl hrun
    · exact execWrreg_of_busy (r := .noiseLen) w rfl rfl hrun
  · exact execWrreg_of_legal (r := .numBands) rfl (by decide) (fun _ => hidle) (decide_eq_true hin)
  · exact execWrreg_of_illegal (r := .numBands) rfl (by decide) (fun _ => hidle) (decide_eq_false (by omega))
  · exact execWrreg_of_legal (r := .noiseLen) rfl (by decide) (fun _ => hidle) (decide_eq_true hin)
  · exact execWrreg_of_illegal (r := .noiseLen) rfl (by decide) (fun _ => hidle) (decide_eq_false (by omega))

end Sys2Proof.Machine
end


section
/-! PROOFS. The statements of 42_tick.md on the TICK of an idle block (R151) and on the mixer (R155-R172). -/

namespace Sys2Proof.Machine

/-- Settles O36: `execTick_cases` leaves the idle case alone, and a response is written to `rsp` only. -/
theorem idleTickOnlyResponds : Obligations.IdleTickOnlyResponds := by
  intro s m c hidle
  rcases execTick_cases m c s with ⟨-, hresponds⟩ | ⟨hrun, -⟩
  · exact hresponds
  · exact absurd hrun (by simp [hidle])

/-! ### The mixer (42_tick.md R170-R172) -/

/-- The mixer result in terms of the lanes: a sum in ascending order from +0.0, the air term, the output gain. -/
theorem mixerResult_eq_foldl_lanes (s : State) (m c : Word) :
    mixerResult s m c =
      fmul (fadd (((s.bands.take s.numBands.toNat).map fun b =>
          (lane s (widen m) (carrier s (widen c)) b).out).foldl fadd 0)
        (airTerm s (widen m))) (widen s.gains.out) := by
  rw [mixerResult, tickMix, mixBands_acc]

/-- Settles O39: the sum over the lanes is `mixerResult_eq_foldl_lanes`, and a lane's signal is the stated output, stage
by stage. -/
theorem mixerSumsInAscendingOrder : Obligations.MixerSumsInAscendingOrder := by
  intro s m c noise osc carrierSample output
  have hcarrier : carrier s (widen c) = carrierSample := rfl
  have hlane (b : Band) : (lane s (widen m) carrierSample b).out = output b := rfl
  have hair : airTerm s (widen m) = fmul (bq s.air s.hair (widen m)).out (widen s.gains.air) := rfl
  rw [mixerResult_eq_foldl_lanes, hcarrier, hair]
  simp only [hlane]

end Sys2Proof.Machine
end

section
/-! PROOFS. The statements of 30_encoding.md on encoding and decoding commands (R81-R92). -/

namespace Sys2Proof

/-! ### The words of the three formats as numbers (30_encoding.md R81-R83) -/

theorem toNat_append_field {m n : Nat} (x : BitVec m) (y : BitVec n) : (x ++ y).toNat = x.toNat * 2 ^ n + y.toNat := by
  rw [BitVec.toNat_append, ← Nat.shiftLeft_add_eq_or_of_lt y.isLt, Nat.shiftLeft_eq]

theorem formatZ_toNat (op : BitVec 4) : (formatZ op).toNat = op.toNat * 2 ^ 28 := by
  rw [formatZ, toNat_append_field, BitVec.toNat_ofNat, Nat.zero_mod, Nat.add_zero]

theorem formatR_toNat (op : BitVec 4) {addr : Nat} (h : addr < 2 ^ 16) :
    (formatR op addr).toNat = op.toNat * 2 ^ 28 + addr := by
  rw [formatR, toNat_append_field, toNat_append_field, BitVec.toNat_ofNat, BitVec.toNat_ofNat, Nat.mod_eq_of_lt h]
  omega

theorem formatT_toNat (op : BitVec 4) {tab idx : Nat} (ht : tab < 2 ^ 4) (hi : idx < 2 ^ 24) :
    (formatT op tab idx).toNat = op.toNat * 2 ^ 28 + (tab * 2 ^ 24 + idx) := by
  rw [formatT, toNat_append_field, toNat_append_field, BitVec.toNat_ofNat, BitVec.toNat_ofNat, Nat.mod_eq_of_lt ht,
    Nat.mod_eq_of_lt hi]
  omega

/-! ### Decoding an encoded command -/

theorem formatZ_fields (op : BitVec 4) :
    wordField (formatZ op) 28 4 = op.toNat ∧ wordField (formatZ op) 0 28 = 0 := by
  have hop := op.isLt
  simp only [wordField_eq, formatZ_toNat op]
  omega

theorem formatR_fields (op : BitVec 4) {addr : Nat} (h : addr < 2 ^ 16) :
    wordField (formatR op addr) 28 4 = op.toNat ∧ wordField (formatR op addr) 16 12 = 0 ∧
      wordField (formatR op addr) 0 16 = addr := by
  have hop := op.isLt
  simp only [wordField_eq, formatR_toNat op h]
  omega

theorem formatT_fields (op : BitVec 4) {tab idx : Nat} (ht : tab < 2 ^ 4) (hi : idx < 2 ^ 24) :
    wordField (formatT op tab idx) 28 4 = op.toNat ∧ wordField (formatT op tab idx) 24 4 = tab ∧
      wordField (formatT op tab idx) 0 24 = idx := by
  have hop := op.isLt
  simp only [wordField_eq, formatT_toNat op ht hi]
  omega

/-- Settles O1: a command of format Z is one word, and in the formats R and T each field reads back the operand that was
put there. -/
theorem decodeOfEncodeIsTheCommand : Obligations.DecodeOfEncodeIsTheCommand := by
  intro i h
  cases i with
  | nop | start | stop | tick => simp [decode, encode, requireZero, formatZ_fields]
  | rdreg addr | wrreg addr w =>
    simp only [Instr.wellFormed, decide_eq_true_eq] at h
    simp [decode, encode, requireZero, formatR_fields _ h]
  | rdtab tab idx | wrtab tab idx w =>
    simp only [Instr.wellFormed, Bool.and_eq_true, decide_eq_true_eq] at h
    obtain ⟨ht, hi⟩ := h
    simp [decode, encode, formatT_fields _ ht hi]

/-! ### Encoding a decoded command -/

/-- The operands that the low bits of the command word carry, as one number (30_encoding.md R81-R83). -/
def Instr.operandField : Instr → Nat
  | .rdreg addr => addr
  | .wrreg addr _ => addr
  | .rdtab tab idx => tab * 2 ^ 24 + idx
  | .wrtab tab idx _ => tab * 2 ^ 24 + idx
  | _ => 0

/-- The command word is OP above the operands. -/
theorem encode_cmd_toNat {i : Instr} (h : i.wellFormed = true) :
    (encode i).cmd.toNat = i.op * 2 ^ 28 + i.operandField := by
  cases i with
  | nop | start | stop | tick => exact (toNat_append_field _ _).trans (congrArg₂ (· * 2 ^ 28 + ·) rfl rfl)
  | rdreg addr | wrreg addr w =>
    simp only [Instr.wellFormed, decide_eq_true_eq] at h
    exact (formatR_toNat _ h).trans (congrArg₂ (· * 2 ^ 28 + ·) rfl rfl)
  | rdtab tab idx | wrtab tab idx w =>
    simp only [Instr.wellFormed, Bool.and_eq_true, decide_eq_true_eq] at h
    obtain ⟨ht, hi⟩ := h
    exact (formatT_toNat _ ht hi).trans (congrArg₂ (· * 2 ^ 28 + ·) rfl rfl)

/-- What a word decodes to is well formed, and its operands are the low bits of the word. -/
theorem decode_ok_operands {c : Command} {i : Instr} (h : decode c = .ok i) :
    i.wellFormed = true ∧ i.operandField = c.cmd.toNat % 2 ^ i.freeBits := by
  unfold decode at h
  split at h
  case h_9 => cases h
  case h_4 | h_5 =>
    cases h
    simp only [Instr.wellFormed, Instr.operandField, Instr.freeBits, Bool.and_eq_true, decide_eq_true_eq, wordField_eq]
    omega
  case h_1 | h_6 | h_7 | h_8 =>
    obtain ⟨-, rfl⟩ := requireZero_eq_ok_iff.mp h
    exact ⟨rfl, (Nat.mod_one _).symm⟩
  case h_2 | h_3 =>
    obtain ⟨-, rfl⟩ := requireZero_eq_ok_iff.mp h
    simp only [Instr.wellFormed, Instr.operandField, Instr.freeBits, decide_eq_true_eq, wordField_eq]
    omega

/-- Settles O2: OP, a ZERO field that is zero (`decode_ok_fields`) and the operands (`decode_ok_operands`) are the whole
command word. -/
theorem encodeOfDecodeIsTheWord : Obligations.EncodeOfDecodeIsTheWord := by
  intro c i h
  obtain ⟨hop, hzero⟩ := decode_ok_fields h
  obtain ⟨hwf, hoperands⟩ := decode_ok_operands h
  refine ⟨hwf, BitVec.eq_of_toNat_eq ?_⟩
  have hlow : c.cmd.toNat % 2 ^ 28 = c.cmd.toNat % 2 ^ i.freeBits := by
    rw [← Nat.mod_mod_of_dvd _ (pow_dvd_pow 2 i.freeBits_le)]
    exact (Nat.mod_eq_of_lt (Nat.lt_of_div_eq_zero (Nat.two_pow_pos _) hzero)).symm
  rw [encode_cmd_toNat hwf, hoperands, ← hlow, ← hop]
  exact Nat.div_add_mod' c.cmd.toNat (2 ^ 28)

/-- Settles O4: each word is decoded by evaluation. -/
theorem writtenOutWordsDecode : Obligations.WrittenOutWordsDecode := by
  unfold Obligations.WrittenOutWordsDecode
  decide

end Sys2Proof
end

section
/-! PROOFS. Addresses and registers: each mapped register stands at one address, a read of it after a write, and what a
write leaves (10_state.md section 3; 30_encoding.md R84). -/

namespace Sys2Proof.Machine

/-! ### The address of a register selects it, and nothing else does -/

theorem coefOfOffset_offset (h : CoefHalf) : coefOfOffset h.offset = some h := by
  obtain ⟨coef, hi⟩ := h
  cases coef <;> cases hi <;> rfl

theorem offset_of_coefOfOffset {k : Nat} {h : CoefHalf} (hk : coefOfOffset k = some h) : h.offset = k :=
  match k with
  | 0 | 1 | 2 | 3 | 4 | 5 | 6 | 7 | 8 | 9 => by cases hk; rfl
  | _ + 10 => by cases hk

theorem CoefHalf.offset_lt (h : CoefHalf) : h.offset < 10 := by
  obtain ⟨coef, hi⟩ := h
  cases coef <;> cases hi <;> decide

theorem bandRegOfOffset_offset (r : BandReg) : bandRegOfOffset r.offset = some r := by
  cases r with
  | bp h =>
    have hlt := h.offset_lt
    have hne : h.offset ≠ 10 ∧ h.offset ≠ 11 ∧ h.offset ≠ 12 := by omega
    simp [bandRegOfOffset, BandReg.offset, hne, coefOfOffset_offset]
  | hetPinc | hetPhase | env => rfl

theorem offset_of_bandRegOfOffset {k : Nat} {r : BandReg} (hk : bandRegOfOffset k = some r) : r.offset = k := by
  unfold bandRegOfOffset at hk
  split_ifs at hk with h10 h11 h12
  case neg =>
    obtain ⟨h, hh, rfl⟩ := Option.map_eq_some_iff.mp hk
    exact offset_of_coefOfOffset hh
  all_goals cases hk; symm; assumption

theorem BandReg.offset_lt (r : BandReg) : r.offset < 13 := by
  cases r with
  | bp h => exact Nat.lt_of_lt_of_le h.offset_lt (by decide)
  | hetPinc | hetPhase | env => decide

theorem address_of_gainOfOffset {k : Nat} {g : GainReg} (hk : gainOfOffset k = some g) : g.address = 0x10 + k :=
  match k with
  | 0 | 1 | 2 | 3 | 4 | 5 | 6 | 7 | 8 | 9 => by cases hk; rfl
  | _ + 10 => by cases hk

/-- The register that an instance has is the one that its address selects. -/
theorem selectReg_address {cfg : Config} {r : Reg} (h : r.mapped cfg = true) : selectReg cfg r.address = some r := by
  cases r with
  | gain g => cases g <;> rfl
  | envlp k | air k =>
    obtain ⟨coef, hi⟩ := k
    cases coef <;> cases hi <;> rfl
  | band b r =>
    have hb : b < cfg.maxBands := by simpa [Reg.mapped] using h
    have hlt := r.offset_lt
    have hslot : (0x100 + 16 * b + r.offset - 0x100) / 16 = b := by omega
    have hoffset : (0x100 + 16 * b + r.offset) % 16 = r.offset := by omega
    rw [Reg.address, selectReg, if_neg (by omega)]
    simp only [hslot, hoffset, hb, if_true, bandRegOfOffset_offset, Option.map_some]
  | _ => rfl

theorem address_of_selectGlobal {cfg : Config} {a : Nat} {r : Reg} (h : selectGlobal a = some r) :
    r.mapped cfg = true ∧ r.address = a := by
  unfold selectGlobal at h
  split_ifs at h with h10 h20 h30 h40
  · split at h
    case h_11 => cases h
    all_goals cases h; exact ⟨rfl, rfl⟩
  · obtain ⟨g, hg, rfl⟩ := Option.map_eq_some_iff.mp h
    exact ⟨rfl, (address_of_gainOfOffset hg).trans (by omega)⟩
  · obtain ⟨k, hk, rfl⟩ := Option.map_eq_some_iff.mp h
    exact ⟨rfl, by rw [Reg.address, offset_of_coefOfOffset hk]; omega⟩
  · obtain ⟨k, hk, rfl⟩ := Option.map_eq_some_iff.mp h
    exact ⟨rfl, by rw [Reg.address, offset_of_coefOfOffset hk]; omega⟩

/-- The register that an address selects is one of the instance, at that address. -/
theorem address_of_selectReg {cfg : Config} {a : Nat} {r : Reg} (h : selectReg cfg a = some r) :
    r.mapped cfg = true ∧ r.address = a := by
  unfold selectReg at h
  dsimp only at h
  split_ifs at h with hglobal hslot
  · exact address_of_selectGlobal h
  · obtain ⟨k, hk, rfl⟩ := Option.map_eq_some_iff.mp h
    refine ⟨decide_eq_true hslot, ?_⟩
    rw [Reg.address, offset_of_bandRegOfOffset hk]
    omega

/-- Only the reserved addresses select no register. -/
theorem reserved_of_selectReg {cfg : Config} {a : Nat} (ha : a ≤ 0xFFFF) (h : selectReg cfg a = none) :
    ReservedAddress cfg a := by
  rcases Nat.lt_or_ge a 0x100 with hglobal | hband
  · rw [selectReg_of_global cfg hglobal, selectGlobal_eq_none_iff] at h
    omega
  · rw [selectReg_band_eq_none_iff cfg hband] at h
    omega

theorem offset_of_half_index {k : Nat} {h : CoefHalf}
    (hk : [⟨.b0, false⟩, ⟨.b0, true⟩, ⟨.b1, false⟩, ⟨.b1, true⟩, ⟨.b2, false⟩, ⟨.b2, true⟩, ⟨.a1, false⟩, ⟨.a1, true⟩,
      ⟨.a2, false⟩, (⟨.a2, true⟩ : CoefHalf)][k]? = some h) : h.offset = k :=
  match k with
  | 0 | 1 | 2 | 3 | 4 | 5 | 6 | 7 | 8 | 9 => by cases hk; rfl
  | _ + 10 => by cases hk

/-- Settles O18: an address that is not reserved selects a register, whose address it is, and any other register at it
would be selected too. -/
theorem everyAddressIsReservedOrOneRegister : Obligations.EveryAddressIsReservedOrOneRegister := by
  refine ⟨fun cfg a ha => ?_, by decide, by decide, fun k h hk => ?_, fun b => ⟨rfl, rfl, rfl⟩⟩
  · cases hsel : selectReg cfg a with
    | none =>
      refine .inl ⟨reserved_of_selectReg ha hsel, fun r hr haddr => ?_⟩
      rw [← haddr, selectReg_address hr] at hsel
      cases hsel
    | some r =>
      obtain ⟨hmapped, haddr⟩ := address_of_selectReg hsel
      refine .inr ⟨fun hres => ?_, r, hmapped, haddr, fun r' hr' haddr' => ?_⟩
      · rw [selectReg_of_reserved hres] at hsel
        cases hsel
      · rw [← haddr', selectReg_address hr'] at hsel
        exact Option.some.inj hsel
  · rw [← offset_of_half_index hk]
    exact ⟨rfl, rfl, fun b => rfl⟩

/-! ### Reading a register (41_commands.md R122) -/

theorem exec_rdreg_mapped {s : State} {r : Reg} (h : r.mapped s.cfg = true) :
    exec (.rdreg r.address) s = .next (respond (s.readReg r) s) := by
  show execRdreg _ _ = _
  simp [execRdreg, selectReg_address h]

/-- Settles O16: the address selects the register, STATUS reads as its bits, and every other register as the field that
holds it. -/
theorem rdregRespondsTheRegister : Obligations.RdregRespondsTheRegister := by
  refine ⟨fun s r h => exec_rdreg_mapped h, fun s => ?_⟩
  have hbit : ∀ k, k < 32 → (s.readReg .status).getLsbD k = s.status.bits.getD k false := fun k =>
    status_word_getLsbD s.status
  have hhigh : ∀ k, 8 ≤ k → (s.readReg .status).getLsbD k = false := fun k hk => by
    rcases Nat.lt_or_ge k 32 with hlt | hge
    · rw [hbit k hlt, List.getD_eq_default _ _ hk]
    · exact BitVec.getLsbD_of_ge _ _ hge
  have hctrl : s.readReg .ctrl = if s.oscSel then 1 else 0 := by
    rw [State.readReg]
    cases s.oscSel <;> rfl
  refine ⟨⟨hbit 0 (by decide), hbit 1 (by decide), hbit 2 (by decide), hbit 3 (by decide), hbit 4 (by decide),
    hbit 5 (by decide), hbit 6 (by decide), hbit 7 (by decide), hhigh⟩, ⟨hctrl, rfl, rfl, rfl, rfl, rfl, rfl⟩, ?_⟩
  exact ⟨⟨rfl, rfl, rfl, rfl, rfl, rfl, rfl, rfl, rfl, rfl⟩, ⟨rfl, rfl, rfl, rfl, rfl⟩, ⟨rfl, rfl, rfl, rfl, rfl⟩,
    fun b => ⟨rfl, rfl, rfl, rfl, rfl, rfl, rfl, rfl⟩⟩

/-! ### A register read after a write -/

theorem Gains.read_write (g : Gains) (r r' : GainReg) (w : Word) :
    (g.write r w).read r' = if r' = r then w else g.read r' := by
  cases r <;> cases r' <;> rfl

theorem Pair.read_write (p : Pair) (hi hi' : Bool) (w : Word) :
    (p.write hi w).read hi' = if hi' = hi then w else p.read hi' := by
  cases hi <;> cases hi' <;> rfl

theorem CoefSet.pair_write (c : CoefSet) (h : CoefHalf) (k : Coef) (w : Word) :
    (c.write h w).pair k = if k = h.coef then (c.pair k).write h.hi w else c.pair k := by
  obtain ⟨coef, hi⟩ := h
  cases coef <;> cases k <;> rfl

theorem CoefSet.read_write (c : CoefSet) (h h' : CoefHalf) (w : Word) :
    (c.write h w).read h' = if h' = h then w else c.read h' := by
  obtain ⟨coef, hi⟩ := h
  obtain ⟨coef', hi'⟩ := h'
  rw [CoefSet.read, CoefSet.read, CoefSet.pair_write]
  by_cases hc : coef' = coef <;> simp [hc, Pair.read_write]

theorem Band.read_write (b : Band) (r r' : BandReg) (w : Word) :
    (b.write r w).read r' = if r' = r then w else b.read r' := by
  cases r <;> cases r' <;> simp [Band.write, Band.read, CoefSet.read_write]

/-- A slot after one slot of the list has changed. -/
theorem band_modify (s : State) (b b' : Nat) (f : Band → Band) :
    ({ s with bands := s.bands.modify b f } : State).band b' =
      if b' = b ∧ b < s.bands.length then f (s.band b) else s.band b' := by
  simp only [State.band, List.getD_eq_getElem?_getD, List.getElem?_modify]
  by_cases hb : b' = b
  · subst hb
    by_cases hlen : b' < s.bands.length
    · simp [hlen]
    · simp [hlen]
  · simp [hb, Ne.symm hb]

/-- The registers that hold the word last written to them: those that WRREG writes whole. -/
def Reg.plain (r : Reg) : Bool := r.plainRw || r.plainLocked

/-- A plain register reads the word written to it, and no other register is touched. -/
theorem readReg_writeReg {s : State} {r : Reg} (w : Word) (hplain : r.plain = true)
    (hmapped : r.mapped s.cfg = true) (hslots : s.bands.length = s.cfg.maxBands) (r' : Reg) :
    (s.writeReg r w).readReg r' = if r' = r then w else s.readReg r' := by
  cases r with
  | oscPinc => cases r' <;> rfl
  | gain g => cases r' <;> simp [State.writeReg, State.readReg, Gains.read_write, State.band]
  | envlp h | air h => cases r' <;> simp [State.writeReg, State.readReg, CoefSet.read_write, State.band]
  | band b r =>
    have hb : b < s.bands.length := by rw [hslots]; simpa [Reg.mapped] using hmapped
    cases r' with
    | band b' r' =>
      by_cases hbb : b' = b <;>
        simp [State.writeReg, State.readReg, band_modify, hbb, hb, Band.read_write]
    | _ => rfl
  | _ => cases hplain

/-! ### What lies beyond the registers -/

theorem SameBeyondRegisters.refl (s : State) : SameBeyondRegisters s s :=
  ⟨rfl, rfl, fun _ => ⟨rfl, rfl, rfl, rfl, rfl⟩, rfl, fun _ _ => rfl, rfl, rfl, rfl, rfl⟩

theorem SameBeyondRegisters.trans {s t u : State} (h : SameBeyondRegisters s t) (h' : SameBeyondRegisters t u) :
    SameBeyondRegisters s u where
  cfg := h'.cfg.trans h.cfg
  slots := h'.slots.trans h.slots
  histories b := by
    obtain ⟨e1, e2, e3, e4, e5⟩ := h.histories b
    obtain ⟨f1, f2, f3, f4, f5⟩ := h'.histories b
    exact ⟨f1.trans e1, f2.trans e2, f3.trans e3, f4.trans e4, f5.trans e5⟩
  hair := h'.hair.trans h.hair
  tables x i := (h'.tables x i).trans (h.tables x i)
  fill := h'.fill.trans h.fill
  pins := ⟨h'.pins.1.trans h.pins.1, h'.pins.2.1.trans h.pins.2.1, h'.pins.2.2.trans h.pins.2.2⟩

theorem sameBeyond_respond (d : Word) (s : State) : SameBeyondRegisters s (respond d s) :=
  ⟨rfl, rfl, fun _ => ⟨rfl, rfl, rfl, rfl, rfl⟩, rfl, respond_memRead d s, rfl, rfl, rfl, rfl⟩

theorem sameBeyond_raiseError (e : ErrCode) (s : State) : SameBeyondRegisters s (raiseError e s) :=
  ⟨rfl, rfl, fun _ => ⟨rfl, rfl, rfl, rfl, rfl⟩, rfl, raiseError_memRead e s, rfl, rfl, rfl, rfl⟩

/-- A register write touches no history of any slot. -/
theorem writeReg_histories (s : State) (r : Reg) (w : Word) (b : Nat) :
    ((s.writeReg r w).band b).ha1 = (s.band b).ha1 ∧ ((s.writeReg r w).band b).ha2 = (s.band b).ha2 ∧
      ((s.writeReg r w).band b).hs1 = (s.band b).hs1 ∧ ((s.writeReg r w).band b).hs2 = (s.band b).hs2 ∧
      ((s.writeReg r w).band b).he = (s.band b).he := by
  cases r with
  | band b' r =>
    rw [State.writeReg, band_modify]
    split_ifs with h
    · rw [h.1]
      cases r <;> exact ⟨rfl, rfl, rfl, rfl, rfl⟩
    · exact ⟨rfl, rfl, rfl, rfl, rfl⟩
  | _ => exact ⟨rfl, rfl, rfl, rfl, rfl⟩

theorem sameBeyond_writeReg (s : State) (r : Reg) (w : Word) : SameBeyondRegisters s (s.writeReg r w) :=
  ⟨writeReg_cfg s r w, writeReg_slots s r w, writeReg_histories s r w, writeReg_hair s r w, writeReg_memRead s r w,
    writeReg_tableFill s r w, writeReg_offered s r w, writeReg_rspReady s r w, writeReg_rst s r w⟩

/-! ### WRREG by the register's name (41_commands.md R124; 60_exceptions.md R231) -/

theorem access_of_readOnly {r : Reg} (h : r.readOnly = true) : r.access = .ro := by
  cases r with
  | band b r => cases r <;> simp_all [Reg.readOnly, Reg.access]
  | _ => simp_all [Reg.readOnly, Reg.access]

theorem access_of_plainLocked {r : Reg} (h : r.plainLocked = true) : r.access = .rwLocked := by
  cases r with
  | band b r => cases r <;> simp_all [Reg.plainLocked, Reg.access]
  | _ => simp_all [Reg.plainLocked, Reg.access]

theorem access_of_plainRw {r : Reg} (h : r.plainRw = true) : r.access = .rw := by
  cases r <;> simp_all [Reg.plainRw, Reg.access]

theorem legalValue_of_plain {r : Reg} (h : r.plain = true) (cfg : Config) (w : Word) : legalValue cfg r w = true := by
  cases r <;> simp_all [Reg.plain, Reg.plainRw, Reg.plainLocked, legalValue]

/-- A plain register is written: at any time, or while RUN = 0 if it is run-locked. -/
theorem exec_wrreg_plain {s : State} {r : Reg} (w : Word) (hmapped : r.mapped s.cfg = true)
    (h : r.plainRw = true ∨ (r.plainLocked = true ∧ s.status.run = false)) :
    r.plain = true ∧ exec (.wrreg r.address w) s = .next (respond 0 (s.writeReg r w)) := by
  have hplain : r.plain = true := by
    rw [Reg.plain, Bool.or_eq_true]
    exact h.imp_right And.left
  refine ⟨hplain, execWrreg_of_legal (selectReg_address hmapped) ?_ ?_ (legalValue_of_plain hplain _ w)⟩
  · rcases h with h | ⟨h, -⟩
    · rw [access_of_plainRw h]; decide
    · rw [access_of_plainLocked h]; decide
  · rcases h with h | ⟨-, hidle⟩
    · rw [access_of_plainRw h]; nofun
    · exact fun _ => hidle

/-- Settles O19: being read-only is the first check of a mapped register. -/
theorem readOnlyWritesEndWithErrRo : Obligations.ReadOnlyWritesEndWithErrRo := by
  intro s r w hmapped hro
  have herr : writeError s r.address w = some .ro := by
    simp [writeError, selectReg_address hmapped, access_of_readOnly hro]
  exact execWrreg_of_error herr

/-- Settles O20: each register named is run-locked, and `execWrreg_of_busy` holds of every such register. -/
theorem lockedWritesEndWithErrBusy : Obligations.LockedWritesEndWithErrBusy := by
  intro s r w hmapped hlocked hrun
  refine execWrreg_of_busy w (selectReg_address hmapped) ?_ hrun
  rcases hlocked with h | rfl | rfl
  · exact access_of_plainLocked h
  · rfl
  · rfl

/-- Settles O21: the write is `exec_wrreg_plain`, what it does to the registers `readReg_writeReg`, and it touches
nothing beyond them. -/
theorem wrregStoresTheWord : Obligations.WrregStoresTheWord := by
  intro s r w hmapped hslots h
  obtain ⟨hplain, hexec⟩ := exec_wrreg_plain w hmapped h
  have hread := readReg_writeReg w hplain hmapped hslots
  refine ⟨_, hexec, rfl, (hread r).trans (if_pos rfl), fun r' hne => (hread r').trans (if_neg hne), ?_⟩
  exact (sameBeyond_writeReg s r w).trans (sameBeyond_respond 0 _)

/-! ### Two writes to one register (20_memory.md R76) -/

theorem Gains.write_twice (g : Gains) (r : GainReg) (v w : Word) : (g.write r v).write r w = g.write r w := by
  cases r <;> rfl

theorem Pair.write_twice (p : Pair) (hi : Bool) (v w : Word) : (p.write hi v).write hi w = p.write hi w := by
  cases hi <;> rfl

theorem CoefSet.write_twice (c : CoefSet) (h : CoefHalf) (v w : Word) : (c.write h v).write h w = c.write h w := by
  obtain ⟨coef, hi⟩ := h
  cases coef <;> simp [CoefSet.write, Pair.write_twice]

theorem Band.write_twice (b : Band) (r : BandReg) (v w : Word) : (b.write r v).write r w = b.write r w := by
  cases r <;> simp [Band.write, CoefSet.write_twice]

/-- Of two writes to a register the later alone is seen; STATUS is the one register that keeps what the earlier did. -/
theorem writeReg_twice {r : Reg} (h : r ≠ .status) (s : State) (v w : Word) :
    (s.writeReg r v).writeReg r w = s.writeReg r w := by
  cases r with
  | status => exact absurd rfl h
  | gain g => simp [State.writeReg, Gains.write_twice]
  | envlp k | air k => simp [State.writeReg, CoefSet.write_twice]
  | band b r =>
    have hcomp : ((fun x => Band.write x r w) ∘ fun x => Band.write x r v) = fun x => Band.write x r w :=
      funext fun x => Band.write_twice x r v w
    simp [State.writeReg, List.modify_modify_eq, hcomp]
  | _ => rfl

/-- A response is overwritten by the next one, and no register depends on it. -/
theorem respond_writeReg_respond (d e : Word) (s : State) (r : Reg) (w : Word) :
    respond d ((respond e s).writeReg r w) = respond d (s.writeReg r w) := by
  cases r <;> rfl

/-- Settles O25: a RW register is never locked and takes any word, so both WRREGs write, and `writeReg_twice` leaves the
later write alone. -/
theorem laterRwWriteReplacesEarlier : Obligations.LaterRwWriteReplacesEarlier := by
  intro s t r v w hr ht
  have hwrite : ∀ u x, exec (.wrreg r.address x) u = .next (respond 0 (u.writeReg r x)) := fun u x => by
    rcases hr with hplain | rfl
    · have hmapped : r.mapped u.cfg = true := by
        cases r <;> simp_all [Reg.plainRw, Reg.mapped]
      exact (exec_wrreg_plain x hmapped (.inl hplain)).2
    · exact execWrreg_of_legal (s := u) (a := 0x0002) (r := .ctrl) rfl (by decide) nofun rfl
  have hstatus : r ≠ .status := by
    rintro rfl
    rcases hr with h | h <;> cases h
  rw [hwrite, Host.Outcome.next.injEq] at ht
  rw [← ht, hwrite, hwrite, respond_writeReg_respond, writeReg_twice hstatus]

end Sys2Proof.Machine
end

section
/-! PROOFS. How each command ends, by name, and the statements that follow from it: the channel and reset
(70_reset_and_hazards.md), errors and STATUS (60_exceptions.md; 10_state.md R26), tables and control commands
(41_commands.md). -/

namespace Sys2Proof.Machine

/-! ### How a command ends, the command included -/

theorem tabOf_of_tableOfTab {tab : Nat} {t : TableId} (h : tableOfTab tab = some t) : tab = tabOf t :=
  match tab with
  | 0 | 1 | 2 => by cases h; rfl
  | _ + 3 => by cases h

theorem selectEntry_tabOf (cfg : Config) (t : TableId) (i : Nat) :
    selectEntry cfg (tabOf t) i = if i < depth cfg t then some (t, i) else none := by
  cases t <;> rfl

theorem selectEntry_unknown (cfg : Config) {tab : Nat} (h : 3 ≤ tab) (i : Nat) : selectEntry cfg tab i = none := by
  obtain ⟨k, rfl⟩ := Nat.exists_eq_add_of_le' h
  rfl

theorem selectEntry_eq_some {cfg : Config} {tab idx i : Nat} {t : TableId} (h : selectEntry cfg tab idx = some (t, i)) :
    tab = tabOf t ∧ idx = i := by
  cases htab : tableOfTab tab with
  | none => simp [selectEntry, htab] at h
  | some u =>
    simp only [selectEntry, htab] at h
    split_ifs at h
    cases h
    exact ⟨tabOf_of_tableOfTab htab, rfl⟩

/-- `Ends` with the command that ends so: which commands can leave which next states. -/
inductive EndsAs (s : State) : Instr → State → Prop where
  | raise (i : Instr) (e : ErrCode) : EndsAs s i (raiseError e s)
  | answer (i : Instr) (d : Word) : EndsAs s i (respond d s)
  | write (r : Reg) (w : Word) (hmapped : r.mapped s.cfg = true) (h : writeError s r.address w = none) :
      EndsAs s (.wrreg r.address w) (respond 0 (s.writeReg r w))
  | table (t : TableId) (i : Nat) (w : Word) (hi : i < depth s.cfg t) (hidle : s.status.run = false) :
      EndsAs s (.wrtab (tabOf t) i w) (respond 0 (memWrite s t i w))
  | start (h : s.numBands ≠ 0) : EndsAs s .start (respond 0 (startRun s))
  | stop : EndsAs s .stop (respond 0 { s with status := s.status.setRun false })
  | tick (m c : Word) (h : s.status.run = true) : EndsAs s (.tick m c) (tickRun m c s)

theorem exec_endsAs {i : Instr} {s t : State} (h : exec i s = .next t) : EndsAs s i t := by
  cases i with
  | nop => cases h; exact .answer _ 0
  | rdreg addr =>
    rcases execRdreg_cases addr s with ⟨-, hs⟩ | ⟨r, -, hs⟩ <;> cases hs.symm.trans h
    · exact .raise _ .addr
    · exact .answer _ _
  | wrreg addr w =>
    rcases execWrreg_cases addr w s with ⟨e, -, hs⟩ | ⟨r, hnone, hsel, hs⟩ <;> cases hs.symm.trans h
    · exact .raise _ e
    · obtain ⟨hmapped, rfl⟩ := address_of_selectReg hsel
      exact .write r w hmapped hnone
  | rdtab tab idx =>
    rcases execRdtab_cases tab idx s with ⟨-, hs⟩ | ⟨x, j, -, hs⟩ <;> cases hs.symm.trans h
    · exact .raise _ .addr
    · exact .answer _ _
  | wrtab tab idx w =>
    rcases execWrtab_cases tab idx w s with ⟨-, hs⟩ | ⟨x, j, hsel, ⟨-, hs⟩ | ⟨hidle, hs⟩⟩ <;> cases hs.symm.trans h
    · exact .raise _ .addr
    · exact .raise _ .busy
    · obtain ⟨rfl, rfl⟩ := selectEntry_eq_some hsel
      exact .table x idx w (selectEntry_lt hsel) hidle
  | start =>
    rcases execStart_cases s with ⟨-, hs⟩ | ⟨hne, hs⟩ <;> cases hs.symm.trans h
    · exact .raise _ .cfg
    · exact .start hne
  | stop => cases h; exact .stop
  | tick m c =>
    rcases execTick_cases m c s with ⟨-, hs⟩ | ⟨hrun, hs⟩ <;> cases hs.symm.trans h
    · exact .answer _ 0
    · exact .tick m c hrun

/-- A triple that is performed ends as the command it decodes to, or with ERR_OPC if it decodes to none. -/
theorem perform_endsAs {c : Command} {s t : State} (h : perform c s = .next t) :
    (∃ i, decode c = .ok i ∧ EndsAs s i t) ∨ t = raiseError .opc s := by
  cases hdec : decode c with
  | ok i =>
    rw [perform, hdec] at h
    exact .inl ⟨i, rfl, exec_endsAs h⟩
  | error e =>
    rw [perform_of_error hdec] at h
    cases h
    exact .inr rfl

/-! ### The channel and the reset input (70_reset_and_hazards.md R250-R259) -/

/-- Settles O5: a ready block performs the command it accepts. -/
theorem stepRunsTheDecodedCommand : Obligations.StepRunsTheDecodedCommand := by
  intro s c rest i hrst hrsp ho hdec
  rw [step_of_cmdReady ((cmdReady_iff s).mpr ⟨hrst, hrsp⟩) ho, perform, hdec]
  rfl

/-- No register reads the table fill or a pin. -/
theorem readReg_resetBlock (s : State) (r : Reg) : (resetBlock s).readReg r = (State.resetOf s.cfg).readReg r := by
  cases r <;> rfl

/-- Settles O7: with rst = 1 the step is `resetBlock`. -/
theorem resetInputRestoresResetValues : Obligations.ResetInputRestoresResetValues := by
  intro s hrst
  exact ⟨resetBlock s, if_pos hrst, readReg_resetBlock s, rfl, rfl, rfl, rfl, rfl, rfl, rfl, hrst⟩

theorem band_resetOf (cfg : Config) (b : Nat) : (State.resetOf cfg).band b = Band.reset := by
  simp only [State.band, State.resetOf, List.getD_eq_getElem?_getD, List.getElem?_replicate]
  split_ifs <;> rfl

theorem CoefSet.read_reset (h : CoefHalf) : CoefSet.reset.read h = 0 := by
  obtain ⟨coef, hi⟩ := h
  cases coef <;> cases hi <;> rfl

/-- 2^NOISE_LOG2 fits in a register of a legal instance. -/
theorem noiseLen_resetOf {cfg : Config} (h : cfg.Legal) : (State.resetOf cfg).noiseLen.toNat = 2 ^ cfg.noiseLog2 := by
  obtain ⟨-, -, -, -, hnoise⟩ := h
  have hlt : 2 ^ cfg.noiseLog2 < 2 ^ 32 := Nat.pow_lt_pow_right (by decide) (by omega)
  exact (BitVec.toNat_ofNat _ _).trans (Nat.mod_eq_of_lt hlt)

/-- Settles O8: every register but NOISE_LEN and those of sets and slots is reset to the word itself. -/
theorem resetValuesOfEveryRegister : Obligations.ResetValuesOfEveryRegister := by
  intro cfg hlegal s
  have hbands : ∀ b r, s.readReg (.band b r) = 0 := fun b r => by
    rw [State.readReg, band_resetOf]
    cases r with
    | bp h => exact CoefSet.read_reset h
    | hetPinc | hetPhase | env => rfl
  have hhist : ∀ b, b ∈ s.bands → b = Band.reset := fun b hb => (List.mem_replicate.mp hb).2
  refine ⟨rfl, rfl, rfl, rfl, rfl, noiseLen_resetOf hlegal, rfl, rfl, rfl, rfl, rfl, rfl, rfl, rfl, rfl, rfl, rfl,
    rfl, rfl, rfl, fun h => ⟨CoefSet.read_reset h, CoefSet.read_reset h⟩, hbands, fun b hb => ?_, rfl,
    List.length_replicate⟩
  rw [hhist b hb]
  exact ⟨rfl, rfl, rfl, rfl, rfl⟩

/-- Settles O9: an untaken response makes the block not ready, and a ready block with nothing offered waits. -/
theorem channelStallsAndWaits : Obligations.ChannelStallsAndWaits := by
  refine fun s hrst => ⟨fun r hr hready => ?_, fun ho hrsp => ?_⟩
  · have hstall : cmdReady s = false := by simp [cmdReady, hr, hready]
    simp [step, hrst, hstall]
  · have hready := (cmdReady_iff s).mpr ⟨hrst, hrsp⟩
    have hwait : step s = .next (accept [] s) := by simp [step, hrst, hready, ho]
    rw [hwait, accept, ← ho]

/-- Settles O10: each of `step_cases` has a next state, the last one by `perform_ends`. -/
theorem everyStepHasANextState : Obligations.EveryStepHasANextState := by
  intro s
  rcases step_cases s with ⟨-, hs⟩ | ⟨-, -, hs⟩ | ⟨-, -, hs⟩ | ⟨c, rest, -, -, hs⟩
  · exact ⟨_, hs⟩
  · exact ⟨_, hs⟩
  · exact ⟨_, hs⟩
  · obtain ⟨t, ht, -⟩ := perform_ends c (accept rest s)
    exact ⟨t, hs.trans ht⟩

/-! ### Errors and STATUS (60_exceptions.md R230-R234) -/

theorem ErrCode.number_le (e : ErrCode) : e.number ≤ 5 := by cases e <;> decide

theorem Status.bits_length (st : Status) : st.bits.length = 8 := rfl

theorem setError_bits (st : Status) (e : ErrCode) : (st.setError e).bits = st.bits.set e.number true := by
  cases e <;> rfl

/-- Raising an error sets the one bit of its code in the word that STATUS reads as. -/
theorem setError_word (st : Status) (e : ErrCode) : (st.setError e).word = st.word ||| (1#32 <<< e.number) := by
  have hnumber := e.number_le
  have hlen := st.bits_length
  apply BitVec.eq_of_getLsbD_eq
  intro k hk
  rw [BitVec.getLsbD_or, status_word_getLsbD _ hk, status_word_getLsbD _ hk, setError_bits,
    ← BitVec.twoPow_eq, BitVec.getLsbD_twoPow, List.getD_eq_getElem?_getD, List.getD_eq_getElem?_getD,
    List.getElem?_set]
  by_cases hke : e.number = k
  · subst hke
    simp [show e.number < st.bits.length by omega, hk]
  · simp [hke]

/-- A command that answers OK has no error to explain. -/
theorem Ends.error_or_ok {s t : State} (h : Ends s t) :
    (∃ e, t = raiseError e s) ∨ ∃ d, t.rsp = some ⟨d, .ok⟩ := by
  cases h with
  | raise e => exact .inl ⟨e, rfl⟩
  | _ => exact .inr ⟨_, rfl⟩

/-- Settles O11: a command that does not answer OK ends as `raiseError`. -/
theorem errorsLeaveOnlyTheirStickyBit : Obligations.ErrorsLeaveOnlyTheirStickyBit := by
  refine ⟨fun c s t h => ?_, setError_word⟩
  obtain ⟨u, hu, hends⟩ := perform_ends c s
  cases hu.symm.trans h
  rcases hends.error_or_ok with ⟨e, rfl⟩ | ⟨d, hd⟩
  · refine ⟨_, raiseError_rsp e s, fun e' he' => ?_⟩
    cases he'
    exact ⟨rfl, rfl⟩
  · exact ⟨_, hd, nofun⟩

/-- Settles O13: of all the ways to end only START and STOP write RUN. -/
theorem runChangesOnlyByStartAndStop : Obligations.RunChangesOnlyByStartAndStop := by
  intro c s t h hrun
  rcases perform_endsAs h with ⟨i, hdec, hends⟩ | rfl
  · cases hends with
    | raise e | answer d => simp at hrun
    | write r w _ _ => simp at hrun
    | table x j w _ _ => simp at hrun
    | start _ => exact .inl ⟨hdec, rfl⟩
    | stop => exact .inr ⟨hdec, rfl⟩
    | tick m x _ => simp at hrun
  · simp at hrun

/-- A register write changes STATUS only if the register is STATUS. -/
theorem writeReg_status_of_ne {r : Reg} (h : r ≠ .status) (s : State) (w : Word) :
    (s.writeReg r w).status = s.status := by
  cases r with
  | status => exact absurd rfl h
  | _ => rfl

/-- `st'` has every sticky bit of `st`, which are the bits 7:1. -/
def Status.KeepsSticky (st st' : Status) : Prop :=
  ∀ k, 1 ≤ k → k ≤ 7 → st.bits.getD k false = true → st'.bits.getD k false = true

theorem setError_keepsSticky (st : Status) (e : ErrCode) : st.KeepsSticky (st.setError e) := by
  intro k _ _ h
  rw [setError_bits, List.getD_eq_getElem?_getD, List.getElem?_set]
  rw [List.getD_eq_getElem?_getD] at h
  split_ifs with he hlt
  · rfl
  · have hnumber := e.number_le
    have hlen := st.bits_length
    omega
  · exact h

theorem setRun_keepsSticky (st : Status) (v : Bool) : st.KeepsSticky (st.setRun v) := by
  intro k hk _ h
  obtain ⟨j, rfl⟩ := Nat.exists_eq_add_of_le' hk
  exact h

theorem setGuard_keepsSticky (st : Status) (nan clip : Bool) : st.KeepsSticky (st.setGuard nan clip) := by
  intro k _ _ h
  match k with
  | 0 | 1 | 2 | 3 | 4 | 5 => exact h
  | 6 | 7 => simp_all [Status.bits]
  | k + 8 => cases h

/-- What a write to STATUS clears is written as 1. -/
theorem writeOneToClear_bit {st : Status} {w : Word} {k : Nat} (hk : 1 ≤ k) (hk' : k ≤ 7)
    (h : st.bits.getD k false = true) (h' : (st.writeOneToClear w).bits.getD k false = false) :
    w.getLsbD k = true := by
  match k with
  | 1 | 2 | 3 | 4 | 5 | 6 | 7 => simp_all [Status.bits, Status.writeOneToClear]

/-- Settles O14: every end but the write of STATUS keeps the sticky bits, and that write clears those written as 1. -/
theorem stickyBitsAreClearedOnlyByStatusWrites : Obligations.StickyBitsAreClearedOnlyByStatusWrites := by
  intro c s t k h hk hk' hset hclear
  rw [status_word_getLsbD _ (by omega)] at hset hclear
  have contra : s.status.KeepsSticky t.status → ∃ w : Word, decode c = .ok (.wrreg 0x0003 w) ∧ w.getLsbD k = true :=
    fun hkeeps => by
      rw [hkeeps k hk hk' hset] at hclear
      cases hclear
  rcases perform_endsAs h with ⟨i, hdec, hends⟩ | rfl
  · cases hends with
    | raise _ e => exact contra (setError_keepsSticky _ e)
    | answer d => exact contra fun _ _ _ => id
    | write r w _ _ =>
      by_cases hr : r = .status
      · subst hr
        exact ⟨w, hdec, writeOneToClear_bit hk hk' hset hclear⟩
      · rw [respond_status, writeReg_status_of_ne hr, hset] at hclear
        cases hclear
    | table x j w _ _ =>
      rw [respond_status, memWrite_status, hset] at hclear
      cases hclear
    | start _ => exact contra (setRun_keepsSticky _ true)
    | stop => exact contra (setRun_keepsSticky _ false)
    | tick m x _ => exact contra (setGuard_keepsSticky _ _ _)
  · exact contra (setError_keepsSticky _ .opc)

/-! ### The flags of the guard (42_tick.md R173) -/

theorem flt_of_isNaN_left {a b : F64} (h : isNaN a = true) : flt a b = false := by simp [flt, h]
theorem flt_of_isNaN_right {a b : F64} (h : isNaN b = true) : flt a b = false := by simp [flt, h]

/-- NAN_OUT is set by a NaN, CLIP_OUT by what lies outside [-1.0, 1.0]. -/
theorem guardOut_flags (y : F64) :
    (guardOut y).nan = isNaN y ∧ (guardOut y).clip = (flt one64 y || flt y minusOne64) := by
  unfold guardOut
  split_ifs with hnan hhigh hlow
  · simp [hnan, flt_of_isNaN_left hnan, flt_of_isNaN_right hnan]
  · simp [hnan, hhigh]
  · simp [hnan, hhigh, hlow]
  · simp [hnan, hhigh, hlow]

/-- One TICK sets at most one of the two flags. -/
theorem guardOut_not_both (y : F64) : ¬((guardOut y).nan = true ∧ (guardOut y).clip = true) := by
  rw [(guardOut_flags y).1, (guardOut_flags y).2]
  rintro ⟨hnan, hclip⟩
  simp [flt_of_isNaN_left hnan, flt_of_isNaN_right hnan] at hclip

/-- A write never sets a flag of the guard. -/
theorem writeReg_guard_flags {s : State} {r : Reg} {w : Word} :
    ((s.writeReg r w).status.nanOut = true → s.status.nanOut = true) ∧
      ((s.writeReg r w).status.clipOut = true → s.status.clipOut = true) := by
  by_cases hr : r = .status
  · subst hr
    simp +contextual [State.writeReg, Status.writeOneToClear]
  · rw [writeReg_status_of_ne hr]
    exact ⟨id, id⟩

/-- Settles O15: every end but a running TICK's keeps the two flags or clears them. -/
theorem guardFlagsAreSetOnlyByTicks : Obligations.GuardFlagsAreSetOnlyByTicks := by
  intro c s t h hset
  have contra {P : Prop} (hnan : t.status.nanOut = true → s.status.nanOut = true)
      (hclip : t.status.clipOut = true → s.status.clipOut = true) : P := by
    rcases hset with ⟨hnew, hold⟩ | ⟨hnew, hold⟩
    · simp [hnan hnew] at hold
    · simp [hclip hnew] at hold
  rcases perform_endsAs h with ⟨i, hdec, hends⟩ | rfl
  · cases hends with
    | raise _ e => exact contra (by simp) (by simp)
    | answer _ d => exact contra id id
    | write r w _ _ => exact contra writeReg_guard_flags.1 writeReg_guard_flags.2
    | table x j w _ _ => exact contra (by simp) (by simp)
    | start _ => exact contra id id
    | stop => exact contra id id
    | tick m x hrun =>
      refine ⟨hrun, ⟨m, x, hdec⟩, ?_⟩
      rintro ⟨⟨hnan, hnan'⟩, hclip, hclip'⟩
      refine guardOut_not_both (mixerResult s m x) ⟨?_, ?_⟩
      · simpa [hnan'] using hnan
      · simpa [hclip'] using hclip
  · exact contra (by simp) (by simp)

end Sys2Proof.Machine
end

section
/-! PROOFS. The statements of 41_commands.md on RDTAB, WRTAB, NOP, START and STOP (R121, R129-R132), on the priority of
errors (60_exceptions.md R233) and on performing a command twice (20_memory.md R67). -/

namespace Sys2Proof.Machine

/-! ### Table commands (41_commands.md R129, R130) -/

theorem exec_rdtab_unknown {s : State} {tab idx : Nat} (h : selectEntry s.cfg tab idx = none) :
    exec (.rdtab tab idx) s = .next (raiseError .addr s) := by
  show execRdtab _ _ _ = _
  rw [execRdtab, h]

theorem exec_wrtab_unknown {s : State} {tab idx : Nat} (w : Word) (h : selectEntry s.cfg tab idx = none) :
    exec (.wrtab tab idx w) s = .next (raiseError .addr s) := by
  show execWrtab _ _ _ _ = _
  rw [execWrtab, h]

theorem exec_rdtab_tabOf {s : State} {t : TableId} {i : Nat} (h : i < depth s.cfg t) :
    exec (.rdtab (tabOf t) i) s = .next (respond (memRead s t i) s) := by
  show execRdtab _ _ _ = _
  rw [execRdtab, selectEntry_tabOf, if_pos h]

theorem exec_wrtab_busy {s : State} {t : TableId} {i : Nat} (w : Word) (h : i < depth s.cfg t)
    (hrun : s.status.run = true) : exec (.wrtab (tabOf t) i w) s = .next (raiseError .busy s) := by
  show execWrtab _ _ _ _ = _
  rw [execWrtab, selectEntry_tabOf, if_pos h]
  exact if_pos hrun

/-- Settles O27: TAB and IDX select the entry. -/
theorem rdtabRespondsTheEntry : Obligations.RdtabRespondsTheEntry :=
  fun _ _ _ h => exec_rdtab_tabOf h

/-- Settles O28: a write to memory (`memRead_memWrite_same`, `memRead_memWrite_other`) and a response. -/
theorem wrtabStoresTheWord : Obligations.WrtabStoresTheWord := by
  intro s t i w hi hidle
  refine ⟨_, exec_wrtab_idle w hi hidle, rfl, ?_, fun x j hne => ?_, ?_⟩
  · rw [respond_memRead, memRead_memWrite_same]
  · rw [respond_memRead, memRead_memWrite_other s w hne]
  · cases t <;> rfl

/-- Settles O29: an unknown table or an index beyond the depth selects no entry, and RUN locks every table. -/
theorem tableErrors : Obligations.TableErrors := by
  refine fun s w => ⟨fun tab i htab _ => ?_, fun t i hi => ?_, fun t i hi hrun => exec_wrtab_busy w hi hrun⟩
  · have hnone := selectEntry_unknown s.cfg htab i
    exact ⟨exec_rdtab_unknown hnone, exec_wrtab_unknown w hnone⟩
  · have hnone : selectEntry s.cfg (tabOf t) i = none := by rw [selectEntry_tabOf, if_neg (Nat.not_lt.mpr hi)]
    exact ⟨exec_rdtab_unknown hnone, exec_wrtab_unknown w hnone⟩

/-- Settles O30: of all the ways to end only that of a WRTAB writes a table. -/
theorem onlyWrtabChangesATableEntry : Obligations.OnlyWrtabChangesATableEntry := by
  intro c s u t i h hother
  rcases perform_endsAs h with ⟨instr, hdec, hends⟩ | rfl
  · cases hends with
    | raise _ e => exact raiseError_memRead e s t i
    | answer _ d => exact respond_memRead d s t i
    | write r w _ _ => rw [respond_memRead, writeReg_memRead]
    | table x j w _ _ =>
      rw [respond_memRead]
      refine memRead_memWrite_other s w fun heq => hother w ?_
      cases heq
      exact hdec
    | start _ => rw [respond_memRead, startRun_memRead]
    | stop => rw [respond_memRead]; exact memRead_congr (by cases t <;> rfl) rfl i
    | tick m x _ => exact tickRun_memRead m x s t i
  · exact raiseError_memRead .opc s t i

/-- Settles O12: each example fails the check named, and every check before it passes. -/
theorem errorPriorityExamples : Obligations.ErrorPriorityExamples := by
  intro s hrun hslots
  have hreserved : selectReg s.cfg 0x0120 = none := selectReg_of_reserved (by omega)
  refine ⟨execWrreg_of_error (writeError_of_none 0 hreserved), execWrreg_of_error (a := 0x0006) (w := 0) rfl,
    execWrreg_of_busy (r := .numBands) 0 rfl rfl hrun, exec_wrtab_unknown 0 rfl, ?_⟩
  exact perform_of_error (e := .nonzeroZeroField) (by decide) s

/-! ### NOP, START and STOP (41_commands.md R121, R131, R132) -/

/-- Settles O31: a response is all that NOP gives. -/
theorem nopOnlyResponds : Obligations.NopOnlyResponds := fun _ => rfl

/-- Settles O33: STOP writes RUN whatever it was. -/
theorem stopOnlyClearsRun : Obligations.StopOnlyClearsRun := fun _ => rfl

theorem exec_start_active {s : State} (h : s.numBands ≠ 0) : exec .start s = .next (respond 0 (startRun s)) := if_neg h

theorem exec_start_inactive {s : State} (h : s.numBands = 0) : exec .start s = .next (raiseError .cfg s) := if_pos h

/-- START clears each slot on its own. -/
theorem startRun_band {s : State} {b : Nat} (h : b < s.bands.length) : (startRun s).band b = clearBand (s.band b) := by
  simp [State.band, h]

/-- Settles O32: an active band makes START `startRun`, which clears each slot by `startRun_band`. -/
theorem startClearsTheDynamicState : Obligations.StartClearsTheDynamicState := by
  refine ⟨fun s h => ⟨_, exec_start_active h, ?_, fun b hb => startRun_band hb, rfl⟩, fun s h => exec_start_inactive h⟩
  rw [respond_bands, startRun_bands, List.length_map]

/-- Settles O34: START overwrites the response of STOP and, with an active band, the RUN bit it cleared; without one
RUN was 0 already. -/
theorem restartIsStart : Obligations.RestartIsStart := by
  intro s t hactive hstop
  have hbands : t.numBands = s.numBands := by cases hstop; rfl
  by_cases h : s.numBands = 0
  · have hidle : s.status.run = false := Bool.eq_false_iff.mpr fun hrun => hactive hrun h
    have hstatus : s.status.setRun false = s.status := by rw [← hidle]; rfl
    rw [exec_start_inactive h, exec_start_inactive (hbands.trans h)]
    cases hstop
    rw [hstatus]
    rfl
  · rw [exec_start_active h, exec_start_active (hbands ▸ h)]
    cases hstop
    rfl

/-! ### Performing a command twice (20_memory.md R67) -/

theorem raiseError_twice (e : ErrCode) (s : State) : raiseError e (raiseError e s) = raiseError e s := by
  simp [raiseError]

theorem respond_respond (d e : Word) (s : State) : respond d (respond e s) = respond d s := rfl

theorem readReg_respond (d : Word) (s : State) (r : Reg) : (respond d s).readReg r = s.readReg r := by
  cases r <;> rfl

theorem writeReg_idempotent (s : State) (r : Reg) (w : Word) : (s.writeReg r w).writeReg r w = s.writeReg r w := by
  by_cases h : r = .status
  · subst h
    simp [State.writeReg, Status.writeOneToClear]
  · exact writeReg_twice h s w w

theorem memWrite_twice (s : State) (t : TableId) (i : Nat) (v w : Word) :
    memWrite (memWrite s t i v) t i w = memWrite s t i w := by
  cases t <;> simp [memWrite, State.setTable, State.table, putEntry_twice]

theorem memWrite_respond (d e : Word) (s : State) (t : TableId) (i : Nat) (w : Word) :
    respond d (memWrite (respond e s) t i w) = respond d (memWrite s t i w) := by
  cases t <;> rfl

/-- The checks of a WRREG depend on the parameters and RUN alone. -/
theorem writeError_congr {s t : State} (hcfg : t.cfg = s.cfg) (hrun : t.status.run = s.status.run) (addr : Nat)
    (w : Word) : writeError t addr w = writeError s addr w := by
  simp [writeError, hcfg, hrun]

theorem execWrreg_of_passed {s : State} {addr : Nat} {w : Word} {r : Reg} (h : writeError s addr w = none)
    (hsel : selectReg s.cfg addr = some r) : execWrreg addr w s = .next (respond 0 (s.writeReg r w)) := by
  rw [execWrreg, h, hsel]

theorem startRun_twice (s : State) : startRun (respond 0 (startRun s)) = respond 0 (startRun s) := by
  have hclear : (s.bands.map clearBand).map clearBand = s.bands.map clearBand := by
    rw [List.map_map]
    rfl
  simp only [startRun, respond, hclear]
  rfl

/-- Settles O35: the second time each command passes the checks it passed the first time, and what it writes or responds
is there already. -/
theorem everyCommandButTickIsIdempotent : Obligations.EveryCommandButTickIsIdempotent := by
  intro i s t htick h
  cases i with
  | nop | stop => cases h; rfl
  | tick m c => exact absurd rfl (htick m c)
  | rdreg addr =>
    rcases execRdreg_cases addr s with ⟨hnone, hs⟩ | ⟨r, hsel, hs⟩ <;> cases hs.symm.trans h
    · rw [← raiseError_cfg .addr s] at hnone
      exact (execRdreg_of_none hnone).trans (by rw [raiseError_twice])
    · show execRdreg _ _ = _
      simp [execRdreg, hsel, readReg_respond, respond_respond]
  | wrreg addr w =>
    rcases execWrreg_cases addr w s with ⟨e, herr, hs⟩ | ⟨r, hnone, hsel, hs⟩ <;> cases hs.symm.trans h
    · rw [← writeError_congr (raiseError_cfg e s) (raiseError_run e s)] at herr
      exact (execWrreg_of_error herr).trans (by rw [raiseError_twice])
    · have hnone' : writeError (respond 0 (s.writeReg r w)) addr w = none :=
        (writeError_congr (by simp) (by simp) addr w).trans hnone
      have hsel' : selectReg (respond 0 (s.writeReg r w)).cfg addr = some r := by simpa using hsel
      exact (execWrreg_of_passed hnone' hsel').trans (by rw [respond_writeReg_respond, writeReg_idempotent])
  | rdtab tab idx =>
    rcases execRdtab_cases tab idx s with ⟨hnone, hs⟩ | ⟨x, j, hsel, hs⟩ <;> cases hs.symm.trans h
    · rw [← raiseError_cfg .addr s] at hnone
      exact (exec_rdtab_unknown hnone).trans (by rw [raiseError_twice])
    · show execRdtab _ _ _ = _
      simp [execRdtab, hsel, respond_respond]
  | wrtab tab idx w =>
    rcases execWrtab_cases tab idx w s with ⟨hnone, hs⟩ | ⟨x, j, hsel, ⟨hrun, hs⟩ | ⟨hidle, hs⟩⟩ <;>
      cases hs.symm.trans h
    · rw [← raiseError_cfg .addr s] at hnone
      exact (exec_wrtab_unknown w hnone).trans (by rw [raiseError_twice])
    · show execWrtab _ _ _ _ = _
      simp [execWrtab, hsel, hrun, raiseError_twice]
    · show execWrtab _ _ _ _ = _
      simp [execWrtab, hsel, hidle, memWrite_respond, memWrite_twice]
  | start =>
    rcases execStart_cases s with ⟨hzero, hs⟩ | ⟨hne, hs⟩ <;> cases hs.symm.trans h
    · exact (exec_start_inactive (s := raiseError .cfg s) hzero).trans (by rw [raiseError_twice])
    · exact (exec_start_active (s := respond 0 (startRun s)) hne).trans (by rw [startRun_twice]; rfl)

end Sys2Proof.Machine
end


section
/-! PROOFS. The invariant of 10_state.md section 6 and 20_memory.md R60: reset meets it and every step keeps it. -/

namespace Sys2Proof.Machine

/-- The invariant depends on the parameters, the number of slots, three registers, RUN and the tables alone. -/
theorem State.Inv.congr {s t : State} (h : s.Inv) (hcfg : t.cfg = s.cfg) (hslots : t.bands.length = s.bands.length)
    (hbands : t.numBands = s.numBands) (hlen : t.noiseLen = s.noiseLen) (hidx : t.noiseIdx = s.noiseIdx)
    (hrun : t.status.run = s.status.run) (htables : ∀ x, t.table x = s.table x) : t.Inv where
  legal := hcfg ▸ h.legal
  slots := by rw [hslots, hcfg, h.slots]
  numBands := by rw [hbands, hcfg]; exact h.numBands
  noiseLen := by rw [hlen, hcfg]; exact h.noiseLen
  active := by rw [hrun, hbands]; exact h.active
  noiseIdx := by rw [hrun, hidx, hlen]; exact h.noiseIdx
  tables x := by rw [hcfg, htables]; exact h.tables x

theorem inv_raiseError {s : State} (h : s.Inv) (e : ErrCode) : (raiseError e s).Inv :=
  h.congr rfl rfl rfl rfl rfl (raiseError_run e s) (raiseError_table e s)

theorem inv_respond {s : State} (h : s.Inv) (d : Word) : (respond d s).Inv :=
  h.congr rfl rfl rfl rfl rfl rfl (respond_table d s)

theorem inv_accept {s : State} (h : s.Inv) (rest : List Command) : (accept rest s).Inv :=
  h.congr rfl rfl rfl rfl rfl rfl (accept_table rest s)

/-- A register write that passes its checks: a value-checked register takes only words in its range, while RUN = 0. -/
theorem inv_writeReg {s : State} (h : s.Inv) {r : Reg} {w : Word} (hro : r.access ≠ .ro)
    (hidle : r.access = .rwLocked → s.status.run = false) (hlegal : legalValue s.cfg r w = true) :
    (s.writeReg r w).Inv := by
  cases r with
  | numBands =>
    obtain ⟨hlow, hhigh⟩ := of_decide_eq_true hlegal
    exact ⟨h.legal, h.slots, hhigh, h.noiseLen, fun _ => hlow, h.noiseIdx, h.tables⟩
  | noiseLen =>
    have hrun := hidle rfl
    refine ⟨h.legal, h.slots, h.numBands, of_decide_eq_true hlegal, h.active, fun hrun' => ?_, h.tables⟩
    exact absurd (hrun'.symm.trans hrun) (by decide)
  | noiseIdx => exact absurd rfl hro
  | band b k =>
    exact h.congr rfl (writeReg_slots s (.band b k) w) rfl rfl rfl rfl fun x => writeReg_table s (.band b k) w x
  | _ => exact h.congr rfl rfl rfl rfl rfl rfl fun x => by cases x <;> rfl

theorem inv_memWrite {s : State} (h : s.Inv) {t : TableId} {i : Nat} (w : Word) (hi : i < depth s.cfg t) :
    (memWrite s t i w).Inv where
  legal := by rw [memWrite_cfg]; exact h.legal
  slots := by rw [memWrite_bands, memWrite_cfg]; exact h.slots
  numBands := by rw [memWrite_numBands, memWrite_cfg]; exact h.numBands
  noiseLen := by rw [memWrite_noiseLen, memWrite_cfg]; exact h.noiseLen
  active := by rw [memWrite_status, memWrite_numBands]; exact h.active
  noiseIdx := by rw [memWrite_status, memWrite_noiseIdx, memWrite_noiseLen]; exact h.noiseIdx
  tables x := by rw [memWrite_cfg]; exact memWrite_wf w hi h.tables x

/-- START makes the block run only with an active band, and puts the noise position at 0, below NOISE_LEN. -/
theorem inv_startRun {s : State} (h : s.Inv) (hbands : s.numBands ≠ 0) : (startRun s).Inv where
  legal := h.legal
  slots := by rw [startRun_bands, List.length_map]; exact h.slots
  numBands := h.numBands
  noiseLen := h.noiseLen
  active _ := Nat.one_le_iff_ne_zero.mpr fun hzero => hbands (BitVec.eq_of_toNat_eq hzero)
  noiseIdx _ := h.noiseLen.1
  tables x := by rw [startRun_table]; exact h.tables x

theorem inv_stop {s : State} (h : s.Inv) : ({ s with status := s.status.setRun false } : State).Inv where
  legal := h.legal
  slots := h.slots
  numBands := h.numBands
  noiseLen := h.noiseLen
  active hrun := by cases hrun
  noiseIdx hrun := by cases hrun
  tables := h.tables

/-- The noise position stays below NOISE_LEN as it advances (40_numerics.md R112). -/
theorem advanceNoise_lt {idx len : Word} (h : idx.toNat < len.toNat) : (advanceNoise idx len).toNat < len.toNat := by
  have hlen := len.isLt
  unfold advanceNoise
  split_ifs with hwrap
  · exact Nat.lt_of_le_of_lt (Nat.zero_le _) h
  · have hnext : (idx + 1).toNat = idx.toNat + 1 := by
      rw [BitVec.toNat_add]
      exact Nat.mod_eq_of_lt (show idx.toNat + 1 < 2 ^ 32 by omega)
    have hne : (idx + 1).toNat ≠ len.toNat := fun heq => hwrap (BitVec.eq_of_toNat_eq heq)
    omega

theorem inv_tickRun {s : State} (h : s.Inv) (m c : Word) (hrun : s.status.run = true) : (tickRun m c s).Inv where
  legal := h.legal
  slots := by rw [tickRun_bands_length]; exact h.slots
  numBands := h.numBands
  noiseLen := h.noiseLen
  active _ := h.active hrun
  noiseIdx _ := advanceNoise_lt (h.noiseIdx hrun)
  tables x := by rw [tickRun_table]; exact h.tables x

/-- However a command ends, it keeps the invariant. -/
theorem Ends.keeps_inv {s t : State} (hends : Ends s t) (h : s.Inv) : t.Inv := by
  cases hends with
  | raise e => exact inv_raiseError h e
  | answer d => exact inv_respond h d
  | write addr r w hnone hsel =>
    obtain ⟨hro, hidle, hlegal⟩ := writeError_none hnone hsel
    exact inv_respond (inv_writeReg h hro hidle hlegal) 0
  | table x j w hj _ => exact inv_respond (inv_memWrite h w hj) 0
  | start hbands => exact inv_respond (inv_startRun h hbands) 0
  | stop => exact inv_respond (inv_stop h) 0
  | tick m c hrun => exact inv_tickRun h m c hrun

theorem inv_resetOf {cfg : Config} (h : cfg.Legal) : (State.resetOf cfg).Inv where
  legal := h
  slots := List.length_replicate
  numBands := Nat.zero_le _
  noiseLen := by rw [noiseLen_resetOf h]; exact ⟨Nat.one_le_two_pow, le_rfl⟩
  active hrun := by cases hrun
  noiseIdx hrun := by cases hrun
  tables := resetOf_tables_wf cfg

/-- Settles O47: reset meets each clause, RUN being 0 and the tables empty. -/
theorem resetMeetsTheInvariant : Obligations.ResetMeetsTheInvariant :=
  ⟨fun _ => inv_resetOf, inv_resetOf (by decide)⟩

/-- Settles O48: a step resets the block, changes nothing the invariant speaks of, or performs a command, which keeps it
by `Ends.keeps_inv`. -/
theorem stepKeepsTheInvariant : Obligations.StepKeepsTheInvariant := by
  intro s t h hstep
  rcases step_cases s with ⟨-, hs⟩ | ⟨-, -, hs⟩ | ⟨-, -, hs⟩ | ⟨c, rest, -, -, hs⟩ <;> rw [hs] at hstep
  · cases hstep
    exact (inv_resetOf h.legal).congr rfl rfl rfl rfl rfl rfl fun x => by cases x <;> rfl
  · cases hstep
    exact h
  · cases hstep
    exact inv_accept h []
  · obtain ⟨u, hu, hends⟩ := perform_ends c (accept rest s)
    cases hu.symm.trans hstep
    exact hends.keeps_inv (inv_accept h rest)

end Sys2Proof.Machine
end

section
/-! PROOFS. Rounding to binary32 and the conversions (40_numerics.md R101, R116, R117), on the laws of `roundMagnitude`
that both formats share. -/

namespace Sys2Proof.Machine

/-! ### More laws of rounding in any format -/

/-- What `Prefers` says of magnitudes holds of signed numbers: one of the other sign is as far from the real as 0 and
more, so what holds of 0 holds of it. -/
theorem Prefers.signed {n k c v x : Nat} (hx : Prefers n k c v x) (hzero : Prefers n k c v 0) (neg neg' : Bool) :
    (signed neg v * 2 ^ k - signed neg n).natAbs ≤ (signed neg' x * 2 ^ k - signed neg n).natAbs ∧
      ((signed neg v * 2 ^ k - signed neg n).natAbs = (signed neg' x * 2 ^ k - signed neg n).natAbs →
        signed neg' x ≠ signed neg v → c % 2 = 0) := by
  rw [gap_signed]
  by_cases hs : neg' = neg
  · rw [hs, gap_signed]
    refine ⟨hx.gap_le, fun htie hne => ?_⟩
    rcases hx with heq | hlt | ⟨-, heven⟩
    · exact absurd (by rw [heq]) hne
    · omega
    · exact heven
  · have hgap : gap n k 0 = n := by simp [gap]
    have hle := hzero.gap_le
    rw [Bool.eq_not_of_ne hs, gap_signed_not]
    refine ⟨by omega, fun htie hne => ?_⟩
    have hscaled : x * 2 ^ k = 0 := by omega
    have hx0 : x = 0 := by simpa using hscaled
    rcases hzero with heq | hlt | ⟨-, heven⟩
    · exact absurd (by rw [hx0, ← heq]; cases neg <;> rfl) hne
    · omega
    · exact heven

/-- A magnitude of the format is rounded to its own encoding. -/
theorem roundMagnitude_encodedMagnitude (f e k : Nat) :
    roundMagnitude (f + 1) (encodedMagnitude f e * 2 ^ k) k = e := by
  obtain ⟨s, R, he, hlo, hhi⟩ := exists_significand f e
  have hmag : encodedMagnitude f e = R * 2 ^ s := he ▸ encodedMagnitude_significand hlo hhi.le
  apply (encodedMagnitude_strictMono f).injective
  rw [hmag, Nat.mul_assoc, ← Nat.pow_add, roundMagnitude_exact hhi]

/-- Rounding does not go past a magnitude of the format. -/
theorem roundMagnitude_le {f n k e : Nat} (hf : 1 ≤ f) (h : n ≤ encodedMagnitude f e * 2 ^ k) :
    roundMagnitude (f + 1) n k ≤ e := by
  by_contra hlt
  have hscaled := lt_scaled_of_lt k (encodedMagnitude_strictMono f (Nat.lt_of_not_ge hlt))
  have hgap := (roundMagnitude_prefers hf n k e).gap_le
  unfold gap at hgap
  omega

theorem le_roundMagnitude {f n k e : Nat} (hf : 1 ≤ f) (h : encodedMagnitude f e * 2 ^ k ≤ n) :
    e ≤ roundMagnitude (f + 1) n k := by
  by_contra hlt
  have hscaled := lt_scaled_of_lt k (encodedMagnitude_strictMono f (Nat.lt_of_not_ge hlt))
  have hgap := (roundMagnitude_prefers hf n k e).gap_le
  unfold gap at hgap
  omega

/-! ### The encoding of a binary32 word without its sign -/

theorem magnitude32_eq (w : Word) : magnitude32 w = encodedMagnitude 23 (w.toNat % 2 ^ 31) := by
  have hfrac := fracField32_lt w
  have henc : w.toNat % 2 ^ 31 = expoField32 w * 2 ^ 23 + fracField32 w := by
    rw [expoField32_eq, fracField32_eq]; omega
  rw [magnitude32, henc]
  split
  · next h => rw [h, encodedMagnitude_significand (.inl rfl) (by omega), Nat.pow_zero, Nat.mul_one]
  · next h =>
    have hlead : expoField32 w * 2 ^ 23 + fracField32 w = (expoField32 w - 1) * 2 ^ 23 + (2 ^ 23 + fracField32 w) := by
      omega
    rw [hlead, encodedMagnitude_significand (.inr (Nat.le_add_right _ _)) (by omega), Nat.shiftLeft_eq]

theorem units32_eq_signed (w : Word) : units32 w = signed (signBit32 w) (magnitude32 w) := rfl

/-- A word is its encoding and its sign. -/
theorem eq_encoded32 (w : Word) : w = BitVec.ofNat 32 (w.toNat % 2 ^ 31 + if signBit32 w then 2 ^ 31 else 0) := by
  have hlt := w.isLt
  apply BitVec.eq_of_toNat_eq
  rw [signBit32_eq, BitVec.toNat_ofNat]
  split
  · next h => rw [decide_eq_true_eq] at h; omega
  · next h => rw [decide_eq_true_eq] at h; omega

/-- Words up to the encoding of the infinities are those that are no NaN. -/
theorem encoding_le_of_not_isNaN32 {w : Word} (h : isNaN32 w = false) : w.toNat % 2 ^ 31 ≤ infEncoding32 := by
  rw [isNaN32, Bool.and_eq_false_iff, expoField32_eq, fracField32_eq] at h
  rw [infEncoding32_eq]
  simp only [beq_eq_false_iff_ne, bne_eq_false_iff_eq] at h
  omega

theorem isInf32_iff (w : Word) : isInf32 w = true ↔ w.toNat % 2 ^ 31 = infEncoding32 := by
  rw [isInf32, expoField32_eq, fracField32_eq, infEncoding32_eq, Bool.and_eq_true, beq_iff_eq, beq_iff_eq]
  omega

/-- A finite word has an encoding below that of the infinities. -/
theorem encoding_lt_of_finite32 {w : Word} (hnan : isNaN32 w = false) (hinf : isInf32 w = false) :
    w.toNat % 2 ^ 31 < infEncoding32 :=
  Nat.lt_of_le_of_ne (encoding_le_of_not_isNaN32 hnan) fun h => by simp [(isInf32_iff w).mpr h] at hinf

theorem eq_infinity32 {w : Word} (h : isInf32 w = true) : w = infinity32 (signBit32 w) := by
  rw [infinity32, ← (isInf32_iff w).mp h]
  exact eq_encoded32 w

/-! ### round32 below and from its overflow threshold (R101) -/

theorem round32_toNat (neg : Bool) (n k : Nat) :
    (round32 neg n k).toNat % 2 ^ 31 = min (roundMagnitude 24 n k) infEncoding32 := by
  have := min_infEncoding32_lt (roundMagnitude 24 n k)
  rw [round32, BitVec.toNat_ofNat]
  cases neg with
  | false => rw [if_neg Bool.false_ne_true]; omega
  | true => rw [if_pos rfl]; omega

/-- The threshold is half way between the largest finite magnitude and the infinity's. -/
theorem overflow32_eq : overflow32 = (4 * 2 ^ 23 - 1) * 2 ^ 252 := by decide +kernel

theorem infEncoding32_le_roundMagnitude_iff (n k : Nat) :
    infEncoding32 ≤ roundMagnitude 24 n k ↔ overflow32 * 2 ^ k ≤ n := by
  rw [show infEncoding32 = (252 + 3) * 2 ^ 23 from infEncoding32_eq, overflow32_eq]
  exact above_le_roundMagnitude_iff (by decide) 252 n k

theorem isInf32_round32_iff (neg : Bool) (n k : Nat) : isInf32 (round32 neg n k) = true ↔ overflow32 * 2 ^ k ≤ n := by
  rw [isInf32_round32, decide_eq_true_eq, infEncoding32_le_roundMagnitude_iff]

theorem round32_toNat_of_lt {neg : Bool} {n k : Nat} (h : n < overflow32 * 2 ^ k) :
    (round32 neg n k).toNat % 2 ^ 31 = roundMagnitude 24 n k := by
  rw [round32_toNat, Nat.min_eq_left]
  have := infEncoding32_le_roundMagnitude_iff n k
  omega

theorem units32_round32 {neg : Bool} {n k : Nat} (h : n < overflow32 * 2 ^ k) :
    units32 (round32 neg n k) = signed neg (encodedMagnitude 23 (roundMagnitude 24 n k)) := by
  rw [units32_eq_signed, signBit32_round32, magnitude32_eq, round32_toNat_of_lt h]

theorem fracField32_round32_parity {neg : Bool} {n k : Nat} (h : n < overflow32 * 2 ^ k) :
    fracField32 (round32 neg n k) % 2 = roundMagnitude 24 n k % 2 := by
  rw [← round32_toNat_of_lt (neg := neg) h, fracField32_eq]
  omega

/-- Below the threshold `round32` is roundTiesToEven (40_numerics.md R101). -/
theorem round32_isNearestEven {neg : Bool} {n k : Nat} (h : n < overflow32 * 2 ^ k) :
    IsNearestEven32 (round32 neg n k) (signed neg n) k := by
  have hfinite : isInf32 (round32 neg n k) = false :=
    Bool.eq_false_iff.mpr fun hinf => absurd ((isInf32_round32_iff ..).mp hinf) (Nat.not_le.mpr h)
  refine ⟨isNaN32_round32 .., hfinite, fun v _ _ => ?_⟩
  have hprefer := roundMagnitude_prefers (f := 23) (by decide) n k
  rw [fracField32_round32_parity h, units32_round32 h, units32_eq_signed v, magnitude32_eq v]
  exact (hprefer (v.toNat % 2 ^ 31)).signed (hprefer 0) neg (signBit32 v)

/-- Settles O50: `round64_isNearestEven` and `round32_isNearestEven`, and the thresholds of
`above_le_roundMagnitude_iff`. -/
theorem roundingIsToNearestEven : Obligations.RoundingIsToNearestEven :=
  ⟨fun neg n k => ⟨signBit_round64 neg n k, round64_isNearestEven, (isInf_round64_iff neg n k).mpr⟩,
    fun neg n k => ⟨signBit32_round32 neg n k, round32_isNearestEven, (isInf32_round32_iff neg n k).mpr⟩⟩

/-! ### NaNs (R104) -/

theorem fmul_of_isNaN {a b : F64} (h : isNaN a = true ∨ isNaN b = true) : fmul a b = canonicalNaN :=
  fmul_of_invalid (by tauto)

theorem fadd_of_isNaN {a b : F64} (h : isNaN a = true ∨ isNaN b = true) : fadd a b = canonicalNaN :=
  fadd_of_invalid (by tauto)

theorem fsub_of_isNaN {a b : F64} (h : isNaN a = true ∨ isNaN b = true) : fsub a b = canonicalNaN :=
  fadd_of_isNaN (by rwa [isNaN_fneg])

theorem widen_of_isNaN32 {w : Word} (h : isNaN32 w = true) : widen w = canonicalNaN := if_pos h

theorem narrow_of_isNaN {d : F64} (h : isNaN d = true) : narrow d = canonicalNaN32 := if_pos h

/-- Each branch of `fmul` but the first two gives no NaN. -/
theorem canonical_fmul (a b : F64) : CanonicalF64 (fmul a b) := by
  intro h
  unfold fmul at h ⊢
  dsimp only at h ⊢
  split_ifs at h ⊢ <;> simp_all

theorem canonical_fadd (a b : F64) : CanonicalF64 (fadd a b) := by
  intro h
  unfold fadd at h ⊢
  split_ifs at h ⊢ <;> simp_all

theorem canonical_fsub (a b : F64) : CanonicalF64 (fsub a b) := canonical_fadd a (fneg b)

theorem canonical_widen (w : Word) : CanonicalF64 (widen w) := by
  intro h
  unfold widen at h ⊢
  split_ifs at h ⊢ <;> simp_all

theorem canonical_narrow (d : F64) (h : isNaN32 (narrow d) = true) : narrow d = canonicalNaN32 := by
  unfold narrow at h ⊢
  split_ifs at h ⊢ <;> simp_all

/-- Settles O53: a NaN operand takes the first branch of each operation, and no other branch that can give a NaN gives one
but the canonical one. -/
theorem naNsPropagateCanonically : Obligations.NaNsPropagateCanonically :=
  ⟨fun _ _ h => ⟨fmul_of_isNaN h, fadd_of_isNaN h, fsub_of_isNaN h⟩, fun _ => widen_of_isNaN32,
    fun _ => narrow_of_isNaN, fun a b => ⟨canonical_fmul a b, canonical_fadd a b, canonical_fsub a b⟩, canonical_widen, canonical_narrow⟩

/-! ### widen (R116) -/

theorem widen_of_isInf32 {w : Word} (h : isInf32 w = true) : widen w = infinity (signBit32 w) := by
  have hnan : isNaN32 w = false := by simp_all [isInf32, isNaN32]
  simp [widen, h, hnan]

theorem widen_of_finite {w : Word} (hnan : isNaN32 w = false) (hinf : isInf32 w = false) :
    widen w = round64 (signBit32 w) (magnitude32 w * 2 ^ 925) 0 := by
  simp only [widen, hnan, hinf, Nat.shiftLeft_eq, Bool.false_eq_true, if_false]

/-- A finite binary32 value is a significand of 24 bits beside a scale that its exponent field allows. -/
theorem exists_significand32 {w : Word} (hnan : isNaN32 w = false) (hinf : isInf32 w = false) :
    ∃ m s, magnitude32 w = m * 2 ^ s ∧ m < 2 ^ 24 ∧ s ≤ 253 := by
  have hlt := encoding_lt_of_finite32 hnan hinf
  obtain ⟨s, R, he, hlo, hhi⟩ := exists_significand 23 (w.toNat % 2 ^ 31)
  refine ⟨R, s, ?_, hhi, ?_⟩
  · rw [magnitude32_eq, he, encodedMagnitude_significand hlo hhi.le]
  · rw [infEncoding32_eq] at hlt
    omega

/-- A finite binary32 value is one of binary64. -/
theorem widen_exact {w : Word} (hnan : isNaN32 w = false) (hinf : isInf32 w = false) :
    IsFinite (widen w) ∧ signBit (widen w) = signBit32 w ∧ units (widen w) = units32 w * 2 ^ 925 := by
  obtain ⟨m, s, hmag, hm, hs⟩ := exists_significand32 hnan hinf
  have hreal : signed (signBit32 w) (magnitude32 w * 2 ^ 925) = signed (signBit32 w) m * 2 ^ (s + 925 + 0) := by
    rw [hmag, Nat.mul_assoc, ← Nat.pow_add, signed_mul, Nat.cast_pow, Nat.cast_two, Nat.add_zero]
  obtain ⟨hfinite, hunits⟩ := round64_exact hreal (by rw [natAbs_signed]; omega) (by omega)
  rw [widen_of_finite hnan hinf]
  refine ⟨hfinite, signBit_round64 .., ?_⟩
  rw [hunits, units32_eq_signed, hmag, signed_mul, Nat.cast_pow, Nat.cast_two, pow_add, mul_assoc]

/-- Settles O54: a finite word by `widen_exact`, the others by the branch of `widen` they take. -/
theorem widenIsExact : Obligations.WidenIsExact := by
  refine fun w => ⟨widen_of_isNaN32, fun hinf => ?_, fun hnan hinf => ?_⟩
  · rw [widen_of_isInf32 hinf]
    exact ⟨isInf_infinity _, signBit_infinity _⟩
  · obtain ⟨⟨hnan', hinf'⟩, hsign, hunits⟩ := widen_exact hnan hinf
    exact ⟨hnan', hinf', hsign, hunits⟩

/-! ### narrow (R117) -/

theorem narrow_of_isFinite {d : F64} (h : IsFinite d) : narrow d = round32 (signBit d) (magnitude d) 925 := by
  obtain ⟨hnan, hinf⟩ := h
  simp only [narrow, hnan, hinf, Bool.false_eq_true, if_false]

theorem narrow_of_isInf {d : F64} (h : isInf d = true) : narrow d = infinity32 (signBit d) := by
  simp [narrow, h, not_isNaN_of_isInf h]

theorem isInf32_infinity32 (neg : Bool) : isInf32 (infinity32 neg) = true := by cases neg <;> decide

theorem signBit32_infinity32 (neg : Bool) : signBit32 (infinity32 neg) = neg := by cases neg <;> decide

theorem natAbs_units (d : F64) : (units d).natAbs = magnitude d := natAbs_signed _ _

/-- The magnitude that stands for an infinity lies beyond binary32's threshold. -/
theorem overflow32_le_of_isInf {d : F64} (h : isInf d = true) : overflow32 * 2 ^ 925 ≤ magnitude d := by
  rw [isInf, Bool.and_eq_true, beq_iff_eq, beq_iff_eq] at h
  obtain ⟨hexpo, hfrac⟩ := h
  rw [magnitude, hexpo, hfrac]
  decide +kernel

theorem narrow_widen_of_finite {w : Word} (hnan : isNaN32 w = false) (hinf : isInf32 w = false) :
    narrow (widen w) = w := by
  obtain ⟨hfinite, hsign, hunits⟩ := widen_exact hnan hinf
  have hmag : magnitude (widen w) = encodedMagnitude 23 (w.toNat % 2 ^ 31) * 2 ^ 925 := by
    rw [← natAbs_units, hunits, Int.natAbs_mul, units32_eq_signed, natAbs_signed, magnitude32_eq, Int.natAbs_pow]
    rfl
  rw [narrow_of_isFinite hfinite, hsign, hmag, round32, roundMagnitude_encodedMagnitude,
    Nat.min_eq_left (encoding_lt_of_finite32 hnan hinf).le]
  exact (eq_encoded32 w).symm

/-- Settles O55: an infinity goes to an infinity, a finite datum is rounded by `round32`, and a word widened is rounded
to its own encoding. -/
theorem narrowRoundsToNearestEven : Obligations.NarrowRoundsToNearestEven := by
  refine ⟨fun d => narrow_of_isNaN, fun d hnan => ?_, fun w hnan => ?_⟩
  · rw [natAbs_units]
    cases hinf : isInf d with
    | true =>
      rw [narrow_of_isInf hinf]
      refine ⟨signBit32_infinity32 _, fun hlt => ?_, fun _ => isInf32_infinity32 _⟩
      exact absurd (overflow32_le_of_isInf hinf) (Nat.not_le.mpr hlt)
    | false =>
      rw [narrow_of_isFinite ⟨hnan, hinf⟩]
      exact ⟨signBit32_round32 .., round32_isNearestEven, (isInf32_round32_iff ..).mpr⟩
  · cases hinf : isInf32 w with
    | true =>
      rw [widen_of_isInf32 hinf, narrow_of_isInf (isInf_infinity _), signBit_infinity]
      exact (eq_infinity32 hinf).symm
    | false => exact narrow_widen_of_finite hnan hinf

end Sys2Proof.Machine
end

section
/-! PROOFS. The output guard and the response of TICK (42_tick.md R173, R176), and the corner cases of a section (R153,
R154). -/

namespace Sys2Proof.Machine

/-! ### The guard (R173) -/

theorem units_one64 : units one64 = 2 ^ 1074 := by decide +kernel

theorem units_minusOne64 : units minusOne64 = -2 ^ 1074 := by decide +kernel

/-- Between two data that are no NaN `flt` compares exact values. -/
theorem flt_iff {a b : F64} (ha : isNaN a = false) (hb : isNaN b = false) : flt a b = true ↔ units a < units b := by
  simp [flt, ha, hb]

theorem one64_flt_iff {y : F64} (h : isNaN y = false) : flt one64 y = true ↔ 2 ^ 1074 < units y := by
  rw [flt_iff (by decide) h, units_one64]

theorem flt_minusOne64_iff {y : F64} (h : isNaN y = false) : flt y minusOne64 = true ↔ units y < -2 ^ 1074 := by
  rw [flt_iff h (by decide), units_minusOne64]

/-- Settles O41: the comparisons of the guard are those of exact values. -/
theorem guardClampsToUnitRange : Obligations.GuardClampsToUnitRange := by
  refine fun y => ⟨fun hnan => if_pos hnan, fun hnan hhigh => ?_, fun hnan hlow => ?_, fun hnan hlow hhigh => ?_⟩
  · rw [← one64_flt_iff hnan] at hhigh
    rw [guardOut, if_neg (by simp [hnan]), if_pos hhigh]
    rfl
  · have hnothigh : ¬flt one64 y = true := by
      rw [one64_flt_iff hnan]
      have : (0 : Int) < 2 ^ 1074 := by positivity
      omega
    rw [← flt_minusOne64_iff hnan] at hlow
    rw [guardOut, if_neg (by simp [hnan]), if_neg hnothigh, if_pos hlow]
    rfl
  · rw [← not_lt, ← one64_flt_iff hnan] at hhigh
    rw [← not_lt, ← flt_minusOne64_iff hnan] at hlow
    simp [guardOut, hnan, hhigh, hlow]

/-- What the guard lets through: no NaN, and of a magnitude up to 1.0. -/
theorem guardOut_range (y : F64) : isNaN (guardOut y).out = false ∧ magnitude (guardOut y).out ≤ 2 ^ 1074 := by
  obtain ⟨hnanCase, hhighCase, hlowCase, hmidCase⟩ := guardClampsToUnitRange y
  have hone : magnitude one64 ≤ 2 ^ 1074 ∧ magnitude minusOne64 ≤ 2 ^ 1074 := by decide +kernel
  cases hnan : isNaN y with
  | true =>
    rw [hnanCase hnan]
    exact ⟨by decide, Nat.zero_le _⟩
  | false =>
    rcases lt_or_ge (2 ^ 1074) (units y) with hhigh | hhigh
    · rw [hhighCase hnan hhigh]
      exact ⟨by decide, hone.1⟩
    · rcases lt_or_ge (units y) (-2 ^ 1074) with hlow | hlow
      · rw [hlowCase hnan hlow]
        exact ⟨by decide, hone.2⟩
      · rw [hmidCase hnan hlow hhigh]
        refine ⟨hnan, ?_⟩
        rw [← natAbs_units, ← Int.ofNat_le, Int.natCast_natAbs, Nat.cast_pow, Nat.cast_two]
        exact abs_le.mpr ⟨hlow, hhigh⟩

/-! ### The response of a TICK (R176) -/

/-- 1.0 in binary32, as an encoding. -/
theorem encodedMagnitude_one32 : encodedMagnitude 23 (127 * 2 ^ 23) = 2 ^ 149 := by
  rw [show 127 * 2 ^ 23 = 126 * 2 ^ 23 + 2 ^ 23 from rfl, encodedMagnitude_significand (.inr le_rfl) (by decide)]
  rw [← Nat.pow_add]

theorem isInf_eq_false_of_magnitude_le {d : F64} (h : magnitude d ≤ 2 ^ 1074) : isInf d = false := by
  refine Bool.eq_false_iff.mpr fun hinf => ?_
  have hover := overflow32_le_of_isInf hinf
  have hbeyond : 2 ^ 1074 < overflow32 * 2 ^ 925 := by decide +kernel
  omega

/-- A datum of magnitude up to 1.0 narrows to a word of magnitude up to 1.0. -/
theorem narrow_range {d : F64} (hnan : isNaN d = false) (h : magnitude d ≤ 2 ^ 1074) :
    isNaN32 (narrow d) = false ∧ magnitude32 (narrow d) ≤ 2 ^ 149 := by
  have hround : roundMagnitude 24 (magnitude d) 925 ≤ 127 * 2 ^ 23 :=
    roundMagnitude_le (by decide) (by rw [encodedMagnitude_one32, ← Nat.pow_add]; exact h)
  rw [narrow_of_isFinite ⟨hnan, isInf_eq_false_of_magnitude_le h⟩]
  refine ⟨isNaN32_round32 .., ?_⟩
  rw [magnitude32_eq, round32_toNat, ← encodedMagnitude_one32]
  exact (encodedMagnitude_strictMono 23).monotone ((Nat.min_le_left _ _).trans hround)

theorem units32_range {w : Word} (h : magnitude32 w ≤ 2 ^ 149) :
    -(2 ^ 149 : Int) ≤ units32 w ∧ units32 w ≤ 2 ^ 149 := by
  rw [units32]
  split <;> omega

/-- Settles O40: an idle TICK responds +0.0, a running one what the guard lets through, narrowed. -/
theorem tickRespondsASampleInRange : Obligations.TickRespondsASampleInRange := by
  intro s t m c h
  rcases execTick_cases m c s with ⟨-, hs⟩ | ⟨-, hs⟩ <;> cases hs.symm.trans h
  · exact ⟨0, rfl, by decide, by decide, by decide⟩
  · obtain ⟨hnan, hmag⟩ := guardOut_range (mixerResult s m c)
    obtain ⟨hnan', hmag'⟩ := narrow_range hnan hmag
    exact ⟨_, tickRun_rsp m c s, hnan', units32_range hmag'⟩

/-! ### Sums and products with zeros and with 1.0 (40_numerics.md R102, R103) -/

theorem isFinite_of_isZero {d : F64} (h : isZero d = true) : IsFinite d :=
  ⟨not_isNaN_of_isZero h, not_isInf_of_isZero h⟩

theorem isZero_fmul_left {a b : F64} (ha : isZero a = true) (hb : IsFinite b) : isZero (fmul a b) = true := by
  rw [fmul_of_isFinite (isFinite_of_isZero ha) hb, (magnitude_eq_zero_iff a).mpr ha, Nat.zero_mul, round64_zero]
  exact isZero_zero64 _

theorem isZero_fmul_right {a b : F64} (ha : IsFinite a) (hb : isZero b = true) : isZero (fmul a b) = true := by
  rw [fmul_of_isFinite ha (isFinite_of_isZero hb), (magnitude_eq_zero_iff b).mpr hb, Nat.mul_zero, round64_zero]
  exact isZero_zero64 _

theorem isZero_fadd {a b : F64} (ha : isZero a = true) (hb : isZero b = true) : isZero (fadd a b) = true := by
  rw [fadd_of_isFinite (isFinite_of_isZero ha) (isFinite_of_isZero hb), (units_eq_zero_iff a).mpr ha,
    (units_eq_zero_iff b).mpr hb]
  exact (congrArg isZero (round64_zero _ 0)).trans (isZero_zero64 _)

theorem isInf_fneg (a : F64) : isInf (fneg a) = isInf a := by
  rw [isInf, isInf, expoField_fneg, fracField_fneg]

theorem isZero_fneg (a : F64) : isZero (fneg a) = isZero a := by
  rw [isZero, isZero, expoField_fneg, fracField_fneg]

theorem isFinite_fneg {a : F64} (h : IsFinite a) : IsFinite (fneg a) := by
  rwa [IsFinite, isNaN_fneg, isInf_fneg]

theorem isZero_fsub {a b : F64} (ha : isZero a = true) (hb : isZero b = true) : isZero (fsub a b) = true :=
  isZero_fadd ha ((isZero_fneg b).trans hb)

/-- A finite binary64 value is a significand of 53 bits beside a scale that its exponent field allows. -/
theorem exists_significand64 {d : F64} (h : IsFinite d) :
    ∃ (m : Int) (s : Nat), units d = m * 2 ^ s ∧ m.natAbs < 2 ^ 53 ∧ s ≤ 2045 := by
  obtain ⟨hnan, hinf⟩ := h
  have hexpo : expoField d < 2047 := by
    have := expoField_lt d
    simp only [isNaN, isInf, Bool.and_eq_false_iff, beq_eq_false_iff_ne, bne_eq_false_iff_eq] at hnan hinf
    omega
  have henc : d.toNat % 2 ^ 63 < 2047 * 2 ^ 52 := by rw [expoField_eq] at hexpo; omega
  obtain ⟨s, R, he, hlo, hhi⟩ := exists_significand 52 (d.toNat % 2 ^ 63)
  refine ⟨signed (signBit d) R, s, ?_, by rw [natAbs_signed]; exact hhi, by omega⟩
  rw [units_eq_signed, magnitude_eq, he, encodedMagnitude_significand hlo hhi.le, signed_mul, Nat.cast_pow,
    Nat.cast_two]

/-- A sum that is the value of a finite datum, no zero, is that datum. -/
theorem fadd_eq_of_units {a b d : F64} (ha : IsFinite a) (hb : IsFinite b) (hd : IsFinite d)
    (h : units a + units b = units d) (hne : isZero d = false) : fadd a b = d := by
  obtain ⟨m, s, hunits, hm, hs⟩ := exists_significand64 hd
  have hsum := (fadd_exact ha hb (h.trans hunits) hm hs).2
  refine eq_of_units (hsum.trans hunits.symm) fun hzero => ?_
  rw [(units_eq_zero_iff d).mp hzero] at hne
  cases hne

theorem fadd_zero_right {x z : F64} (hx : IsFinite x) (hne : isZero x = false) (hz : isZero z = true) : fadd x z = x :=
  fadd_eq_of_units hx (isFinite_of_isZero hz) hx (by rw [(units_eq_zero_iff z).mpr hz, add_zero]) hne

theorem fadd_zero_left {x z : F64} (hx : IsFinite x) (hne : isZero x = false) (hz : isZero z = true) : fadd z x = x :=
  fadd_eq_of_units (isFinite_of_isZero hz) hx hx (by rw [(units_eq_zero_iff z).mpr hz, zero_add]) hne

theorem fsub_zero_right {x z : F64} (hx : IsFinite x) (hne : isZero x = false) (hz : isZero z = true) : fsub x z = x :=
  fadd_zero_right hx hne ((isZero_fneg z).trans hz)

theorem fsub_zero_left {x z : F64} (hx : IsFinite x) (hne : isZero x = false) (hz : isZero z = true) :
    fsub z x = fneg x :=
  fadd_zero_left (isFinite_fneg hx) ((isZero_fneg x).trans hne) hz

/-- 1.0 times a finite datum is the datum, but for a zero's sign. -/
theorem one_fmul {x : F64} (hx : IsFinite x) (hne : isZero x = false) : fmul one64 x = x := by
  obtain ⟨m, s, hunits, hm, hs⟩ := exists_significand64 hx
  have hproduct : units one64 * units x = m * 2 ^ (s + 1074) := by
    rw [units_one64, hunits, pow_add, mul_comm, mul_assoc]
  have hmul := (fmul_exact (by decide) hx hproduct hm hs).2
  refine eq_of_units (hmul.trans hunits.symm) fun hzero => ?_
  rw [(units_eq_zero_iff x).mp hzero] at hne
  cases hne

/-! ### The recurrence of a section (R153, R154) -/

/-- The sum of the five terms of a section, in the order of R153. -/
def recurrence (t0 t1 t2 t3 t4 : F64) : F64 := fsub (fsub (fadd (fadd t0 t1) t2) t3) t4

theorem bq_out (k : CoefSet) (h : History) (x : F64) :
    (bq k h x).out = recurrence (fmul k.b0.value x) (fmul k.b1.value h.x1) (fmul k.b2.value h.x2)
      (fmul k.a1.value h.y1) (fmul k.a2.value h.y2) := rfl

theorem recurrence_zero {t0 t1 t2 t3 t4 : F64} (h0 : isZero t0 = true) (h1 : isZero t1 = true) (h2 : isZero t2 = true)
    (h3 : isZero t3 = true) (h4 : isZero t4 = true) : isZero (recurrence t0 t1 t2 t3 t4) = true :=
  isZero_fsub (isZero_fsub (isZero_fadd (isZero_fadd h0 h1) h2) h3) h4

section OneTerm

variable {x z0 z1 z2 z3 z4 : F64} (hx : IsFinite x) (hne : isZero x = false)
include hx hne

theorem recurrence_first (h1 : isZero z1 = true) (h2 : isZero z2 = true) (h3 : isZero z3 = true)
    (h4 : isZero z4 = true) : recurrence x z1 z2 z3 z4 = x := by
  rw [recurrence, fadd_zero_right hx hne h1, fadd_zero_right hx hne h2, fsub_zero_right hx hne h3,
    fsub_zero_right hx hne h4]

theorem recurrence_second (h0 : isZero z0 = true) (h2 : isZero z2 = true) (h3 : isZero z3 = true)
    (h4 : isZero z4 = true) : recurrence z0 x z2 z3 z4 = x := by
  rw [recurrence, fadd_zero_left hx hne h0, fadd_zero_right hx hne h2, fsub_zero_right hx hne h3,
    fsub_zero_right hx hne h4]

theorem recurrence_third (h0 : isZero z0 = true) (h1 : isZero z1 = true) (h3 : isZero z3 = true)
    (h4 : isZero z4 = true) : recurrence z0 z1 x z3 z4 = x := by
  rw [recurrence, fadd_zero_left hx hne (isZero_fadd h0 h1), fsub_zero_right hx hne h3, fsub_zero_right hx hne h4]

theorem recurrence_fourth (h0 : isZero z0 = true) (h1 : isZero z1 = true) (h2 : isZero z2 = true)
    (h4 : isZero z4 = true) : recurrence z0 z1 z2 x z4 = fneg x := by
  rw [recurrence, fsub_zero_left hx hne (isZero_fadd (isZero_fadd h0 h1) h2),
    fsub_zero_right (isFinite_fneg hx) ((isZero_fneg x).trans hne) h4]

theorem recurrence_fifth (h0 : isZero z0 = true) (h1 : isZero z1 = true) (h2 : isZero z2 = true)
    (h3 : isZero z3 = true) : recurrence z0 z1 z2 z3 x = fneg x := by
  rw [recurrence, fsub_zero_left hx hne (isZero_fsub (isZero_fadd (isZero_fadd h0 h1) h2) h3)]

end OneTerm

/-- A NaN among the terms makes the recurrence a NaN. -/
theorem isNaN_recurrence {t0 t1 t2 t3 t4 : F64}
    (h : isNaN t0 = true ∨ isNaN t1 = true ∨ isNaN t2 = true ∨ isNaN t3 = true ∨ isNaN t4 = true) :
    isNaN (recurrence t0 t1 t2 t3 t4) = true := by
  have hadd : ∀ {a b}, isNaN a = true ∨ isNaN b = true → isNaN (fadd a b) = true := fun h => by
    rw [fadd_of_isNaN h, isNaN_canonicalNaN]
  have hsub : ∀ {a b}, isNaN a = true ∨ isNaN b = true → isNaN (fsub a b) = true := fun h => by
    rw [fsub_of_isNaN h, isNaN_canonicalNaN]
  rcases h with h | h | h | h | h
  · exact hsub (.inl (hsub (.inl (hadd (.inl (hadd (.inl h)))))))
  · exact hsub (.inl (hsub (.inl (hadd (.inl (hadd (.inr h)))))))
  · exact hsub (.inl (hsub (.inl (hadd (.inr h)))))
  · exact hsub (.inl (hsub (.inr h)))
  · exact hsub (.inr h)

/-- A NaN in the input, the history or the coefficients makes the output of a section a NaN. -/
theorem isNaN_bq_out {k : CoefSet} {h : History} {x : F64}
    (hnan : isNaN x = true ∨ isNaN h.x1 = true ∨ isNaN h.x2 = true ∨ isNaN h.y1 = true ∨ isNaN h.y2 = true ∨
      isNaN k.b0.value = true ∨ isNaN k.b1.value = true ∨ isNaN k.b2.value = true ∨ isNaN k.a1.value = true ∨
      isNaN k.a2.value = true) : isNaN (bq k h x).out = true := by
  have hmul : ∀ {a b}, isNaN a = true ∨ isNaN b = true → isNaN (fmul a b) = true := fun h => by
    rw [fmul_of_isNaN h, isNaN_canonicalNaN]
  rw [bq_out]
  apply isNaN_recurrence
  rcases hnan with h | h | h | h | h | h | h | h | h | h
  · exact .inl (hmul (.inr h))
  · exact .inr (.inl (hmul (.inr h)))
  · exact .inr (.inr (.inl (hmul (.inr h))))
  · exact .inr (.inr (.inr (.inl (hmul (.inr h)))))
  · exact .inr (.inr (.inr (.inr (hmul (.inr h)))))
  · exact .inl (hmul (.inl h))
  · exact .inr (.inl (hmul (.inl h)))
  · exact .inr (.inr (.inl (hmul (.inl h))))
  · exact .inr (.inr (.inr (.inl (hmul (.inl h)))))
  · exact .inr (.inr (.inr (.inr (hmul (.inl h)))))

/-- Settles O46: with one coefficient 1.0 and the others zeros all terms but one are zeros; a NaN output is in the next
history, and so makes every later output a NaN. -/
theorem sectionCornerCases : Obligations.SectionCornerCases := by
  intro k h x zero one
  refine ⟨rfl, rfl, fun hx hh => ?_, fun hnan => ?_⟩
  · obtain ⟨hx1, hx2, hy1, hy2⟩ := hh
    have term : ∀ {p : Pair} {y : F64}, zero p → IsFinite y → isZero (fmul p.value y) = true := isZero_fmul_left
    have unit : ∀ {p : Pair} {y : F64}, one p → IsFinite y → isZero y = false → fmul p.value y = y :=
      fun {p y} hp hy hne => (congrArg (fmul · y) hp).trans (one_fmul hy hne)
    rw [bq_out]
    refine ⟨?_, ?_, ?_, ?_, ?_, ?_⟩
    · rintro ⟨h0, h1, h2, h3, h4⟩
      exact recurrence_zero (term h0 hx) (term h1 hx1) (term h2 hx2) (term h3 hy1) (term h4 hy2)
    · rintro ⟨h0, h1, h2, h3, h4⟩
      refine ⟨fun hne => ?_, fun hz => ?_⟩
      · rw [unit h0 hx hne]
        exact recurrence_first hx hne (term h1 hx1) (term h2 hx2) (term h3 hy1) (term h4 hy2)
      · have hone : IsFinite k.b0.value := by rw [h0]; decide
        exact recurrence_zero (isZero_fmul_right hone hz) (term h1 hx1) (term h2 hx2) (term h3 hy1) (term h4 hy2)
    · rintro ⟨h0, h1, h2, h3, h4, hne⟩
      rw [unit h1 hx1 hne]
      exact recurrence_second hx1 hne (term h0 hx) (term h2 hx2) (term h3 hy1) (term h4 hy2)
    · rintro ⟨h0, h1, h2, h3, h4, hne⟩
      rw [unit h2 hx2 hne]
      exact recurrence_third hx2 hne (term h0 hx) (term h1 hx1) (term h3 hy1) (term h4 hy2)
    · rintro ⟨h0, h1, h2, h3, h4, hne⟩
      rw [unit h3 hy1 hne]
      exact recurrence_fourth hy1 hne (term h0 hx) (term h1 hx1) (term h2 hx2) (term h4 hy2)
    · rintro ⟨h0, h1, h2, h3, h4, hne⟩
      rw [unit h4 hy2 hne]
      exact recurrence_fifth hy2 hne (term h0 hx) (term h1 hx1) (term h2 hx2) (term h3 hy1)
  · have hout := isNaN_bq_out hnan
    exact ⟨canonical_fsub _ _ hout, hout, fun z => isNaN_bq_out (.inr (.inr (.inr (.inl hout))))⟩

end Sys2Proof.Machine
end

section
/-! PROOFS. What a running TICK makes of the block and of each band slot, and which slots and table entries it depends
on (42_tick.md R152-R178). -/

namespace Sys2Proof.Machine

/-! ### A slot after a TICK -/

/-- An active slot after a running TICK: its lane, and its phase advanced (R174). -/
def tickedBand (s : State) (m c : Word) (y : Band) : Band :=
  { (lane s (widen m) (carrier s (widen c)) y).band with hetPhase := advancePhase y.hetPhase y.hetPinc }

theorem tickRun_getElem? (m c : Word) (s : State) (b : Nat) :
    (tickRun m c s).bands[b]? =
      if b < s.numBands.toNat then s.bands[b]?.map (tickedBand s m c) else s.bands[b]? := by
  rw [tickRun_bands, advanceBands_getElem?, tickMix, mixBands_getElem?]
  split_ifs
  · rw [Option.map_map]
    rfl
  · rfl

/-- The slots below NUM_BANDS are ticked, the others kept (R175). -/
theorem tickRun_band (m c : Word) (s : State) (b : Nat) :
    (tickRun m c s).band b =
      if b < s.numBands.toNat ∧ b < s.bands.length then tickedBand s m c (s.band b) else s.band b := by
  simp only [State.band, List.getD_eq_getElem?_getD, tickRun_getElem?]
  by_cases hactive : b < s.numBands.toNat
  · by_cases hlen : b < s.bands.length
    · simp [hactive, hlen]
    · simp [hactive, hlen]
  · simp [hactive]

theorem mem_tickRun_bands {m c : Word} {s : State} {y : Band} (h : y ∈ (tickRun m c s).bands) :
    y ∈ s.bands ∨ ∃ z ∈ s.bands, y = tickedBand s m c z := by
  obtain ⟨b, hb⟩ := List.mem_iff_getElem?.mp h
  rw [tickRun_getElem?] at hb
  split_ifs at hb
  · obtain ⟨z, hz, rfl⟩ := Option.map_eq_some_iff.mp hb
    exact .inr ⟨z, List.mem_of_getElem? hz, rfl⟩
  · exact .inl (List.mem_of_getElem? hb)

theorem exec_tick_running {s : State} (m c : Word) (h : s.status.run = true) :
    exec (.tick m c) s = .next (tickRun m c s) := if_pos h

/-- Settles O37: the fields of `tickRun`, the flags those of `guardOut_flags`, and a lane keeps the configuration of its
slot. -/
theorem runningTickAdvancesTheBlock : Obligations.RunningTickAdvancesTheBlock := by
  intro s m c hrun
  refine ⟨_, exec_tick_running m c hrun, rfl, rfl, rfl, rfl, rfl, ?_, tickRun_bands_length m c s, fun b => ?_, rfl⟩
  · obtain ⟨hnan, hclip⟩ := guardOut_flags (mixerResult s m c)
    rw [tickRun_status, Status.setGuard, hnan, hclip]
  · rw [tickRun_band]
    split_ifs
    · exact ⟨rfl, rfl⟩
    · exact ⟨rfl, rfl⟩

/-! ### What a lane depends on (R178) -/

/-- A lane depends on the gains, the envelope section and the reference of its slot. -/
theorem lane_congr {s s' : State} {b : Band} (hgains : s'.gains = s.gains) (henvlp : s'.envlp = s.envlp)
    (href : hetRef s' b = hetRef s b) (x car : F64) : lane s' x car b = lane s x car b := by
  simp only [lane, analysis, synthesis, anaStage, hetStage, envStage, synStage, hgains, henvlp, href]

theorem carrier_congr {s s' : State} (hgains : s'.gains = s.gains) (hnoise : noiseSample s' = noiseSample s)
    (hosc : oscSample s' = oscSample s) (c : F64) : carrier s' c = carrier s c := by
  simp only [carrier, hgains, hnoise, hosc]

/-- The state with one slot replaced. -/
def State.setBand (s : State) (b : Nat) (x : Band) : State := { s with bands := s.bands.set b x }

theorem band_setBand_of_ne (s : State) {a b : Nat} (x : Band) (h : a ≠ b) : (s.setBand a x).band b = s.band b := by
  simp only [State.setBand, State.band, List.getD_eq_getElem?_getD, List.getElem?_set_ne h]

/-- A lane reads no slot but its own. -/
theorem lane_setBand (s : State) (a : Nat) (z : Band) (x car : F64) (y : Band) :
    lane (s.setBand a z) x car y = lane s x car y := lane_congr rfl rfl rfl x car

theorem carrier_setBand (s : State) (a : Nat) (z : Band) (c : F64) : carrier (s.setBand a z) c = carrier s c :=
  carrier_congr rfl rfl rfl c

theorem tickedBand_setBand (s : State) (a : Nat) (z : Band) (m c : Word) (y : Band) :
    tickedBand (s.setBand a z) m c y = tickedBand s m c y := by
  rw [tickedBand, carrier_setBand, lane_setBand, tickedBand]

/-- A TICK leaves each slot as if every other slot had been another. -/
theorem tickRun_setBand_of_ne (m c : Word) (s : State) {a b : Nat} (x : Band) (h : a ≠ b) :
    (tickRun m c (s.setBand a x)).band b = (tickRun m c s).band b := by
  have hlen : (s.setBand a x).bands.length = s.bands.length := List.length_set
  rw [tickRun_band, tickRun_band, band_setBand_of_ne s x h, tickedBand_setBand, hlen]
  rfl

/-- Settles O38: `tickedBand` is the stated formulas, stage by stage, and `tickRun_setBand_of_ne` the independence. -/
theorem runningTickWorksEachLane : Obligations.RunningTickWorksEachLane := by
  intro s t m c hrun h
  cases (exec_tick_running m c hrun).symm.trans h
  refine ⟨tickRun_bands_length m c s, fun b hlen hactive => ?_, fun a b x u hne hu => ?_, fun b hinactive => ?_⟩
  · have hticked : (tickRun m c s).band b = tickedBand s m c (s.band b) :=
      (tickRun_band m c s b).trans (if_pos ⟨hactive, hlen⟩)
    exact hticked
  · cases (exec_tick_running (s := s.setBand a x) m c hrun).symm.trans hu
    exact tickRun_setBand_of_ne m c s x hne
  · rw [tickRun_band, if_neg (by omega)]

/-- Replacing an inactive slot changes no mixer result. -/
theorem mixerResult_setBand {s : State} {b : Nat} (x : Band) (m c : Word) (h : s.numBands.toNat ≤ b) :
    mixerResult (s.setBand b x) m c = mixerResult s m c := by
  have htake : (s.setBand b x).bands.take s.numBands.toNat = s.bands.take s.numBands.toNat := List.take_set_of_le h
  have hair : airTerm (s.setBand b x) (widen m) = airTerm s (widen m) := rfl
  rw [mixerResult_eq_foldl_lanes, mixerResult_eq_foldl_lanes, show (s.setBand b x).numBands = s.numBands from rfl,
    htake, carrier_setBand, hair]
  simp only [lane_setBand]
  rfl

/-- Settles O45: while idle a TICK reads no slot at all, while running only those below NUM_BANDS. -/
theorem inactiveSlotsHaveNoInfluence : Obligations.InactiveSlotsHaveNoInfluence := by
  intro s t u m c b x hb ht hu
  have hslot : ∀ a, a < s.numBands.toNat → (s.setBand b x).band a = s.band a := fun a ha =>
    band_setBand_of_ne s x (by omega)
  rcases execTick_cases m c s with ⟨hidle, hs⟩ | ⟨hrun, hs⟩ <;> cases hs.symm.trans ht
  · have hidle' : exec (.tick m c) (s.setBand b x) = .next (respond 0 (s.setBand b x)) :=
      idleTickOnlyResponds (s.setBand b x) m c hidle
    cases hidle'.symm.trans hu
    exact ⟨rfl, rfl, rfl, hslot⟩
  · cases (exec_tick_running (s := s.setBand b x) m c hrun).symm.trans hu
    have hmix := mixerResult_setBand x m c hb
    refine ⟨?_, ?_, ?_, fun a ha => tickRun_setBand_of_ne m c s x (by omega)⟩
    · rw [tickRun_rsp, tickRun_rsp, hmix]
    · rw [tickRun_status, tickRun_status, hmix]
      rfl
    · rw [tickRun_hair, tickRun_hair]
      rfl

/-! ### Which table entries a TICK reads (R156-R158, R162) -/

/-- The band loop depends on the lanes of the first `n` slots alone. -/
theorem mixBands_congr {s s' : State} {x car : F64} {n : Nat} {bs : List Band} (acc : F64)
    (h : ∀ b ∈ bs.take n, lane s' x car b = lane s x car b) :
    mixBands s' x car n bs acc = mixBands s x car n bs acc := by
  induction n generalizing bs acc with
  | zero => rfl
  | succ n ih =>
    cases bs with
    | nil => rfl
    | cons b bs =>
      rw [List.take_succ_cons] at h
      have hfirst := h b List.mem_cons_self
      have hrest : ∀ acc, mixBands s' x car n bs acc = mixBands s x car n bs acc := fun acc =>
        ih acc fun y hy => h y (List.mem_cons_of_mem b hy)
      simp only [mixBands, hfirst, hrest]

/-- The entry written is none that a TICK reads: neither the NOISE entry, nor the WAVE entry unless OSC_SEL = 1, nor the
SINE entry of an active slot. -/
structure Unread (s : State) (t : TableId) (j : Nat) : Prop where
  noise : (TableId.noise, s.noiseIdx.toNat) ≠ (t, j)
  wave : s.oscSel = false → (TableId.wave, phaseIndex s.oscPhase s.cfg.waveLog2) ≠ (t, j)
  sine : ∀ b ∈ s.bands.take s.numBands.toNat, (TableId.sine, phaseIndex b.hetPhase s.cfg.sineLog2) ≠ (t, j)

theorem noiseSample_memWrite {s : State} {t : TableId} {j : Nat} (w : Word) (h : Unread s t j) :
    noiseSample (memWrite s t j w) = noiseSample s := by
  rw [noiseSample, memWrite_noiseIdx, memRead_memWrite_other s w h.noise, noiseSample]

theorem oscSample_memWrite {s : State} {t : TableId} {j : Nat} (w : Word) (h : Unread s t j) :
    oscSample (memWrite s t j w) = oscSample s := by
  rw [oscSample, oscSample, memWrite_oscSel, memWrite_oscPhase, memWrite_cfg]
  cases hsel : s.oscSel with
  | true => rw [if_pos rfl, if_pos rfl]
  | false => rw [memRead_memWrite_other s w (h.wave hsel)]

theorem hetRef_memWrite {s : State} {t : TableId} {j : Nat} (w : Word) (h : Unread s t j) {b : Band}
    (hb : b ∈ s.bands.take s.numBands.toNat) : hetRef (memWrite s t j w) b = hetRef s b := by
  rw [hetRef, memWrite_cfg, memRead_memWrite_other s w (h.sine b hb), hetRef]

theorem tickMix_memWrite {s : State} {t : TableId} {j : Nat} (w : Word) (h : Unread s t j) (m c : Word) :
    tickMix (memWrite s t j w) m c = tickMix s m c := by
  have hcarrier : carrier (memWrite s t j w) (widen c) = carrier s (widen c) :=
    carrier_congr (memWrite_gains s t j w) (noiseSample_memWrite w h) (oscSample_memWrite w h) _
  rw [tickMix, tickMix, memWrite_numBands, memWrite_bands, hcarrier]
  exact mixBands_congr 0 fun b hb =>
    lane_congr (memWrite_gains s t j w) (memWrite_envlp s t j w) (hetRef_memWrite w h hb) _ _

/-- An entry that a TICK does not read may be written before it or after it. -/
theorem exec_tick_memWrite {s : State} {t : TableId} {j : Nat} (w : Word) (h : Unread s t j) (m c : Word)
    (hrun : s.status.run = true) :
    exec (.tick m c) (memWrite s t j w) = .next (memWrite (tickRun m c s) t j w) := by
  have hair : airSection (memWrite s t j w) (widen m) = airSection s (widen m) := by
    rw [airSection, memWrite_air, memWrite_hair, airSection]
  rw [exec_tick_running m c (by rw [memWrite_status]; exact hrun)]
  simp only [tickRun, tickMix_memWrite w h, hair]
  generalize tickMix s m c = mix
  generalize airSection s (widen m) = air
  cases t <;> rfl

/-- Every active slot of the list is one that NUM_BANDS counts. -/
theorem exists_band_of_mem_take {s : State} {n : Nat} {y : Band} (h : y ∈ s.bands.take n) :
    ∃ b, b < n ∧ s.band b = y := by
  obtain ⟨b, hb⟩ := List.mem_iff_getElem?.mp h
  rw [List.getElem?_take] at hb
  split_ifs at hb with hlt
  exact ⟨b, hlt, by rw [State.band, List.getD_eq_getElem?_getD, hb, Option.getD_some]⟩

/-- Settles O44: each write named is of an `Unread` entry, the index of a phase being its top bits. -/
theorem unselectedTableEntriesAreNotRead : Obligations.UnselectedTableEntriesAreNotRead := by
  intro s m c w j hrun hinv
  obtain ⟨-, ⟨hsine, hsine'⟩, ⟨hwave, hwave'⟩, -⟩ := hinv.legal
  refine ⟨fun hj => ?_, fun hj => ?_, fun hsel => ?_, fun hsel hj => ?_, fun hj => ?_⟩
  · exact exec_tick_memWrite w ⟨by simpa using hj.symm, fun _ => by simp, fun _ _ => by simp⟩ m c hrun
  · have hidx := hinv.noiseIdx hrun
    omega
  · exact exec_tick_memWrite w ⟨by simp, fun hsel' => by simp [hsel] at hsel', fun _ _ => by simp⟩ m c hrun
  · rw [← (phaseIndexIsTheTopBits _ _ hwave hwave').1] at hj
    exact exec_tick_memWrite w ⟨by simp, fun _ => by simpa using hj.symm, fun _ _ => by simp⟩ m c hrun
  · refine exec_tick_memWrite w ⟨by simp, fun _ => by simp, fun y hy => ?_⟩ m c hrun
    obtain ⟨b, hb, rfl⟩ := exists_band_of_mem_take hy
    have hne := hj b hb
    rw [← (phaseIndexIsTheTopBits _ _ hsine hsine').1] at hne
    simpa using hne.symm

end Sys2Proof.Machine
end

section
/-! PROOFS. What every step keeps of the histories: canonical NaNs (42_tick.md R153; 40_numerics.md R104) and, without a
modulator, silence (42_tick.md R179). -/

namespace Sys2Proof.Machine

/-! ### A property of every slot -/

theorem forall_mem_modify {P : Band → Prop} {bs : List Band} {f : Band → Band} (hf : ∀ x, P x → P (f x))
    (h : ∀ x ∈ bs, P x) (b : Nat) : ∀ y ∈ bs.modify b f, P y := by
  intro y hy
  obtain ⟨i, hi⟩ := List.mem_iff_getElem?.mp hy
  rw [List.getElem?_modify] at hi
  obtain ⟨z, hz, rfl⟩ := Option.map_eq_some_iff.mp hi
  have hP := h z (List.mem_of_getElem? hz)
  split_ifs
  · exact hf z hP
  · exact hP

/-- A property of slots that no accepted write touches holds of every slot after one. -/
theorem forall_band_writeReg {P : Band → Prop} {s : State} {r : Reg} {w : Word} (hro : r.access ≠ .ro)
    (hbp : ∀ x : Band, ∀ k, P x → P { x with bp := k }) (hpinc : ∀ x : Band, ∀ v, P x → P { x with hetPinc := v })
    (h : ∀ x ∈ s.bands, P x) : ∀ x ∈ (s.writeReg r w).bands, P x := by
  cases r with
  | band b k =>
    refine forall_mem_modify (fun x hx => ?_) h b
    cases k with
    | bp half => exact hbp x _ hx
    | hetPinc => exact hpinc x _ hx
    | hetPhase | env => exact absurd rfl hro
  | _ => exact h

/-! ### Canonical NaNs -/

theorem canonical_zero : CanonicalF64 0 := by decide

theorem canonicalHistory_zero : CanonicalHistory History.zero :=
  ⟨canonical_zero, canonical_zero, canonical_zero, canonical_zero⟩

theorem fabs_toNat (a : F64) : (fabs a).toNat = a.toNat % 2 ^ 63 := by
  rw [fabs, BitVec.toNat_and]
  exact Nat.and_two_pow_sub_one_eq_mod a.toNat 63

theorem expoField_fabs (a : F64) : expoField (fabs a) = expoField a := by
  rw [expoField_eq, expoField_eq, fabs_toNat]
  omega

theorem fracField_fabs (a : F64) : fracField (fabs a) = fracField a := by
  rw [fracField_eq, fracField_eq, fabs_toNat]
  omega

theorem isNaN_fabs (a : F64) : isNaN (fabs a) = isNaN a := by
  rw [isNaN, isNaN, expoField_fabs, fracField_fabs]

theorem isZero_fabs (a : F64) : isZero (fabs a) = isZero a := by
  rw [isZero, isZero, expoField_fabs, fracField_fabs]

theorem canonical_fabs {a : F64} (h : CanonicalF64 a) : CanonicalF64 (fabs a) := by
  intro hnan
  rw [isNaN_fabs] at hnan
  rw [h hnan]
  decide

/-- The next history of a section takes in its input and an output, which `fsub` made. -/
theorem canonical_bq (k : CoefSet) {h : History} {x : F64} (hh : CanonicalHistory h) (hx : CanonicalF64 x) :
    CanonicalHistory (bq k h x).hist ∧ CanonicalF64 (bq k h x).out := by
  obtain ⟨hx1, -, hy1, -⟩ := hh
  have hout : CanonicalF64 (bq k h x).out := canonical_fsub _ _
  exact ⟨⟨hx, hx1, hout, hy1⟩, hout⟩

theorem canonical_casc (k : CoefSet) {h1 h2 : History} {x : F64} (hh1 : CanonicalHistory h1)
    (hh2 : CanonicalHistory h2) (hx : CanonicalF64 x) :
    CanonicalHistory (casc k h1 h2 x).hist1 ∧ CanonicalHistory (casc k h1 h2 x).hist2 := by
  obtain ⟨hfirst, hout⟩ := canonical_bq k hh1 hx
  exact ⟨hfirst, (canonical_bq k hh2 hout).1⟩

theorem canonical_carrier (s : State) (c : F64) : CanonicalF64 (carrier s c) := canonical_fadd _ _

/-- The histories of a ticked slot are those of its sections, and its ENV is narrowed. -/
theorem canonical_tickedBand (s : State) (m c : Word) {y : Band} (h : CanonicalBand y) :
    CanonicalBand (tickedBand s m c y) := by
  obtain ⟨⟨ha1, ha2, hs1, hs2, he⟩, -⟩ := h
  obtain ⟨hana1, hana2⟩ := canonical_casc y.bp ha1 ha2 (canonical_widen m)
  obtain ⟨hsyn1, hsyn2⟩ := canonical_casc y.bp hs1 hs2 (canonical_carrier s (widen c))
  exact ⟨⟨hana1, hana2, hsyn1, hsyn2, (canonical_bq s.envlp he (canonical_fabs (canonical_fmul _ _))).1⟩,
    canonical_narrow _⟩

theorem canonicalBand_reset : CanonicalBand Band.reset :=
  ⟨⟨canonicalHistory_zero, canonicalHistory_zero, canonicalHistory_zero, canonicalHistory_zero, canonicalHistory_zero⟩,
    by decide⟩

theorem canonicalNaNs_resetOf (cfg : Config) : (State.resetOf cfg).CanonicalNaNs :=
  ⟨fun _ hb => (List.mem_replicate.mp hb).2 ▸ canonicalBand_reset, canonicalHistory_zero⟩

/-- However a command ends, it keeps the NaNs canonical. -/
theorem Ends.keeps_canonicalNaNs {s t : State} (hends : Ends s t) (h : s.CanonicalNaNs) : t.CanonicalNaNs := by
  obtain ⟨hbands, hhair⟩ := h
  cases hends with
  | raise e => exact ⟨hbands, hhair⟩
  | answer d => exact ⟨hbands, hhair⟩
  | write addr r w hnone hsel =>
    rw [State.CanonicalNaNs, respond_bands, respond_hair, writeReg_hair]
    exact ⟨forall_band_writeReg (writeError_none hnone hsel).1 (fun _ _ => id) (fun _ _ => id) hbands, hhair⟩
  | table t i w _ _ =>
    rw [State.CanonicalNaNs, respond_bands, respond_hair, memWrite_bands, memWrite_hair]
    exact ⟨hbands, hhair⟩
  | start _ =>
    refine ⟨fun y hy => ?_, canonicalHistory_zero⟩
    obtain ⟨z, -, rfl⟩ := List.mem_map.mp hy
    exact canonicalBand_reset
  | stop => exact ⟨hbands, hhair⟩
  | tick m c _ =>
    refine ⟨fun y hy => ?_, (canonical_bq s.air hhair (canonical_widen m)).1⟩
    rcases mem_tickRun_bands hy with hy | ⟨z, hz, rfl⟩
    · exact hbands y hy
    · exact canonical_tickedBand s m c (hbands z hz)

/-- Settles O49: a step resets the block, touches no history, or performs a command, which keeps the NaNs canonical by
`Ends.keeps_canonicalNaNs`. -/
theorem naNsStayCanonical : Obligations.NaNsStayCanonical := by
  refine ⟨canonicalNaNs_resetOf, fun s t h hstep => ?_⟩
  rcases step_cases s with ⟨-, hs⟩ | ⟨-, -, hs⟩ | ⟨-, -, hs⟩ | ⟨c, rest, -, -, hs⟩ <;> rw [hs] at hstep
  · cases hstep
    exact canonicalNaNs_resetOf s.cfg
  · cases hstep
    exact h
  · cases hstep
    exact h
  · obtain ⟨u, hu, hends⟩ := perform_ends c (accept rest s)
    cases hu.symm.trans hstep
    exact hends.keeps_canonicalNaNs h

/-! ### Zeros and NaNs through the arithmetic (R179) -/

/-- A product with a zero is a zero or, against an infinity or a NaN, a NaN. -/
theorem zeroOrNaN_fmul {a b : F64} (h : ZeroOrNaN a ∨ ZeroOrNaN b) : ZeroOrNaN (fmul a b) := by
  by_cases hnan : isNaN a = true ∨ isNaN b = true
  · rw [fmul_of_isNaN hnan]
    exact .inr isNaN_canonicalNaN
  by_cases hinf : (isInf a = true ∧ isZero b = true) ∨ (isZero a = true ∧ isInf b = true)
  · rw [fmul_of_invalid (.inr (.inr hinf))]
    exact .inr isNaN_canonicalNaN
  simp only [not_or, not_and, Bool.not_eq_true] at hnan hinf
  have hzero : isZero a = true ∨ isZero b = true := by
    rcases h with (h | h) | (h | h) <;> simp_all
  rcases hzero with h | h
  · exact .inl (isZero_fmul_left h ⟨hnan.2, hinf.2 h⟩)
  · exact .inl (isZero_fmul_right ⟨hnan.1, Bool.eq_false_iff.mpr fun hi => by simp [hinf.1 hi] at h⟩ h)

theorem zeroOrNaN_fadd {a b : F64} (ha : ZeroOrNaN a) (hb : ZeroOrNaN b) : ZeroOrNaN (fadd a b) := by
  by_cases hnan : isNaN a = true ∨ isNaN b = true
  · rw [fadd_of_isNaN hnan]
    exact .inr isNaN_canonicalNaN
  · rw [not_or] at hnan
    exact .inl (isZero_fadd (ha.resolve_right hnan.1) (hb.resolve_right hnan.2))

theorem zeroOrNaN_fsub {a b : F64} (ha : ZeroOrNaN a) (hb : ZeroOrNaN b) : ZeroOrNaN (fsub a b) :=
  zeroOrNaN_fadd ha (by rwa [ZeroOrNaN, isZero_fneg, isNaN_fneg])

theorem zeroOrNaN_fabs {a : F64} (h : ZeroOrNaN a) : ZeroOrNaN (fabs a) := by
  rwa [ZeroOrNaN, isZero_fabs, isNaN_fabs]

theorem silentHistory_zero : SilentHistory History.zero := by
  have h : ZeroOrNaN 0 := .inl (by decide)
  exact ⟨h, h, h, h⟩

/-- A silent section with a silent input stays silent, whatever its coefficients. -/
theorem silent_bq (k : CoefSet) {h : History} {x : F64} (hh : SilentHistory h) (hx : ZeroOrNaN x) :
    SilentHistory (bq k h x).hist ∧ ZeroOrNaN (bq k h x).out := by
  obtain ⟨hx1, hx2, hy1, hy2⟩ := hh
  have hout : ZeroOrNaN (bq k h x).out :=
    zeroOrNaN_fsub (zeroOrNaN_fsub (zeroOrNaN_fadd (zeroOrNaN_fadd (zeroOrNaN_fmul (.inr hx))
      (zeroOrNaN_fmul (.inr hx1))) (zeroOrNaN_fmul (.inr hx2))) (zeroOrNaN_fmul (.inr hy1))) (zeroOrNaN_fmul (.inr hy2))
  exact ⟨⟨hx, hx1, hout, hy1⟩, hout⟩

/-! ### A silent TICK -/

/-- The analysis histories of a slot are silent. -/
def SilentBand (b : Band) : Prop := SilentHistory b.ha1 ∧ SilentHistory b.ha2 ∧ SilentHistory b.he

theorem silent_iff (s : State) : s.Silent ↔ (∀ b ∈ s.bands, SilentBand b) ∧ SilentHistory s.hair := Iff.rfl

/-- Without a modulator a silent slot keeps its analysis chain silent, and its envelope silences its output, whatever
the carrier. -/
theorem silent_lane (s : State) {x car : F64} {b : Band} (h : SilentBand b) (hx : ZeroOrNaN x) :
    SilentBand (lane s x car b).band ∧ ZeroOrNaN (lane s x car b).out := by
  obtain ⟨ha1, ha2, he⟩ := h
  obtain ⟨hhist1, hout1⟩ := silent_bq b.bp ha1 hx
  obtain ⟨hhist2, hout2⟩ := silent_bq b.bp ha2 hout1
  have hgained : ZeroOrNaN (anaStage s (casc b.bp b.ha1 b.ha2 x).out) := zeroOrNaN_fmul (.inl hout2)
  have hhet : ZeroOrNaN (hetStage s (anaStage s (casc b.bp b.ha1 b.ha2 x).out) (hetRef s b)) :=
    zeroOrNaN_fmul (.inl (zeroOrNaN_fmul (.inl hgained)))
  obtain ⟨hlow, hlowout⟩ := silent_bq s.envlp he (zeroOrNaN_fabs hhet)
  exact ⟨⟨hhist1, hhist2, hlow⟩, zeroOrNaN_fmul (.inr (zeroOrNaN_fmul (.inl hlowout)))⟩

/-- +0.0, or a NaN: what the mixer's sums are in silence. -/
def PosZeroOrNaN (d : F64) : Prop := d = 0 ∨ isNaN d = true

/-- +0.0 plus a zero of either sign is +0.0 (40_numerics.md R103). -/
theorem posZeroOrNaN_fadd {a b : F64} (ha : PosZeroOrNaN a) (hb : ZeroOrNaN b) : PosZeroOrNaN (fadd a b) := by
  by_cases hnan : isNaN a = true ∨ isNaN b = true
  · rw [fadd_of_isNaN hnan]
    exact .inr isNaN_canonicalNaN
  · rw [not_or] at hnan
    obtain rfl := ha.resolve_right hnan.1
    have hz := hb.resolve_right hnan.2
    have hsum : units 0 + units b = 0 := by rw [(units_eq_zero_iff b).mpr hz]; decide
    left
    rw [fadd_of_sum_zero (by decide) (isFinite_of_isZero hz) hsum, if_neg]
    rintro ⟨h0, -⟩
    exact absurd h0 (by decide)

theorem posZeroOrNaN_foldl {ds : List F64} (h : ∀ d ∈ ds, ZeroOrNaN d) {acc : F64} (hacc : PosZeroOrNaN acc) :
    PosZeroOrNaN (ds.foldl fadd acc) := by
  induction ds generalizing acc with
  | nil => exact hacc
  | cons d ds ih =>
    exact ih (fun e he => h e (List.mem_cons_of_mem d he)) (posZeroOrNaN_fadd hacc (h d List.mem_cons_self))

/-- In silence the sum that OUT_GAIN scales is +0.0 or a NaN. -/
theorem silent_mixerResult {s : State} {m : Word} (c : Word) (h : s.Silent) (hm : ZeroOrNaN (widen m)) :
    ∃ d, PosZeroOrNaN d ∧ mixerResult s m c = fmul d (widen s.gains.out) := by
  obtain ⟨hbands, hhair⟩ := (silent_iff s).mp h
  refine ⟨_, ?_, mixerResult_eq_foldl_lanes s m c⟩
  refine posZeroOrNaN_fadd (posZeroOrNaN_foldl (fun d hd => ?_) (.inl rfl)) (zeroOrNaN_fmul (.inl ?_))
  · obtain ⟨b, hb, rfl⟩ := List.mem_map.mp hd
    exact (silent_lane s (hbands b (List.mem_of_mem_take hb)) hm).2
  · exact (silent_bq s.air hhair hm).2

/-- What the guard makes of a zero, and `narrow` of that. -/
theorem narrow_guardOut_zero64 (neg : Bool) :
    narrow (guardOut (zero64 neg)).out = if neg then 0x80000000 else 0x00000000 := by
  cases neg <;> decide +kernel

/-- +0.0 scaled by OUT_GAIN: a zero of the gain's sign if the gain is finite, else a NaN, which the guard replaces. -/
theorem silent_response {d : F64} (out : Word) (hd : PosZeroOrNaN d) :
    narrow (guardOut (fmul d (widen out))).out = 0x00000000 ∨
      (narrow (guardOut (fmul d (widen out))).out = 0x80000000 ∧ signBit32 out = true ∧ isNaN32 out = false ∧
        isInf32 out = false) := by
  have hnanResponse : narrow (guardOut canonicalNaN).out = 0x00000000 := by decide +kernel
  rcases hd with rfl | hnan
  · cases hnan : isNaN32 out with
    | true =>
      left
      rw [widen_of_isNaN32 hnan, fmul_of_isNaN (.inr isNaN_canonicalNaN), hnanResponse]
    | false =>
      cases hinf : isInf32 out with
      | true =>
        left
        rw [widen_of_isInf32 hinf, fmul_of_invalid (.inr (.inr (.inr ⟨by decide, isInf_infinity _⟩))), hnanResponse]
      | false =>
        obtain ⟨hfinite, hsign, -⟩ := widen_exact hnan hinf
        have hproduct : fmul 0 (widen out) = zero64 (signBit32 out) := by
          rw [fmul_of_isFinite (by decide) hfinite, show magnitude 0 = 0 by decide, Nat.zero_mul, round64_zero, hsign,
            show signBit 0 = false by decide, Bool.false_xor]
        rw [hproduct, narrow_guardOut_zero64]
        cases signBit32 out with
        | true => exact .inr ⟨rfl, rfl, rfl, rfl⟩
        | false => exact .inl rfl
  · left
    rw [fmul_of_isNaN (.inl hnan), hnanResponse]

/-- A modulator word that is a zero. -/
theorem zeroOrNaN_widen_zero {m : Word} (h : m = 0x00000000 ∨ m = 0x80000000) : ZeroOrNaN (widen m) := by
  rcases h with rfl | rfl
  · exact .inl (by decide +kernel)
  · exact .inl (by decide +kernel)

/-- A silent state stays silent in a TICK without a modulator. -/
theorem silent_tickRun {s : State} {m : Word} (c : Word) (h : s.Silent) (hm : ZeroOrNaN (widen m)) :
    (tickRun m c s).Silent := by
  obtain ⟨hbands, hhair⟩ := (silent_iff s).mp h
  refine (silent_iff _).mpr ⟨fun y hy => ?_, (silent_bq s.air hhair hm).1⟩
  rcases mem_tickRun_bands hy with hy | ⟨z, hz, rfl⟩
  · exact hbands y hy
  · exact (silent_lane (car := carrier s (widen c)) s (hbands z hz) hm).1

/-- Settles O42: the state by `silent_tickRun`, the response by `silent_mixerResult` and `silent_response`. -/
theorem silenceInSilenceOut : Obligations.SilenceInSilenceOut := by
  intro s t m c hzero hrun hsilent h
  cases (exec_tick_running m c hrun).symm.trans h
  have hm := zeroOrNaN_widen_zero hzero
  obtain ⟨d, hd, hmix⟩ := silent_mixerResult c hsilent hm
  refine ⟨silent_tickRun c hsilent hm, ?_⟩
  rw [tickRun_rsp, hmix]
  rcases silent_response s.gains.out hd with hplus | ⟨hminus, hgain⟩
  · exact .inl (by rw [hplus])
  · exact .inr ⟨by rw [hminus], hgain⟩

/-! ### From START on (41_commands.md R131) -/

theorem silent_startRun (s : State) : (startRun s).Silent := by
  refine (silent_iff _).mpr ⟨fun y hy => ?_, silentHistory_zero⟩
  obtain ⟨z, -, rfl⟩ := List.mem_map.mp hy
  exact ⟨silentHistory_zero, silentHistory_zero, silentHistory_zero⟩

/-- Settles O43: START clears what silence speaks of, and no other command but TICK writes a history. -/
theorem silenceBeginsAtStartAndLasts : Obligations.SilenceBeginsAtStartAndLasts := by
  refine ⟨fun s t hactive h => ?_, fun i s t hsilent htick h => ?_⟩
  · cases (exec_start_active hactive).symm.trans h
    exact silent_startRun s
  · obtain ⟨hbands, hhair⟩ := (silent_iff s).mp hsilent
    cases exec_endsAs h with
    | raise _ e => exact hsilent
    | answer _ d => exact hsilent
    | write r w hmapped hnone =>
      have hro := (writeError_none hnone (selectReg_address hmapped)).1
      rw [silent_iff, respond_bands, respond_hair, writeReg_hair]
      exact ⟨forall_band_writeReg hro (fun _ _ => id) (fun _ _ => id) hbands, hhair⟩
    | table x j w _ _ =>
      rw [silent_iff, respond_bands, respond_hair, memWrite_bands, memWrite_hair]
      exact ⟨hbands, hhair⟩
    | start _ => exact silent_startRun s
    | stop => exact hsilent
    | tick m c _ => exact absurd rfl (htick m c)

end Sys2Proof.Machine
end

section
/-! PROOFS. The pseudo-instructions SETBQ and LOADTAB (30_encoding.md R93) on the block. -/

namespace Sys2Proof.Machine

/-! ### Writes of run-locked registers, one after another -/

/-- The WRREGs of a list of registers and words. -/
def writes (ps : List (Reg × Word)) : List Instr := ps.map fun p => writeNamed p.1 p.2

/-- An idle block with all its slots, and registers in it that WRREG writes whole while idle. -/
structure Writable (s : State) (ps : List (Reg × Word)) : Prop where
  idle : s.status.run = false
  slots : s.bands.length = s.cfg.maxBands
  registers : ∀ p ∈ ps, p.1.plainLocked = true ∧ p.1.mapped s.cfg = true

/-- The first write is made, and the others can still be made after it. -/
theorem Writable.first {s : State} {r : Reg} {w : Word} {ps : List (Reg × Word)} (h : Writable s ((r, w) :: ps)) :
    ∃ t, exec (writeNamed r w) s = .next t ∧ Writable t ps ∧ SameBeyondRegisters s t ∧
      ∀ r', t.readReg r' = if r' = r then w else s.readReg r' := by
  obtain ⟨hlocked, hmapped⟩ := h.registers _ List.mem_cons_self
  obtain ⟨hplain, hexec⟩ := exec_wrreg_plain w hmapped (.inr ⟨hlocked, h.idle⟩)
  have hsame := (sameBeyond_writeReg s r w).trans (sameBeyond_respond 0 (s.writeReg r w))
  refine ⟨_, hexec, ⟨?_, ?_, fun p hp => ?_⟩, hsame, readReg_writeReg w hplain hmapped h.slots⟩
  · rw [respond_status, writeReg_run, h.idle]
  · rw [hsame.slots, hsame.cfg, h.slots]
  · rw [hsame.cfg]
    exact h.registers p (List.mem_cons_of_mem _ hp)

/-- Writes touch the registers named and nothing else. -/
theorem execAll_writes_frame {s : State} {ps : List (Reg × Word)} (h : Writable s ps) :
    SameBeyondRegisters s (execAll (writes ps) s) ∧
      ∀ r, (∀ p ∈ ps, p.1 ≠ r) → (execAll (writes ps) s).readReg r = s.readReg r := by
  induction ps generalizing s with
  | nil => exact ⟨.refl s, fun _ _ => rfl⟩
  | cons p ps ih =>
    obtain ⟨r, w⟩ := p
    obtain ⟨t, hexec, hwritable, hsame, hread⟩ := h.first
    obtain ⟨hsame', hread'⟩ := ih hwritable
    rw [show execAll (writes ((r, w) :: ps)) s = execAll (writes ps) t by simp [writes, execAll, hexec]]
    refine ⟨hsame.trans hsame', fun r' hr' => ?_⟩
    rw [hread' r' fun p hp => hr' p (List.mem_cons_of_mem _ hp), hread, if_neg (hr' _ List.mem_cons_self).symm]

/-- After writes of different registers each reads the word written to it. -/
theorem execAll_writes_read {s : State} {ps : List (Reg × Word)} (h : Writable s ps)
    (hnodup : (ps.map Prod.fst).Nodup) {r : Reg} {w : Word} (hmem : (r, w) ∈ ps) :
    (execAll (writes ps) s).readReg r = w := by
  induction ps generalizing s with
  | nil => cases hmem
  | cons p ps ih =>
    obtain ⟨r₀, w₀⟩ := p
    obtain ⟨t, hexec, hwritable, -, hread⟩ := h.first
    obtain ⟨hfresh, hnodup'⟩ := List.nodup_cons.mp hnodup
    rw [show execAll (writes ((r₀, w₀) :: ps)) s = execAll (writes ps) t by simp [writes, execAll, hexec]]
    rcases List.mem_cons.mp hmem with heq | hmem
    · cases heq
      have hkept := (execAll_writes_frame hwritable).2 r fun p hp heq => hfresh (List.mem_map.mpr ⟨p, hp, heq⟩)
      rw [hkept, hread, if_pos rfl]
    · exact ih hwritable hnodup' hmem

/-! ### SETBQ -/

/-- The ten halves of a coefficient set with the words of its data, in address order. -/
def halves (k : Coefs) : List (CoefHalf × Word) :=
  [(⟨.b0, false⟩, k.b0.extractLsb' 0 32), (⟨.b0, true⟩, k.b0.extractLsb' 32 32),
   (⟨.b1, false⟩, k.b1.extractLsb' 0 32), (⟨.b1, true⟩, k.b1.extractLsb' 32 32),
   (⟨.b2, false⟩, k.b2.extractLsb' 0 32), (⟨.b2, true⟩, k.b2.extractLsb' 32 32),
   (⟨.a1, false⟩, k.a1.extractLsb' 0 32), (⟨.a1, true⟩, k.a1.extractLsb' 32 32),
   (⟨.a2, false⟩, k.a2.extractLsb' 0 32), (⟨.a2, true⟩, k.a2.extractLsb' 32 32)]

/-- The register writes of SETBQ. -/
def slotWrites (b : Nat) (k : Coefs) : List (Reg × Word) := (halves k).map fun p => (.band b (.bp p.1), p.2)

theorem setBq_eq_writes (b : Nat) (k : Coefs) : setBq b k = writes (slotWrites b k) := rfl

theorem slotWrites_nodup (b : Nat) (k : Coefs) : ((slotWrites b k).map Prod.fst).Nodup := by
  have hhalves : ((halves k).map Prod.fst).Nodup := by
    show List.Nodup [⟨.b0, false⟩, ⟨.b0, true⟩, ⟨.b1, false⟩, ⟨.b1, true⟩, ⟨.b2, false⟩, ⟨.b2, true⟩, ⟨.a1, false⟩,
      ⟨.a1, true⟩, ⟨.a2, false⟩, (⟨.a2, true⟩ : CoefHalf)]
    decide
  have hregs : (slotWrites b k).map Prod.fst = ((halves k).map Prod.fst).map fun h => .band b (.bp h) := by
    rw [slotWrites, List.map_map, List.map_map]
    rfl
  rw [hregs]
  exact hhalves.map fun h h' heq => by cases heq; rfl

theorem append_halves (d : F64) : d.extractLsb' 32 32 ++ d.extractLsb' 0 32 = d := by
  apply BitVec.eq_of_toNat_eq
  have hlt := d.isLt
  rw [toNat_append_field, BitVec.extractLsb'_toNat, BitVec.extractLsb'_toNat, Nat.shiftRight_eq_div_pow,
    Nat.shiftRight_eq_div_pow]
  omega

/-- Settles O58: SETBQ is the writes of ten different registers of one slot, and a coefficient is what its two halves
read. -/
theorem setBqSetsTheCoefficients : Obligations.SetBqSetsTheCoefficients := by
  intro s b k hidle hb hslots
  have hwritable : Writable s (slotWrites b k) := by
    refine ⟨hidle, hslots, fun p hp => ?_⟩
    obtain ⟨q, -, rfl⟩ := List.mem_map.mp hp
    exact ⟨rfl, decide_eq_true hb⟩
  rw [setBq_eq_writes]
  dsimp only
  obtain ⟨hsame, hframe⟩ := execAll_writes_frame hwritable
  have hcoef : ∀ c d, (⟨c, false⟩, d.extractLsb' 0 32) ∈ halves k → (⟨c, true⟩, d.extractLsb' 32 32) ∈ halves k →
      (((execAll (writes (slotWrites b k)) s).band b).bp.pair c).value = d := fun c d hlo hhi => by
    have hread {h : CoefHalf} {w : Word} (hmem : (h, w) ∈ halves k) :
        (execAll (writes (slotWrites b k)) s).readReg (.band b (.bp h)) = w :=
      execAll_writes_read hwritable (slotWrites_nodup b k) (List.mem_map_of_mem (f := fun p => (_, p.2)) hmem)
    exact (congrArg₂ (· ++ ·) (hread hhi) (hread hlo)).trans (append_halves d)
  refine ⟨hcoef .b0 k.b0 ?_ ?_, hcoef .b1 k.b1 ?_ ?_, hcoef .b2 k.b2 ?_ ?_, hcoef .a1 k.a1 ?_ ?_, hcoef .a2 k.a2 ?_ ?_,
    fun r hr => hframe r fun p hp => ?_, hsame⟩
  case refine_11 =>
    obtain ⟨q, -, rfl⟩ := List.mem_map.mp hp
    exact (hr q.1).symm
  all_goals simp [halves]

/-! ### LOADTAB -/

/-- Loading words from entry `i` on leaves them there in order, and every other entry as it was. -/
theorem memRead_loadFrom {s : State} {t : TableId} {i : Nat} {ws : List Word} (hidle : s.status.run = false)
    (hfit : i + ws.length ≤ depth s.cfg t) (x : TableId) (j : Nat) :
    memRead (execAll (loadFrom (tabOf t) i ws) s) x j =
      if x = t ∧ i ≤ j then (ws[j - i]?).getD (memRead s x j) else memRead s x j := by
  induction ws generalizing s i with
  | nil => simp [loadFrom, execAll]
  | cons w ws ih =>
    rw [List.length_cons] at hfit
    have hexec := exec_wrtab_idle (s := s) (t := t) (i := i) w (by omega) hidle
    have hfirst : memRead (respond 0 (memWrite s t i w)) x j = if x = t ∧ j = i then w else memRead s x j := by
      rw [respond_memRead]
      split_ifs with h
      · rw [h.1, h.2, memRead_memWrite_same]
      · exact memRead_memWrite_other s w (by simpa using h)
    have hrest := ih (s := respond 0 (memWrite s t i w)) (i := i + 1) (by simpa using hidle)
      (by rw [respond_cfg, memWrite_cfg]; omega)
    rw [loadFrom, execAll, hexec]
    refine hrest.trans ?_
    rw [hfirst]
    by_cases hx : x = t
    · rcases Nat.lt_trichotomy j i with hlt | rfl | hgt
      · simp [hx, show ¬i + 1 ≤ j by omega, show ¬i ≤ j by omega, show j ≠ i by omega]
      · simp [hx]
      · obtain ⟨d, rfl⟩ := Nat.exists_eq_add_of_lt hgt
        have hindex : i + d + 1 - i = d + 1 ∧ i + d + 1 - (i + 1) = d := by omega
        simp [hx, show i + 1 ≤ i + d + 1 by omega, show i ≤ i + d + 1 by omega, show i + d + 1 ≠ i by omega, hindex]
    · simp [hx]

/-- A TAB value that names no table leaves what one ERR_ADDR leaves, or nothing if there is no word. -/
theorem execAll_loadFrom_unknown {tab : Nat} (htab : 3 ≤ tab) (i : Nat) (ws : List Word) (s : State) :
    execAll (loadFrom tab i ws) s = s ∨ execAll (loadFrom tab i ws) s = raiseError .addr s := by
  induction ws generalizing s i with
  | nil => exact .inl rfl
  | cons w ws ih =>
    have hexec := exec_wrtab_unknown w (selectEntry_unknown s.cfg htab i)
    have hrest := ih (i + 1) (raiseError .addr s)
    rw [raiseError_twice, or_self] at hrest
    right
    rw [loadFrom, execAll, hexec]
    exact hrest

theorem responsesOf_loadFrom_unknown {tab : Nat} (htab : 3 ≤ tab) (i : Nat) (ws : List Word) (s : State) :
    responsesOf (loadFrom tab i ws) s = List.replicate ws.length ⟨0, .err .addr⟩ := by
  induction ws generalizing s i with
  | nil => rfl
  | cons w ws ih =>
    have hexec := exec_wrtab_unknown w (selectEntry_unknown s.cfg htab i)
    simp [loadFrom, responsesOf, hexec, ih, List.replicate_succ]

theorem readReg_raiseError {r : Reg} (h : r ≠ .status) (e : ErrCode) (s : State) :
    (raiseError e s).readReg r = s.readReg r := by
  cases r with
  | status => exact absurd rfl h
  | _ => rfl

/-- Settles O59: `memRead_loadFrom` from entry 0 on, and the two lemmas on a TAB that names no table. -/
theorem loadTabLoadsTheEntries : Obligations.LoadTabLoadsTheEntries := by
  refine ⟨fun s t ws hidle hfit => ?_, fun s tab ws htab _ => ?_⟩
  · have hread := memRead_loadFrom (t := t) (i := 0) (ws := ws) hidle (by omega)
    refine ⟨fun i hi => ?_, fun x j hother => ?_⟩
    · rw [loadTab, hread]
      simp [hi]
    · rw [loadTab, hread]
      rcases hother with hx | hj
      · simp [hx]
      · simp [hj]
  · refine ⟨responsesOf_loadFrom_unknown htab 0 ws s, ?_⟩
    rw [loadTab]
    rcases execAll_loadFrom_unknown htab 0 ws s with hs | hs
    · rw [hs]
      exact ⟨fun _ _ => rfl, .refl s⟩
    · rw [hs]
      exact ⟨fun r hr => readReg_raiseError hr .addr s, sameBeyond_raiseError .addr s⟩

end Sys2Proof.Machine
end

section
/-! PROOFS. The band plan of the host and the checks before it (43_host_driver.md R201-R203, R209, R220). -/

namespace Sys2Proof.Machine

/-! ### The first value above 1.0 -/

/-- The magnitude of the first binary64 value above 1.0. -/
theorem encodedMagnitude_aboveOne : encodedMagnitude 52 (1023 * 2 ^ 52 + 1) = (2 ^ 52 + 1) * 2 ^ 1022 := by
  rw [show 1023 * 2 ^ 52 + 1 = 1022 * 2 ^ 52 + (2 ^ 52 + 1) by omega,
    encodedMagnitude_significand (.inr (Nat.le_add_right _ _)) (by decide)]

/-- A value above 1.0 is positive, and no less than the first one. -/
theorem above_one {r : F64} (h : flt one64 r = true) :
    isNaN r = false ∧ signBit r = false ∧ isZero r = false ∧ (2 ^ 52 + 1) * 2 ^ 1022 ≤ magnitude r := by
  have hnan : isNaN r = false := by simp_all [flt]
  rw [one64_flt_iff hnan] at h
  have hpos : (0 : Int) < 2 ^ 1074 := by positivity
  have hsign : signBit r = false := by
    cases hs : signBit r with
    | false => rfl
    | true =>
      rw [units_eq_signed, hs, signed, if_pos rfl] at h
      omega
  have hmag : 2 ^ 1074 < magnitude r := by
    rw [units_eq_signed, hsign, signed, if_neg Bool.false_ne_true] at h
    exact_mod_cast h
  have hzero : isZero r = false := Bool.eq_false_iff.mpr fun hz => by
    rw [(magnitude_eq_zero_iff r).mpr hz] at hmag
    omega
  refine ⟨hnan, hsign, hzero, ?_⟩
  have hone : encodedMagnitude 52 (1023 * 2 ^ 52) = 2 ^ 1074 := by
    rw [show 1023 * 2 ^ 52 = 1022 * 2 ^ 52 + 2 ^ 52 by omega, encodedMagnitude_significand (.inr le_rfl) (by decide),
      ← Nat.pow_add]
  rw [magnitude_eq, ← hone, (encodedMagnitude_strictMono 52).lt_iff_lt] at hmag
  rw [magnitude_eq, ← encodedMagnitude_aboveOne]
  exact (encodedMagnitude_strictMono 52).monotone hmag

/-! ### The ratio of an accurate host (R201) -/

theorem units_minOctaves : units 0x3D50000000000000 = 2 ^ 1032 := by decide +kernel

/-- The first value above 1.0, as a datum. -/
def aboveOne64 : F64 := 0x3FF0000000000001

theorem units_aboveOne64 : units aboveOne64 = (2 ^ 52 + 1) * 2 ^ 1022 := by decide +kernel

theorem scale_eq : (2 : ℝ) ^ 1074 = 2 ^ 52 * 2 ^ 1022 ∧ (2 : ℝ) ^ 1032 = 2 ^ 10 * 2 ^ 1022 := by
  rw [← pow_add, ← pow_add]
  exact ⟨rfl, rfl⟩

/-- The growth by `u log 2` that 2^u has at least, in units `k` of the last place at 1.0. -/
theorem last_place_lt {u k : ℝ} (hk : 0 < k) (hu : 2 ^ 10 * k ≤ u) : k < u * Real.log 2 := by
  have hlog : (0.5 : ℝ) ≤ Real.log 2 := by linarith [Real.log_two_gt_d9]
  calc k < 2 ^ 10 * k * 0.5 := by linarith
    _ ≤ u * Real.log 2 := mul_le_mul hu hlog (by norm_num) (le_trans (by positivity) hu)

/-- 2 to a power of 2^-42 or more lies beyond the first value above 1.0, as 2^x is at least 1 + x log 2. -/
theorem aboveOne64_lt_exp2 {x : F64} (h : (2 : ℝ) ^ 1032 ≤ units x) :
    (units aboveOne64 : ℝ) < (2 : ℝ) ^ ((units x : ℝ) / 2 ^ 1074) * 2 ^ 1074 := by
  obtain ⟨hone, hmin⟩ := scale_eq
  have hexp : (units x : ℝ) / 2 ^ 1074 * Real.log 2 + 1 ≤ (2 : ℝ) ^ ((units x : ℝ) / 2 ^ 1074) := by
    rw [Real.rpow_def_of_pos two_pos, mul_comm (Real.log 2)]
    exact Real.add_one_le_exp _
  calc (units aboveOne64 : ℝ) = 2 ^ 1022 + 2 ^ 1074 := by
        rw [units_aboveOne64, hone, Int.cast_mul, Int.cast_pow, Int.cast_ofNat]
        generalize (2 : ℝ) ^ 1022 = k
        push_cast
        ring
    _ < (units x : ℝ) * Real.log 2 + 2 ^ 1074 :=
        (add_lt_add_iff_right _).mpr (last_place_lt (by positivity) (hmin ▸ h))
    _ = ((units x : ℝ) / 2 ^ 1074 * Real.log 2 + 1) * 2 ^ 1074 := by
        rw [add_mul, one_mul, mul_right_comm, div_mul_cancel₀ _ (by positivity)]
    _ ≤ _ := mul_le_mul_of_nonneg_right hexp (by positivity)

/-- An accurate power of two of an exponent from 2^-42 on is above 1.0. -/
theorem exp2_above_one {hm : HostMath} (h : hm.Accurate) {x : F64} (hx : IsFinite x)
    (hmin : hostLe 0x3D50000000000000 x = true) : flt one64 (hm.exp2 x) = true := by
  have hunits : (2 : Int) ^ 1032 ≤ units x := by
    rw [← units_minOctaves]
    simp only [hostLe, Bool.and_eq_true, decide_eq_true_eq] at hmin
    exact hmin.2
  obtain ⟨hnan, hfaithful⟩ := h.exp2 x hx
  obtain ⟨-, hbelow, -⟩ := hfaithful aboveOne64 (by decide)
  have hunits' : ((2 ^ 1032 : Int) : ℝ) ≤ units x := Int.cast_le.mpr hunits
  rw [Int.cast_pow, Int.cast_ofNat] at hunits'
  have hreal := aboveOne64_lt_exp2 hunits'
  rw [one64_flt_iff hnan]
  by_contra hle
  refine hbelow ⟨?_, hreal⟩
  rw [Int.cast_lt, units_aboveOne64]
  have hpos : (0 : Int) < 2 ^ 1022 := by positivity
  have hone : (2 : Int) ^ 1074 = 2 ^ 52 * 2 ^ 1022 := by rw [← pow_add]
  omega

/-! ### A product with a ratio above 1.0 grows (R203) -/

/-- A positive datum that is normal, or the infinity. -/
structure PositiveNormal (d : F64) : Prop where
  notNaN : isNaN d = false
  sign : signBit d = false
  normal : 2 ^ 52 ≤ d.toNat % 2 ^ 63

theorem positiveNormal_infinity : PositiveNormal (infinity false) := ⟨by decide, by decide, by decide⟩

theorem encoding_infinity : (infinity false).toNat % 2 ^ 63 = infEncoding := by decide

theorem encoding_lt_of_isFinite {d : F64} (h : IsFinite d) : d.toNat % 2 ^ 63 < infEncoding := by
  obtain ⟨hnan, hinf⟩ := h
  have := expoField_lt d
  simp only [isNaN, isInf, Bool.and_eq_false_iff, beq_eq_false_iff_ne, bne_eq_false_iff_eq] at hnan hinf
  rw [infEncoding_eq]
  rw [expoField_eq] at *
  omega

/-- The exact product reaches the value after `c`, whose significand is at least 2^52. -/
theorem next_le_product {c r : F64} (hc : PositiveNormal c) (hr : (2 ^ 52 + 1) * 2 ^ 1022 ≤ magnitude r) :
    encodedMagnitude 52 (c.toNat % 2 ^ 63 + 1) * 2 ^ 1074 ≤ magnitude c * magnitude r := by
  obtain ⟨s, R, he, hlo, hhi⟩ := exists_significand 52 (c.toNat % 2 ^ 63)
  have hnormal := hc.normal
  have hR : 2 ^ 52 ≤ R := by
    rcases hlo with rfl | hlo
    · omega
    · exact hlo
  rw [magnitude_eq c, he, Nat.add_assoc, encodedMagnitude_significand (.inr (by omega)) hhi,
    encodedMagnitude_significand (.inr hR) hhi.le]
  have hone : 2 ^ 1074 = 2 ^ 52 * 2 ^ 1022 := by rw [← Nat.pow_add]
  rw [hone]
  generalize 2 ^ 1022 = unit at *
  calc (R + 1) * 2 ^ s * (2 ^ 52 * unit) = 2 ^ s * unit * (R * 2 ^ 52 + 2 ^ 52) := by ring
    _ ≤ 2 ^ s * unit * (R * 2 ^ 52 + R) := by gcongr
    _ = R * 2 ^ s * ((2 ^ 52 + 1) * unit) := by ring
    _ ≤ R * 2 ^ s * magnitude r := Nat.mul_le_mul_left _ hr

/-- A finite positive normal datum times a ratio above 1.0 is a later one. -/
theorem fmul_grows {c r : F64} (hc : PositiveNormal c) (hfinite : IsFinite c) (hr : flt one64 r = true) :
    PositiveNormal (fmul c r) ∧ c.toNat % 2 ^ 63 < (fmul c r).toNat % 2 ^ 63 := by
  obtain ⟨hnan, hsign, -, hmag⟩ := above_one hr
  have hlt := encoding_lt_of_isFinite hfinite
  have hnormal := hc.normal
  cases hinf : isInf r with
  | true =>
    have hcz : isZero c = false := Bool.eq_false_iff.mpr fun hz => by
      rw [isZero, Bool.and_eq_true, beq_iff_eq, beq_iff_eq, expoField_eq, fracField_eq] at hz
      omega
    rw [fmul_of_isInf hc.notNaN hnan (.inr ⟨hinf, hcz⟩), hc.sign, hsign, Bool.xor_false]
    exact ⟨positiveNormal_infinity, by rw [encoding_infinity]; exact hlt⟩
  | false =>
    rw [fmul_of_isFinite hfinite ⟨hnan, hinf⟩, hc.sign, hsign, Bool.xor_false]
    have hround : c.toNat % 2 ^ 63 + 1 ≤ roundMagnitude 53 (magnitude c * magnitude r) 1074 :=
      le_roundMagnitude (by decide) (next_le_product hc hmag)
    have hgrow : c.toNat % 2 ^ 63 < (round64 false (magnitude c * magnitude r) 1074).toNat % 2 ^ 63 := by
      rw [round64_toNat]
      omega
    exact ⟨⟨isNaN_round64 .., signBit_round64 .., by omega⟩, hgrow⟩

theorem fmul_infinite {c r : F64} (hc : PositiveNormal c) (hinf : isInf c = true) (hr : flt one64 r = true) :
    PositiveNormal (fmul c r) := by
  obtain ⟨hnan, hsign, hzero, -⟩ := above_one hr
  rw [fmul_of_isInf hc.notNaN hnan (.inl ⟨hinf, hzero⟩), hc.sign, hsign, Bool.xor_false]
  exact positiveNormal_infinity

theorem positiveNormal_fmul {c r : F64} (hc : PositiveNormal c) (hr : flt one64 r = true) :
    PositiveNormal (fmul c r) := by
  cases hinf : isInf c with
  | true => exact fmul_infinite hc hinf hr
  | false => exact (fmul_grows hc ⟨hc.notNaN, hinf⟩ hr).1

/-- A later encoding is a greater value, among positive data. -/
theorem flt_of_encoding_lt {c d : F64} (hc : PositiveNormal c) (hd : PositiveNormal d)
    (h : c.toNat % 2 ^ 63 < d.toNat % 2 ^ 63) : flt c d = true := by
  rw [flt_iff hc.notNaN hd.notNaN, units_eq_signed, units_eq_signed, hc.sign, hd.sign, magnitude_eq, magnitude_eq]
  exact Int.ofNat_lt.mpr (encodedMagnitude_strictMono 52 h)

/-- A finite positive normal start. -/
theorem positiveNormal_start {d : F64} (hpos : flt 0 d = true) (hexpo : 1 ≤ expoField d) : PositiveNormal d := by
  have hnan : isNaN d = false := by simp_all [flt]
  refine ⟨hnan, ?_, ?_⟩
  · rw [flt_iff (by decide) hnan, show units 0 = 0 by decide, units_eq_signed] at hpos
    cases hs : signBit d with
    | false => rfl
    | true =>
      rw [hs, signed, if_pos rfl] at hpos
      omega
  · rw [expoField_eq] at hexpo
    omega

/-! ### The plan (R201) -/

@[simp] theorem centersFrom_length (ratio : F64) (n : Nat) (c : F64) : (centersFrom ratio n c).length = n := by
  induction n generalizing c with
  | zero => rfl
  | succ n ih => simp [centersFrom, ih]

/-- Each center after the first is the product of the one before it and the ratio. -/
theorem centersFrom_next {ratio : F64} {n : Nat} {start c d : F64} {i : Nat}
    (hc : (centersFrom ratio n start)[i]? = some c) (hd : (centersFrom ratio n start)[i + 1]? = some d) :
    d = fmul c ratio := by
  induction n generalizing start i with
  | zero => cases hc
  | succ n ih =>
    rw [centersFrom, List.getElem?_cons_succ] at hd
    cases i with
    | zero =>
      cases n with
      | zero => cases hd
      | succ n => cases hc; cases hd; rfl
    | succ i =>
      rw [centersFrom, List.getElem?_cons_succ] at hc
      exact ih hc hd

/-- What holds of the start, and of the product of a center it holds of, holds of every center. -/
theorem forall_mem_centersFrom {P : F64 → Prop} {ratio start : F64} (hnext : ∀ c, P c → P (fmul c ratio)) (h : P start)
    (n : Nat) : ∀ c ∈ centersFrom ratio n start, P c := by
  induction n generalizing start with
  | zero => nofun
  | succ n ih =>
    intro c hc
    rcases List.mem_cons.mp hc with rfl | hc
    · exact h
    · exact ih (hnext _ h) c hc

/-- From a positive normal start a ratio above 1.0 makes the centers grow strictly (R203). -/
theorem centersFrom_grow {ratio start : F64} (hr : flt one64 ratio = true) (hstart : PositiveNormal start) {n i : Nat}
    {c d : F64} (hc : (centersFrom ratio n start)[i]? = some c) (hd : (centersFrom ratio n start)[i + 1]? = some d)
    (hfinite : isInf c = false) : flt c d = true := by
  have hpos := forall_mem_centersFrom (fun _ hc => positiveNormal_fmul hc hr) hstart n c (List.mem_of_getElem? hc)
  obtain ⟨hnormal, hlt⟩ := fmul_grows hpos ⟨hpos.notNaN, hfinite⟩ hr
  rw [centersFrom_next hc hd]
  exact flt_of_encoding_lt hpos hnormal hlt

theorem flt_of_increasing {cs : List F64} (h : increasing cs = true) {i : Nat} {c d : F64} (hc : cs[i]? = some c)
    (hd : cs[i + 1]? = some d) : flt c d = true := by
  induction cs generalizing i with
  | nil => cases hc
  | cons a cs ih =>
    cases cs with
    | nil => cases hd
    | cons b cs =>
      rw [increasing, Bool.and_eq_true] at h
      obtain ⟨hfirst, hrest⟩ := h
      cases i with
      | zero => cases hc; cases hd; exact hfirst
      | succ i => exact ih hrest hc hd

/-! ### The checks before a band configuration (R202, R203, R209, R220) -/

theorem flt_eq_false_of_hostLe {a b : F64} (h : hostLe b a = true) : flt a b = false := by
  simp only [hostLe, Bool.and_eq_true, decide_eq_true_eq] at h
  have hle := h.2
  simp only [flt, Bool.and_eq_false_iff, decide_eq_false_iff_not]
  omega

/-- Each condition of R202 rejects the plan. -/
theorem bandsRejected_of_invalid (hm : HostMath) {cfg : Config} (p : HostParams) {startHz endHz : F64} {n : Nat}
    (h : n < 1 ∨ cfg.maxBands < n ∨ hostLe startHz 0 = true ∨ hostLe endHz startHz = true) :
    bandsRejected hm cfg p startHz endHz n = true := by
  unfold bandsRejected
  rcases h with h | h | h | h
  · simp [h]
  · simp [h]
  · simp only [flt_eq_false_of_hostLe h, Bool.not_false, Bool.or_true, Bool.true_or]
  · simp only [flt_eq_false_of_hostLe h, Bool.not_false, Bool.or_true, Bool.true_or]

/-- A plan that is not rejected is of designs that R209 allows, and grows. -/
theorem plan_of_not_rejected {hm : HostMath} {cfg : Config} {p : HostParams} {startHz endHz : F64} {n : Nat}
    (h : bandsRejected hm cfg p startHz endHz n = false) :
    (∀ c ∈ generateBands hm startHz endHz n, designUsed c p.bandQ p.fs = true) ∧
      increasing (generateBands hm startHz endHz n) = true := by
  simp only [bandsRejected, Bool.or_eq_false_iff, Bool.not_eq_false'] at h
  obtain ⟨⟨-, hdesign⟩, hincreasing⟩ := h
  exact ⟨List.all_eq_true.mp hdesign, hincreasing⟩

/-- Settles O60: the plan is `centersFrom`, its ratio `exp2_above_one`, its growth `centersFrom_grow`, and the checks
are those of `bandsRejected`. -/
theorem bandPlanAndItsChecks : Obligations.BandPlanAndItsChecks := by
  intro hm startHz endHz n plan octaves ratio
  refine ⟨centersFrom_length _ n startHz, fun hn => ?_, fun i c d hc hd => centersFrom_next hc hd,
    fun haccurate hoctaves hmin => exp2_above_one haccurate hoctaves hmin,
    fun hr _ hpos hexpo i c d hc hd hfinite => ?_, fun h s hinvalid => ?_, fun h s haccepted => ?_⟩
  · obtain ⟨k, rfl⟩ := Nat.exists_eq_add_of_le' hn
    rfl
  · exact centersFrom_grow hr (positiveNormal_start hpos hexpo) hc hd hfinite
  · have hrejected := bandsRejected_of_invalid hm h.params hinvalid
    rcases configureBands_cases hm startHz endHz n h s with ⟨-, hcall⟩ | ⟨hpass, -⟩
    · rw [hcall]
      exact ⟨rfl, rfl⟩
    · rw [hrejected] at hpass
      cases hpass
  · rcases configureBands_cases hm startHz endHz n h s with ⟨-, hcall⟩ | ⟨hpass, hcall⟩
    · rw [hcall] at haccepted
      cases haccepted
    · obtain ⟨hdesign, hincreasing⟩ := plan_of_not_rejected hpass
      refine ⟨fun i c d hc hd => flt_of_increasing hincreasing hc hd, fun c hc => ?_, ?_⟩
      · have hused := hdesign c hc
        simp only [designUsed, Bool.and_eq_true] at hused
        exact hused.1
      · rw [hcall, reconfigure_host, keep_host]
        rfl

end Sys2Proof.Machine
end
